-- ==== Sys2Proof/Word.lean ====
section
/-! DEFINITION. The word types of QRCORE: 32-bit words (10_state.md R22, 20_memory.md R60), bytes, the 20-bit word
addresses of the register space (00_scope.md R6 `AW`), and the numbers of the two register files. -/

namespace Sys2Proof

/-- A 32-bit word: a scalar register, a command word, a host word (10_state.md R22, 30_encoding.md R110). -/
abbrev Word := BitVec 32

/-- A byte: a codeword, an input byte, a field element (40_field_arithmetic.md R130). -/
abbrev Byte := BitVec 8

/-- A word address of the register space, 0x00000 to 0xFFFFF (20_memory.md R60). -/
abbrev Addr := BitVec 20

/-- The number of a scalar register, 0..7 (10_state.md R22). -/
abbrev XReg := Fin 8

/-- The number of a polynomial register, 0..3 (10_state.md R24). -/
abbrev PReg := Fin 4

end Sys2Proof
end

