-- ==== Sys2Proof/Syntax.lean ====
section
/-! DEFINITION. The commands of QRCORE: one constructor for each of the 18 rows of the opcode map (30_encoding.md R113,
spec/opcode_table.json). Operands stand in the order of the assembler notation, destination first (30_encoding.md R116). -/

namespace Sys2Proof

/-- A command. Field values are register numbers; no command carries an immediate (30_encoding.md R111, R112). -/
inductive Instr where
  /-- `gfexp xd, xs1`: field exponentiation (40_field_arithmetic.md R134). -/
  | gfexp (rd rs1 : XReg)
  /-- `gflog xd, xs1`: discrete logarithm (40_field_arithmetic.md R135). -/
  | gflog (rd rs1 : XReg)
  /-- `pmul pd, pa, pb`: polynomial multiplication (41_polynomial_engine.md R143). -/
  | pmul (pd pa pb : PReg)
  /-- `pmulm pd, pa, xs1`: multiplication by a monomial of degree 0 (41_polynomial_engine.md R145). -/
  | pmulm (pd pa : PReg) (rs1 : XReg)
  /-- `rsgen pd, xs1`: build a generator polynomial (42_generator_builder.md R151). -/
  | rsgen (pd : PReg) (rs1 : XReg)
  /-- `rsdiv xs1`: error-correction codewords of the codeword buffer (43_rs_encoder.md R156). -/
  | rsdiv (rs1 : XReg)
  /-- `msel xs1, xs2`: choose the version and the level (44_message_encoder.md R166). -/
  | msel (rs1 rs2 : XReg)
  /-- `masm`: build the data codewords (44_message_encoder.md R168). -/
  | masm
  /-- `mint`: split, encode, interleave (44_message_encoder.md R172). -/
  | mint
  /-- `menc xs1, xs2`: the Message Encoder as a whole (48_composite_commands.md R230). -/
  | menc (rs1 rs2 : XReg)
  /-- `bchfmt xd, xs1, xs2`: format information string (45_bch_metadata.md R187). -/
  | bchfmt (rd rs1 rs2 : XReg)
  /-- `bchver xd, xs1`: version information string (45_bch_metadata.md R189). -/
  | bchver (rd rs1 : XReg)
  /-- `maskb xd, xs1, xs2`: mask one bit (47_data_placement.md R217). -/
  | maskb (rd rs1 rs2 : XReg)
  /-- `mpat`: place patterns and metadata (46_matrix_patterns.md R197). -/
  | mpat
  /-- `mdata`: place the bitstream (47_data_placement.md R219). -/
  | mdata
  /-- `mmargin`: frame the finished symbol (47_data_placement.md R222). -/
  | mmargin
  /-- `mrender`: `render` as a whole (48_composite_commands.md R231). -/
  | mrender
  /-- `qrenc xs1, xs2`: the encoder as a whole (48_composite_commands.md R232). -/
  | qrenc (rs1 rs2 : XReg)
deriving DecidableEq, Repr

end Sys2Proof
end

