-- ==== Sys2Proof/WellFormed.lean ====
section
/-! DEFINITION. Well-formedness. A command's operands are register numbers and every number of a field names a register
(30_encoding.md R111), which the types `XReg` and `PReg` already say: every `Instr` is well formed. What CAN be ill
formed is the list of raw field values an assembler line gives (R116), before it is a command word: a value too wide for
its field. Those checks are `RawFields.wellFormed`. (A 32-bit word that is no command is refused by the decoder, R115.) -/

namespace Sys2Proof

/-- The fields of format C as plain naturals (30_encoding.md R111, R116): what an assembler line gives, before it is known
that each value fits its field. A field the command does not use is 0 (R116). -/
structure RawFields where
  op : Nat
  rd : Nat := 0
  rs1 : Nat := 0
  rs2 : Nat := 0
  pd : Nat := 0
  pa : Nat := 0
  pb : Nat := 0
deriving DecidableEq, Repr

/-- Every raw field value fits its field: 8 bits of opcode, 3 bits per scalar register number, 2 bits per polynomial
register number (30_encoding.md R111). -/
def RawFields.wellFormed (f : RawFields) : Bool :=
  f.op < 256 && f.rd < 8 && f.rs1 < 8 && f.rs2 < 8 && f.pd < 4 && f.pa < 4 && f.pb < 4

/-- A command is well formed when each register number it holds names a register: 8 scalar registers (10_state.md R22),
4 polynomial registers (10_state.md R24). By the operand types every command is. -/
def Instr.wellFormed : Instr → Bool
  | .gfexp rd rs1 | .gflog rd rs1 | .bchver rd rs1 => rd.val < 8 && rs1.val < 8
  | .pmul pd pa pb => pd.val < 4 && pa.val < 4 && pb.val < 4
  | .pmulm pd pa rs1 => pd.val < 4 && pa.val < 4 && rs1.val < 8
  | .rsgen pd rs1 => pd.val < 4 && rs1.val < 8
  | .rsdiv rs1 => rs1.val < 8
  | .msel rs1 rs2 | .menc rs1 rs2 | .qrenc rs1 rs2 => rs1.val < 8 && rs2.val < 8
  | .bchfmt rd rs1 rs2 | .maskb rd rs1 rs2 => rd.val < 8 && rs1.val < 8 && rs2.val < 8
  | .masm | .mint | .mpat | .mdata | .mmargin | .mrender => true

end Sys2Proof
end

