-- ==== Sys2Proof/Decode.lean ====
section
/-! DEFINITION. The command decoder and encoder (30_encoding.md R110, R111, R113, R115, R116). Decoding is total on 32-bit
words and rejects by name; the encoder is written from the same field table. -/

namespace Sys2Proof

/-- Why a word is no command (30_encoding.md R110, R115). -/
inductive DecodeError where
  /-- Bits 7:0 are not one of the 18 opcodes: `IllegalCommand(1)`. -/
  | unknownOpcode
  /-- The opcode is legal and a bit outside the fields the command uses is 1: `IllegalCommand(2)`. -/
  | unusedBitSet
deriving DecidableEq, Repr

/-! ### The fields of format C (30_encoding.md R111) -/

/-- `OP`, bits 7:0. -/
def fieldOp (w : Word) : BitVec 8 := w.extractLsb' 0 8
/-- `RD`, bits 10:8. -/
def fieldRd (w : Word) : XReg := (w.extractLsb' 8 3).toFin
/-- `RS1`, bits 13:11. -/
def fieldRs1 (w : Word) : XReg := (w.extractLsb' 11 3).toFin
/-- `RS2`, bits 16:14. -/
def fieldRs2 (w : Word) : XReg := (w.extractLsb' 14 3).toFin
/-- `PD`, bits 18:17. -/
def fieldPd (w : Word) : PReg := (w.extractLsb' 17 2).toFin
/-- `PA`, bits 20:19. -/
def fieldPa (w : Word) : PReg := (w.extractLsb' 19 2).toFin
/-- `PB`, bits 22:21. -/
def fieldPb (w : Word) : PReg := (w.extractLsb' 21 2).toFin

/-! ### The opcode map (30_encoding.md R113) -/

/-- One row of the opcode map: its mnemonic, `match`, `mask`, and the command a word of the row is. -/
structure OpcodeRow where
  mnemonic : String
  pattern : Word
  mask : Word
  build : Word → Instr

/-- The 18 rows, in the table's order; `pattern` and `mask` are the columns `match` and `mask` of R113. -/
def opcodeMap : List OpcodeRow :=
  [⟨"GFEXP", 0x00000001#32, 0xFFFFC0FF#32, fun w => .gfexp (fieldRd w) (fieldRs1 w)⟩,
   ⟨"GFLOG", 0x00000002#32, 0xFFFFC0FF#32, fun w => .gflog (fieldRd w) (fieldRs1 w)⟩,
   ⟨"PMUL", 0x00000010#32, 0xFF81FFFF#32, fun w => .pmul (fieldPd w) (fieldPa w) (fieldPb w)⟩,
   ⟨"PMULM", 0x00000011#32, 0xFFE1C7FF#32, fun w => .pmulm (fieldPd w) (fieldPa w) (fieldRs1 w)⟩,
   ⟨"RSGEN", 0x00000018#32, 0xFFF9C7FF#32, fun w => .rsgen (fieldPd w) (fieldRs1 w)⟩,
   ⟨"RSDIV", 0x00000020#32, 0xFFFFC7FF#32, fun w => .rsdiv (fieldRs1 w)⟩,
   ⟨"MSEL", 0x00000030#32, 0xFFFE07FF#32, fun w => .msel (fieldRs1 w) (fieldRs2 w)⟩,
   ⟨"MASM", 0x00000031#32, 0xFFFFFFFF#32, fun _ => .masm⟩,
   ⟨"MINT", 0x00000032#32, 0xFFFFFFFF#32, fun _ => .mint⟩,
   ⟨"MENC", 0x00000033#32, 0xFFFE07FF#32, fun w => .menc (fieldRs1 w) (fieldRs2 w)⟩,
   ⟨"BCHFMT", 0x00000040#32, 0xFFFE00FF#32, fun w => .bchfmt (fieldRd w) (fieldRs1 w) (fieldRs2 w)⟩,
   ⟨"BCHVER", 0x00000041#32, 0xFFFFC0FF#32, fun w => .bchver (fieldRd w) (fieldRs1 w)⟩,
   ⟨"MASKB", 0x00000042#32, 0xFFFE00FF#32, fun w => .maskb (fieldRd w) (fieldRs1 w) (fieldRs2 w)⟩,
   ⟨"MPAT", 0x00000048#32, 0xFFFFFFFF#32, fun _ => .mpat⟩,
   ⟨"MDATA", 0x00000049#32, 0xFFFFFFFF#32, fun _ => .mdata⟩,
   ⟨"MMARGIN", 0x0000004A#32, 0xFFFFFFFF#32, fun _ => .mmargin⟩,
   ⟨"MRENDER", 0x0000004B#32, 0xFFFFFFFF#32, fun _ => .mrender⟩,
   ⟨"QRENC", 0x00000050#32, 0xFFFE07FF#32, fun w => .qrenc (fieldRs1 w) (fieldRs2 w)⟩]

/-- The opcode of a row: bits 7:0 of its pattern (30_encoding.md R110). -/
def OpcodeRow.opcode (r : OpcodeRow) : BitVec 8 := fieldOp r.pattern

/-- Decoding of a command word (30_encoding.md R110, less the `FATAL` refusal, which is the command mechanism's): the row
of the opcode, then the test that every bit outside the used fields is 0. -/
def decode (w : Word) : Except DecodeError Instr :=
  match opcodeMap.find? (fun r => r.opcode == fieldOp w) with
  | none => .error .unknownOpcode
  | some r => if w &&& r.mask = r.pattern then .ok (r.build w) else .error .unusedBitSet

/-! ### The encoder (30_encoding.md R113, R116) -/

/-- The fields of a command: opcode and used fields of R113, 0 for a field the command does not use (R116). -/
def fieldsOf : Instr → RawFields
  | .gfexp rd rs1 => { op := 0x01, rd := rd.val, rs1 := rs1.val }
  | .gflog rd rs1 => { op := 0x02, rd := rd.val, rs1 := rs1.val }
  | .pmul pd pa pb => { op := 0x10, pd := pd.val, pa := pa.val, pb := pb.val }
  | .pmulm pd pa rs1 => { op := 0x11, pd := pd.val, pa := pa.val, rs1 := rs1.val }
  | .rsgen pd rs1 => { op := 0x18, pd := pd.val, rs1 := rs1.val }
  | .rsdiv rs1 => { op := 0x20, rs1 := rs1.val }
  | .msel rs1 rs2 => { op := 0x30, rs1 := rs1.val, rs2 := rs2.val }
  | .masm => { op := 0x31 }
  | .mint => { op := 0x32 }
  | .menc rs1 rs2 => { op := 0x33, rs1 := rs1.val, rs2 := rs2.val }
  | .bchfmt rd rs1 rs2 => { op := 0x40, rd := rd.val, rs1 := rs1.val, rs2 := rs2.val }
  | .bchver rd rs1 => { op := 0x41, rd := rd.val, rs1 := rs1.val }
  | .maskb rd rs1 rs2 => { op := 0x42, rd := rd.val, rs1 := rs1.val, rs2 := rs2.val }
  | .mpat => { op := 0x48 }
  | .mdata => { op := 0x49 }
  | .mmargin => { op := 0x4A }
  | .mrender => { op := 0x4B }
  | .qrenc rs1 rs2 => { op := 0x50, rs1 := rs1.val, rs2 := rs2.val }

/-- A command word from its fields: `OP | RD<<8 | RS1<<11 | RS2<<14 | PD<<17 | PA<<19 | PB<<21` (30_encoding.md R116). -/
def packFields (f : RawFields) : Word :=
  BitVec.ofNat 32 (f.op ||| f.rd <<< 8 ||| f.rs1 <<< 11 ||| f.rs2 <<< 14 ||| f.pd <<< 17 ||| f.pa <<< 19 ||| f.pb <<< 21)

/-- The command word of a command (30_encoding.md R116). -/
def encode (i : Instr) : Word := packFields (fieldsOf i)

/-- The command the decoder reads from an instruction of `nbits` bits numbered as spec/opcode_table.json numbers them; the
bits above `nbits` are 0. A command is one 32-bit word with no byte order (30_encoding.md R110, 20_memory.md R66). -/
def decodeTableWord (nbits w : Nat) : Option Instr :=
  match decode (BitVec.ofNat 32 (w % 2 ^ nbits)) with
  | .ok i => some i
  | .error _ => none

end Sys2Proof
end

