-- ==== Sys2Proof/Config.lean ====
section
/-! DEFINITION. The configuration: the interface of the static tables `T` (21_static_tables.md R90 to R101) and the
parameters of 00_scope.md R6. Nothing here is state (R90). Every meaning of the model takes a `Config` as an argument, so
statements can be made for every `T` and every legal parameter; the machine that `exec` runs takes the one of
Machine/Tables.lean, the spec's defaults (log 1, log 2). -/

namespace Sys2Proof

/-- An error-correction level (10_state.md R33). -/
inductive Level where
  | L | M | Q | H
deriving DecidableEq, Repr

/-- A value of `T.ec`: EC codewords per block, blocks and data codewords per block of the two groups
(21_static_tables.md R93). -/
structure EcEntry where
  e : Nat
  b1 : Nat
  d1 : Nat
  b2 : Nat
  d2 : Nat
deriving DecidableEq, Repr

/-- The static tables `T` (21_static_tables.md R90). A partial function is undefined where it answers `none` (and where its
value is one that counts as undefined: `Machine.queryEc` and its kin). `T.R`, whose value the document gives, is
`Config.reductionConstant` (R92). Only mode Byte is queried, so no function takes a mode (R94, R96). -/
structure Tables where
  /-- `T.ec(version, level)` (R93). -/
  ec : Nat → Level → Option EcEntry
  /-- `T.lenbits(Byte, version)` (R94). -/
  lenbits : Nat → Option Nat
  /-- `T.align(version)`: centre coordinates, ascending (R95). -/
  align : Nat → Option (List Nat)
  /-- `T.modeind(Byte)` (R96). -/
  modeind : BitVec 4
  /-- `T.pad`: the pad byte used first (R97). -/
  pad0 : Byte
  /-- `T.pad`: the pad byte used second (R97). -/
  pad1 : Byte
  /-- `T.rembits(version)` (R98). -/
  rembits : Nat → Option Nat
  /-- `T.rembitval` (R98). -/
  rembitval : Bool
  /-- `T.fmtgen` (R99). -/
  fmtgen : BitVec 11
  /-- `T.vergen` (R99). -/
  vergen : BitVec 13
  /-- `T.fmtmask` (R99). -/
  fmtmask : BitVec 15
  /-- `T.lvlbits(level)` (R100). -/
  lvlbits : Level → BitVec 2
  /-- `T.maskpred(id, col, row)`, always defined (R101). -/
  maskpred : BitVec 3 → Nat → Nat → Bool

/-- The configuration of one block (00_scope.md R6; 92_eei_decisions.md section 1). -/
structure Config where
  /-- The static tables, OPEN (D46). -/
  T : Tables
  /-- `ALIGN_MIN_VERSION`, OPEN, 2 or 3 (46_matrix_patterns.md R207). -/
  alignMinVersion : Nat := 2
  /-- `MASK_FLIP_WHEN`, OPEN (47_data_placement.md R218). -/
  maskFlipWhen : Bool := true
  /-- `MARGIN`, OPEN, 0..39 (47_data_placement.md R222). -/
  margin : Nat := 4
  /-- `DIV_SHORT_THRESHOLD` (43_rs_encoder.md R159). -/
  divShortThreshold : Nat := 19
  /-- `short_adjust(message, r, remainder)` of 93_implementation_defined.md U2, applied to the remainder of a message shorter
  than the threshold; the identity by default (log 3). -/
  shortAdjust : List Byte → Nat → List Byte → List Byte := fun _ _ remainder => remainder

/-- `T.R`, the GF(256) reduction constant, the one table value the document gives (21_static_tables.md R92). -/
def Config.reductionConstant : Nat := 0x1D

/-- The legal values of the parameters and of the constant fields of `T` (92_eei_decisions.md section 1, R99). -/
structure Config.Legal (c : Config) : Prop where
  alignMinVersion : c.alignMinVersion = 2 ∨ c.alignMinVersion = 3
  margin : c.margin ≤ 39
  fmtgen : c.T.fmtgen.getLsbD 10 = true
  vergen : c.T.vergen.getLsbD 12 = true

end Sys2Proof
end

