-- ==== Sys2Proof/Machine/State.lean ====
section
/-! DEFINITION. The architectural state of QRCORE (10_state.md R20), plain data, and its value after reset
(70_reset_and_hazards.md R260); the host's side of the interface (20_memory.md R72); the errors a command can raise
(60_exceptions.md R236); and the reasons a step can stop (there is none). -/

namespace Sys2Proof.Machine

/-- A storage array: (index, element) pairs with strictly rising indices and no entry equal to the element an unlisted
index reads as. That element is the array's reset contents: 0, or `Unset` (70_reset_and_hazards.md R260). -/
abbrev Memory (α : Type) := List (Nat × α)

/-- A matrix cell (10_state.md R45). The code 0b01 is never written and has no value here. -/
inductive Cell where
  | unset | light | dark
deriving DecidableEq, Repr

/-- The matrix memory: rows by row number, each an array of cells by column (10_state.md R46). -/
abbrev Matrix := Memory (Memory Cell)

/-- `STATUS.PHASE` (10_state.md R36, R37). -/
inductive Phase where
  | idle | patternsPlaced | dataInserted | marginApplied
deriving DecidableEq, Repr

/-- The values of `STATUS.ERR` (10_state.md R38); the codes 9..15 are never written. -/
inductive ErrCode where
  | ok | capacityExceeded | placementOverflow | malformedLookup | illegalCommand | badOperand | badPhase
  | bufferOverflow | layoutMismatch
deriving DecidableEq, Repr

/-- `FINFO` (10_state.md R40); the bits outside the three fields read 0. -/
structure Finfo where
  what : BitVec 8 := 0#8
  kver : BitVec 6 := 0#6
  klvl : BitVec 2 := 0#2
deriving DecidableEq, Repr

/-- `SYM` (10_state.md R33). `MODE` is always 2 (R34), so it has no storage. -/
structure Sym where
  ver : BitVec 6
  lvl : Level
  mask : BitVec 3
deriving DecidableEq, Repr

/-- A polynomial register: its length `PLEN` and its term words `PT` (10_state.md R24). -/
structure PolyReg where
  len : Nat
  terms : Memory Word
deriving DecidableEq, Repr

/-- One host access to the register space (20_memory.md R61, R72). -/
inductive HostAccess where
  /-- `MemRead(addr, 1)`. -/
  | read (addr : Addr)
  /-- `MemWrite(addr, 1, v)`. -/
  | write (addr : Addr) (v : Word)
deriving DecidableEq, Repr

/-- The error a command raises, with what `FINFO` records of it (60_exceptions.md R236). -/
inductive CmdError where
  /-- R240: raised by `MSEL`, `MENC`, `QRENC`. -/
  | capacityExceeded
  /-- R241, fatal: `region` is the region code 1..10. -/
  | placementOverflow (region : Nat)
  /-- R242, fatal: table code 1..4, the key's version and level (code 0 when the key has no level). -/
  | malformedLookup (table : Nat) (ver : Nat) (lvl : Level)
  /-- R243: `what` is 1 or 2. -/
  | illegalCommand (what : Nat)
  /-- R244: `what` is the sub-cause 1..12. -/
  | badOperand (what : Nat)
  /-- R245: `what` is 1, 2 or 3. -/
  | badPhase (what : Nat)
  /-- R246: `what` is 1 or 2. -/
  | bufferOverflow (what : Nat)
  /-- R247: `what` is 1 or 2. -/
  | layoutMismatch (what : Nat)
deriving DecidableEq, Repr

/-- Reasons the machine stops with a fault. There is none: the block has no trap, every error is reported in `STATUS` and
`FINFO` and the machine goes on (60_exceptions.md R235, R250), and every 20-bit address answers (20_memory.md R62, R63). -/
inductive Fault where
deriving DecidableEq, Repr

/-- Reasons a command has no meaning in the model. -/
inductive Refusal where
  /-- The command is not modelled yet: raised by `exec`'s arm of that name only, safe. No arm raises it. -/
  | notModelled (mnemonic : String)
deriving DecidableEq, Repr

/-- The state of one block (10_state.md R20), and the host's side of the interface (log 4). -/
structure State where
  /-- `x0`..`x7` (R22). -/
  x : Vector Word 8
  /-- `p0`..`p3`: `PLEN` and `PT` (R24). -/
  p : Vector PolyReg 4
  /-- `SYM` (R33). -/
  sym : Sym
  /-- `STATUS.PHASE` (R36, R37). -/
  phase : Phase
  /-- `STATUS.ERR` (R38). -/
  err : ErrCode
  /-- `STATUS.FATAL` (R39). -/
  fatal : Bool
  /-- `FINFO` (R40). -/
  finfo : Finfo
  /-- `DINLEN` (R41). -/
  dinlen : Nat
  /-- `DIN` (R41). -/
  din : Memory Byte
  /-- `CWLEN` (R42). -/
  cwlen : Nat
  /-- `CW` (R42). -/
  cw : Memory Byte
  /-- `ECCLEN` (R43). -/
  ecclen : Nat
  /-- `ECC` (R43). -/
  ecc : Memory Byte
  /-- `BITLEN` (R44). -/
  bitlen : Nat
  /-- `BITS` (R44). -/
  bits : Memory Bool
  /-- `MATSIZE` (R46). -/
  matsize : Nat
  /-- `MAT` (R45, R46). -/
  mat : Matrix
  /-- The host's accesses still to come, in their order (20_memory.md R70); the model's own field (log 4). -/
  pending : List HostAccess
  /-- The words host reads have returned, oldest first (20_memory.md R72); the model's own field (log 4). -/
  replies : List Word
deriving DecidableEq, Repr

/-- The state after reset (70_reset_and_hazards.md R260): everything 0 or `Unset`, phase Idle, no version chosen, level L,
mask 0; no host access pending (log 6). -/
def State.reset : State where
  x := Vector.replicate 8 0#32
  p := Vector.replicate 4 { len := 0, terms := [] }
  sym := { ver := 0#6, lvl := .L, mask := 0#3 }
  phase := .idle
  err := .ok
  fatal := false
  finfo := {}
  dinlen := 0
  din := []
  cwlen := 0
  cw := []
  ecclen := 0
  ecc := []
  bitlen := 0
  bits := []
  matsize := 0
  mat := []
  pending := []
  replies := []

end Sys2Proof.Machine
end

