-- ==== Sys2Proof/Machine/Flags.lean ====
section
/-! DEFINITION. The codes and words of the control and status registers (10_state.md R28 to R40, R45) and the error report
of a command (60_exceptions.md R236, R238). The block has no arithmetic flags (R28): `STATUS` and `FINFO` are all a command
leaves besides its result. -/

namespace Sys2Proof.Machine

/-! ### Codes -/

/-- The code of a level in `SYM.LVL` and in operand registers (10_state.md R33). -/
def levelCode : Level → Nat
  | .L => 0
  | .M => 1
  | .Q => 2
  | .H => 3

/-- The level of a code 0..3 (10_state.md R33). -/
def levelOfCode (n : Nat) : Option Level :=
  match n with
  | 0 => some .L
  | 1 => some .M
  | 2 => some .Q
  | 3 => some .H
  | _ => none

/-- The level a 2-bit `LVL` field names (10_state.md R33). -/
def levelOfBits (b : BitVec 2) : Level :=
  (levelOfCode b.toNat).getD .L

/-- The 2-bit code of a cell (10_state.md R45): bit 1 says the cell has been set, bit 0 that it is dark. -/
def cellCode : Cell → BitVec 2
  | .unset => 0b00#2
  | .light => 0b10#2
  | .dark => 0b11#2

/-- The code of a phase in `STATUS.PHASE` (10_state.md R36). -/
def phaseCode : Phase → BitVec 2
  | .idle => 0#2
  | .patternsPlaced => 1#2
  | .dataInserted => 2#2
  | .marginApplied => 3#2

/-- The code of an error in `STATUS.ERR` (10_state.md R38). -/
def errBits : ErrCode → BitVec 4
  | .ok => 0#4
  | .capacityExceeded => 1#4
  | .placementOverflow => 2#4
  | .malformedLookup => 3#4
  | .illegalCommand => 4#4
  | .badOperand => 5#4
  | .badPhase => 6#4
  | .bufferOverflow => 7#4
  | .layoutMismatch => 8#4

/-! ### The words a host reads -/

/-- `ID` (10_state.md R30). -/
def idWord : Word := 0x51520001#32

/-- The word of `STATUS` (10_state.md R36): `PHASE` 1:0, `ERR` 7:4, `FATAL` 8, zeros elsewhere. -/
def statusWord (s : State) : Word :=
  0#23 ++ BitVec.ofBool s.fatal ++ errBits s.err ++ 0#2 ++ phaseCode s.phase

/-- The word of `SYM` (10_state.md R33): `VER` 5:0, `LVL` 9:8, `MASK` 14:12, `MODE` = 2 in 17:16, zeros elsewhere. -/
def symWord (y : Sym) : Word :=
  0#14 ++ 2#2 ++ 0#1 ++ y.mask ++ 0#2 ++ BitVec.ofNat 2 (levelCode y.lvl) ++ 0#2 ++ y.ver

/-- The word of `FINFO` (10_state.md R40): `WHAT` 7:0, `KVER` 13:8, `KLVL` 17:16, zeros elsewhere. -/
def finfoWord (f : Finfo) : Word :=
  0#14 ++ f.klvl ++ 0#2 ++ f.kver ++ f.what

/-! ### The report of an error (60_exceptions.md R236 to R247) -/

/-- The value of `STATUS.ERR` an error reports (10_state.md R38). -/
def errorCode : CmdError → ErrCode
  | .capacityExceeded => .capacityExceeded
  | .placementOverflow _ => .placementOverflow
  | .malformedLookup .. => .malformedLookup
  | .illegalCommand _ => .illegalCommand
  | .badOperand _ => .badOperand
  | .badPhase _ => .badPhase
  | .bufferOverflow _ => .bufferOverflow
  | .layoutMismatch _ => .layoutMismatch

/-- What `FINFO` records of an error (60_exceptions.md R236). -/
def errorInfo : CmdError → Finfo
  | .capacityExceeded => {}
  | .placementOverflow region => { what := BitVec.ofNat 8 region }
  | .malformedLookup table ver lvl =>
    { what := BitVec.ofNat 8 table, kver := BitVec.ofNat 6 ver, klvl := BitVec.ofNat 2 (levelCode lvl) }
  | .illegalCommand what => { what := BitVec.ofNat 8 what }
  | .badOperand what => { what := BitVec.ofNat 8 what }
  | .badPhase what => { what := BitVec.ofNat 8 what }
  | .bufferOverflow what => { what := BitVec.ofNat 8 what }
  | .layoutMismatch what => { what := BitVec.ofNat 8 what }

/-- The errors that set `STATUS.FATAL` (10_state.md R39, 60_exceptions.md R236). -/
def errorFatal : CmdError → Bool
  | .placementOverflow _ => true
  | .malformedLookup .. => true
  | .capacityExceeded => false
  | .illegalCommand _ => false
  | .badOperand _ => false
  | .badPhase _ => false
  | .bufferOverflow _ => false
  | .layoutMismatch _ => false

end Sys2Proof.Machine
end

