-- ==== Sys2Proof/Machine/Ops.lean ====
section
/-! DEFINITION. The named operations over storage arrays, registers, buffers and the matrix (00_scope.md R10, 10_state.md
R22 to R46, 20_memory.md R65), and the command transaction with its error report, the one way a command ends
(60_exceptions.md R238, R239). -/

namespace Sys2Proof.Machine

/-! ### Storage arrays

One primitive, `Memory.splice`, writes; every other write is an instance of it. `d` is the element an unlisted index reads
as. -/

/-- The element at index `i`. -/
def Memory.read {α : Type} (d : α) : Memory α → Nat → α
  | [], _ => d
  | (k, v) :: m, i => if k = i then v else Memory.read d m i

/-- The entries of the elements `vs` at the indices from `k` on, those equal to `d` left out. -/
def Memory.entries {α : Type} [DecidableEq α] (d : α) : Nat → List α → Memory α
  | _, [] => []
  | k, v :: vs => if v = d then Memory.entries d (k + 1) vs else (k, v) :: Memory.entries d (k + 1) vs

/-- Write the elements `vs` at the indices `i`, `i+1`, ...; every other element keeps its value. -/
def Memory.splice {α : Type} [DecidableEq α] (d : α) (m : Memory α) (i : Nat) (vs : List α) : Memory α :=
  m.filter (fun e => e.1 < i) ++ Memory.entries d i vs ++ m.filter (fun e => i + vs.length ≤ e.1)

/-- Write the element `v` at index `i`. -/
def Memory.write {α : Type} [DecidableEq α] (d : α) (m : Memory α) (i : Nat) (v : α) : Memory α :=
  Memory.splice d m i [v]

/-- The elements at the indices `i`, ..., `i+n-1`, in order. -/
def Memory.slice {α : Type} (d : α) (m : Memory α) (i n : Nat) : List α :=
  (List.range n).map fun k => Memory.read d m (i + k)

/-- The canonical form: strictly rising indices, no entry equal to `d`. -/
abbrev Memory.wf {α : Type} (d : α) (m : Memory α) : Prop :=
  (m.map Prod.fst).Pairwise (· < ·) ∧ ∀ e ∈ m, e.2 ≠ d

/-! ### The matrix (10_state.md R45, R46) -/

/-- `MAT[row][col]`, the cell `(col, row)`. -/
def matRead (m : Matrix) (col row : Nat) : Cell :=
  Memory.read .unset (Memory.read [] m row) col

/-- `MAT[row][col] <- v`. -/
def matWrite (m : Matrix) (col row : Nat) (v : Cell) : Matrix :=
  Memory.write [] m row (Memory.write .unset (Memory.read [] m row) col v)

/-- The canonical form of the matrix: its rows are, and so is each row. -/
abbrev matWf (m : Matrix) : Prop :=
  Memory.wf [] m ∧ ∀ e ∈ m, Memory.wf Cell.unset e.2

/-! ### Scalar registers (10_state.md R22) -/

/-- `x[i]`. -/
def State.getX (s : State) (i : XReg) : Word := s.x[i.val]

/-- `x[i] <- v`. -/
def State.setX (s : State) (i : XReg) (v : Word) : State := { s with x := s.x.set i.val v }

/-! ### Polynomial registers (10_state.md R24, R25) -/

/-- The document's Term (10_state.md R25); `LG` is a natural because `multiply_by_monomial` takes a log form that is not
cut to 8 bits (41_polynomial_engine.md R144). -/
structure Term where
  xe : Nat
  lg : Nat
  fv : Byte
deriving DecidableEq, Repr

/-- A term word as a term: `XE` 31:16, `LG` 15:8, `FV` 7:0 (10_state.md R25). -/
def Term.ofWord (w : Word) : Term :=
  { xe := (w.extractLsb' 16 16).toNat, lg := (w.extractLsb' 8 8).toNat, fv := w.extractLsb' 0 8 }

/-- The term word of a term (10_state.md R25). -/
def Term.toWord (t : Term) : Word :=
  BitVec.ofNat 16 t.xe ++ BitVec.ofNat 8 t.lg ++ t.fv

/-- The register `p[i]`. -/
def State.getPoly (s : State) (i : PReg) : PolyReg := s.p[i.val]

/-- The polynomial value of a register: its first `PLEN` terms (10_state.md R24). -/
def PolyReg.value (r : PolyReg) : List Term :=
  (Memory.slice 0#32 r.terms 0 r.len).map Term.ofWord

/-- `p[i]` as a value (00_scope.md R10). -/
def State.poly (s : State) (i : PReg) : List Term := (s.getPoly i).value

/-- `p[i] <- ts`: the length and the first terms; terms at and beyond the length keep their words (00_scope.md R10). -/
def State.setPoly (s : State) (i : PReg) (ts : List Term) : State :=
  { s with p := s.p.set i.val { len := ts.length
                                terms := Memory.splice 0#32 (s.getPoly i).terms 0 (ts.map Term.toWord) } }

/-! ### Buffers (10_state.md R41 to R44; 20_memory.md R65) -/

/-- `DIN[0..DINLEN)`. -/
def State.dinData (s : State) : List Byte := Memory.slice 0#8 s.din 0 s.dinlen

/-- `CW[0..CWLEN)`. -/
def State.cwData (s : State) : List Byte := Memory.slice 0#8 s.cw 0 s.cwlen

/-- `BITS[0..BITLEN)`. -/
def State.bitData (s : State) : List Bool := Memory.slice false s.bits 0 s.bitlen

/-- `CW[0..n) <- vs`, `CWLEN <- n`, the rest kept (20_memory.md R65). -/
def State.setCw (s : State) (vs : List Byte) : State :=
  { s with cwlen := vs.length, cw := Memory.splice 0#8 s.cw 0 vs }

/-- `ECC[0..n) <- vs`, `ECCLEN <- n`, the rest kept (20_memory.md R65). -/
def State.setEcc (s : State) (vs : List Byte) : State :=
  { s with ecclen := vs.length, ecc := Memory.splice 0#8 s.ecc 0 vs }

/-- `BITS[0..n) <- vs`, `BITLEN <- n`, the rest kept (20_memory.md R65). -/
def State.setBits (s : State) (vs : List Bool) : State :=
  { s with bitlen := vs.length, bits := Memory.splice false s.bits 0 vs }

/-! ### `SYM` and the matrix as state -/

/-- `SYM.VER <- v; SYM.LVL <- l` (10_state.md R35). -/
def State.setVersionLevel (s : State) (v : Nat) (l : Level) : State :=
  { s with sym := { s.sym with ver := BitVec.ofNat 6 v, lvl := l } }

/-- `MAT <- m; MATSIZE <- n; STATUS.PHASE <- ph`. -/
def State.setMatrix (s : State) (m : Matrix) (n : Nat) (ph : Phase) : State :=
  { s with mat := m, matsize := n, phase := ph }

/-! ### How a command ends (60_exceptions.md R238) -/

/-- A command completes: `STATUS.ERR <- 0; FINFO <- 0`. -/
def State.complete (s : State) : State := { s with err := .ok, finfo := {} }

/-- A command raises an error: `STATUS.ERR` and `FINFO` report it, `STATUS.FATAL` is set by a fatal one; nothing else
changes. -/
def State.report (s : State) (e : CmdError) : State :=
  { s with err := errorCode e, finfo := errorInfo e, fatal := s.fatal || errorFatal e }

/-- A command as one transaction (60_exceptions.md R238, R239): refused without any effect while `STATUS.FATAL` is 1 (R39,
R248); otherwise its pseudocode runs on the state before, and either all of its writes take effect or none. -/
def command (body : State → Except CmdError State) (s : State) : Host.Outcome State Fault Refusal :=
  .next (if s.fatal then s else
    match body s with
    | .ok t => t.complete
    | .error e => s.report e)

end Sys2Proof.Machine
end

