-- ==== Sys2Proof/Machine/Operands.lean ====
section
/-! DEFINITION. The operand forms of the commands and their range checks (30_encoding.md R112, 60_exceptions.md R244,
R245). Every scalar operand is a whole 32-bit register, every polynomial operand a polynomial register, every buffer
operand implicit; there is no address operand (20_memory.md R60). A check that fails raises the error its rule names. -/

namespace Sys2Proof.Machine

/-- A scalar operand as the natural it holds (00_scope.md R10). -/
def scalarOperand (s : State) (r : XReg) : Nat := (s.getX r).toNat

/-- `raise` unless the condition holds. -/
def check (ok : Bool) (e : CmdError) : Except CmdError Unit :=
  if ok then .ok () else .error e

/-- A field value 0..255, else `BadOperand(1)` (40_field_arithmetic.md R135). -/
def fieldOperand (s : State) (r : XReg) : Except CmdError Byte :=
  if scalarOperand s r > 255 then .error (.badOperand 1) else .ok (BitVec.ofNat 8 (scalarOperand s r))

/-- The `XE` fields are strictly descending (10_state.md R26, 41_polynomial_engine.md R141). -/
def wellFormedTerms (ts : List Term) : Bool :=
  match ts with
  | a :: b :: rest => a.xe > b.xe && wellFormedTerms (b :: rest)
  | _ => true

/-- A source polynomial register, well formed, else `BadOperand(2)` (41_polynomial_engine.md R141). -/
def polyOperand (s : State) (i : PReg) : Except CmdError (List Term) :=
  if wellFormedTerms (s.poly i) then .ok (s.poly i) else .error (.badOperand 2)

/-- A degree 1..254, else `BadOperand(3)` (42_generator_builder.md R151, 43_rs_encoder.md R156). -/
def degreeOperand (s : State) (r : XReg) : Except CmdError Nat :=
  if scalarOperand s r < 1 ∨ scalarOperand s r > 254 then .error (.badOperand 3) else .ok (scalarOperand s r)

/-- A minimum version 1..40, else `BadOperand(5)` (44_message_encoder.md R166). -/
def versionOperand (s : State) (r : XReg) : Except CmdError Nat :=
  if scalarOperand s r < 1 ∨ scalarOperand s r > 40 then .error (.badOperand 5) else .ok (scalarOperand s r)

/-- A level code 0..3, else `BadOperand(6)` (44_message_encoder.md R166, 45_bch_metadata.md R187). -/
def levelOperand (s : State) (r : XReg) : Except CmdError Level :=
  match levelOfCode (scalarOperand s r) with
  | some l => .ok l
  | none => .error (.badOperand 6)

/-- The chosen version, else `BadOperand(7)` (44_message_encoder.md R168, R172, 46_matrix_patterns.md R197). -/
def chosenVersion (s : State) : Except CmdError Nat :=
  if s.sym.ver = 0#6 then .error (.badOperand 7) else .ok s.sym.ver.toNat

/-- A mask id 0..7, else `BadOperand(10)` (45_bch_metadata.md R187). -/
def maskOperand (s : State) (r : XReg) : Except CmdError Nat :=
  if scalarOperand s r > 7 then .error (.badOperand 10) else .ok (scalarOperand s r)

/-- A version value 0..63, else `BadOperand(11)` (45_bch_metadata.md R189). -/
def versionValueOperand (s : State) (r : XReg) : Except CmdError Nat :=
  if scalarOperand s r > 63 then .error (.badOperand 11) else .ok (scalarOperand s r)

/-- The phase a command needs, else `BadPhase(what)` (60_exceptions.md R245). -/
def needPhase (s : State) (ph : Phase) (what : Nat) : Except CmdError Unit :=
  check (s.phase = ph) (.badPhase what)

end Sys2Proof.Machine
end

