-- ==== Sys2Proof/Machine/Tables.lean ====
section
/-! DEFINITION. The static tables: the queries of `T` with what counts as undefined (21_static_tables.md R91 to R98,
60_exceptions.md R242), the standard instance of `T` (R102 to R105) and the configuration of the machine `exec` runs, the
spec's defaults (92_eei_decisions.md section 1; log 1, log 2). UNVERIFIED, as the spec marks them: the values of the
standard instance come from general knowledge of the QR standard, not from the source (93_implementation_defined.md
section 2), but for `T.R` and mask predicate 0. -/

namespace Sys2Proof.Machine

/-! ### Queries (21_static_tables.md R91) -/

/-- The total of data codewords, `D` (21_static_tables.md R93). -/
def dataCodewords (t : EcEntry) : Nat := t.b1 * t.d1 + t.b2 * t.d2

/-- The number of blocks (44_message_encoder.md R172). -/
def blockCount (t : EcEntry) : Nat := t.b1 + t.b2

/-- The total of codewords (21_static_tables.md R93). -/
def totalCodewords (t : EcEntry) : Nat := t.b1 * (t.d1 + t.e) + t.b2 * (t.d2 + t.e)

/-- The remainder-bit count of a version, a count above 7 counting as undefined (21_static_tables.md R98). -/
def rembitsOf (c : Config) (v : Nat) : Option Nat :=
  (c.T.rembits v).filter (· ≤ 7)

/-- The values of `T.ec` that do not count as undefined (21_static_tables.md R93). The last condition of R93 needs
`T.rembits(version)`; where that is itself undefined it is taken as 0, so that the hole is reported by the query of
`T.rembits` (48_composite_commands.md R230; log 8). -/
def ecValid (c : Config) (v : Nat) (t : EcEntry) : Bool :=
  1 ≤ t.e && t.e ≤ 254 && 1 ≤ t.b1 && 1 ≤ t.d1 && (t.b2 = 0 || 1 ≤ t.d2) && dataCodewords t ≤ 4096 &&
    8 * totalCodewords t + (rembitsOf c v).getD 0 ≤ 32768

/-- The query `T.ec(v, l)` (21_static_tables.md R93; table code 1, 60_exceptions.md R242). -/
def queryEc (c : Config) (v : Nat) (l : Level) : Except CmdError EcEntry :=
  match (c.T.ec v l).filter (ecValid c v) with
  | some t => .ok t
  | none => .error (.malformedLookup 1 v l)

/-- The query `T.lenbits(Byte, v)`; 0 or above 16 counts as undefined (21_static_tables.md R94; table code 2). -/
def queryLenbits (c : Config) (v : Nat) : Except CmdError Nat :=
  match (c.T.lenbits v).filter (fun n => 1 ≤ n && n ≤ 16) with
  | some n => .ok n
  | none => .error (.malformedLookup 2 v .L)

/-- The query `T.rembits(v)` (21_static_tables.md R98; table code 3). -/
def queryRembits (c : Config) (v : Nat) : Except CmdError Nat :=
  match rembitsOf c v with
  | some n => .ok n
  | none => .error (.malformedLookup 3 v .L)

/-- The query `T.align(v)` (21_static_tables.md R95; table code 4). -/
def queryAlign (c : Config) (v : Nat) : Except CmdError (List Nat) :=
  match c.T.align v with
  | some ls => .ok ls
  | none => .error (.malformedLookup 4 v .L)

/-! ### The standard instance of `T` (21_static_tables.md section 2) -/

/-- One version's row of the table of R105: the entries of levels L, M, Q, H. -/
structure EcRow where
  l : EcEntry
  m : EcEntry
  q : EcEntry
  h : EcEntry
deriving DecidableEq, Repr

/-- The entry of a level in a row. -/
def EcRow.entry (r : EcRow) : Level → EcEntry
  | .L => r.l
  | .M => r.m
  | .Q => r.q
  | .H => r.h

/-- `T.ec`, versions 1 to 10 (21_static_tables.md R105): `e, b1, d1, b2, d2` for L, M, Q, H. -/
def ecRows01 : List EcRow :=
  [⟨⟨7, 1, 19, 0, 0⟩, ⟨10, 1, 16, 0, 0⟩, ⟨13, 1, 13, 0, 0⟩, ⟨17, 1, 9, 0, 0⟩⟩,
   ⟨⟨10, 1, 34, 0, 0⟩, ⟨16, 1, 28, 0, 0⟩, ⟨22, 1, 22, 0, 0⟩, ⟨28, 1, 16, 0, 0⟩⟩,
   ⟨⟨15, 1, 55, 0, 0⟩, ⟨26, 1, 44, 0, 0⟩, ⟨18, 2, 17, 0, 0⟩, ⟨22, 2, 13, 0, 0⟩⟩,
   ⟨⟨20, 1, 80, 0, 0⟩, ⟨18, 2, 32, 0, 0⟩, ⟨26, 2, 24, 0, 0⟩, ⟨16, 4, 9, 0, 0⟩⟩,
   ⟨⟨26, 1, 108, 0, 0⟩, ⟨24, 2, 43, 0, 0⟩, ⟨18, 2, 15, 2, 16⟩, ⟨22, 2, 11, 2, 12⟩⟩,
   ⟨⟨18, 2, 68, 0, 0⟩, ⟨16, 4, 27, 0, 0⟩, ⟨24, 4, 19, 0, 0⟩, ⟨28, 4, 15, 0, 0⟩⟩,
   ⟨⟨20, 2, 78, 0, 0⟩, ⟨18, 4, 31, 0, 0⟩, ⟨18, 2, 14, 4, 15⟩, ⟨26, 4, 13, 1, 14⟩⟩,
   ⟨⟨24, 2, 97, 0, 0⟩, ⟨22, 2, 38, 2, 39⟩, ⟨22, 4, 18, 2, 19⟩, ⟨26, 4, 14, 2, 15⟩⟩,
   ⟨⟨30, 2, 116, 0, 0⟩, ⟨22, 3, 36, 2, 37⟩, ⟨20, 4, 16, 4, 17⟩, ⟨24, 4, 12, 4, 13⟩⟩,
   ⟨⟨18, 2, 68, 2, 69⟩, ⟨26, 4, 43, 1, 44⟩, ⟨24, 6, 19, 2, 20⟩, ⟨28, 6, 15, 2, 16⟩⟩]

/-- `T.ec`, versions 11 to 20 (21_static_tables.md R105): `e, b1, d1, b2, d2` for L, M, Q, H. -/
def ecRows11 : List EcRow :=
  [⟨⟨20, 4, 81, 0, 0⟩, ⟨30, 1, 50, 4, 51⟩, ⟨28, 4, 22, 4, 23⟩, ⟨24, 3, 12, 8, 13⟩⟩,
   ⟨⟨24, 2, 92, 2, 93⟩, ⟨22, 6, 36, 2, 37⟩, ⟨26, 4, 20, 6, 21⟩, ⟨28, 7, 14, 4, 15⟩⟩,
   ⟨⟨26, 4, 107, 0, 0⟩, ⟨22, 8, 37, 1, 38⟩, ⟨24, 8, 20, 4, 21⟩, ⟨22, 12, 11, 4, 12⟩⟩,
   ⟨⟨30, 3, 115, 1, 116⟩, ⟨24, 4, 40, 5, 41⟩, ⟨20, 11, 16, 5, 17⟩, ⟨24, 11, 12, 5, 13⟩⟩,
   ⟨⟨22, 5, 87, 1, 88⟩, ⟨24, 5, 41, 5, 42⟩, ⟨30, 5, 24, 7, 25⟩, ⟨24, 11, 12, 7, 13⟩⟩,
   ⟨⟨24, 5, 98, 1, 99⟩, ⟨28, 7, 45, 3, 46⟩, ⟨24, 15, 19, 2, 20⟩, ⟨30, 3, 15, 13, 16⟩⟩,
   ⟨⟨28, 1, 107, 5, 108⟩, ⟨28, 10, 46, 1, 47⟩, ⟨28, 1, 22, 15, 23⟩, ⟨28, 2, 14, 17, 15⟩⟩,
   ⟨⟨30, 5, 120, 1, 121⟩, ⟨26, 9, 43, 4, 44⟩, ⟨28, 17, 22, 1, 23⟩, ⟨28, 2, 14, 19, 15⟩⟩,
   ⟨⟨28, 3, 113, 4, 114⟩, ⟨26, 3, 44, 11, 45⟩, ⟨26, 17, 21, 4, 22⟩, ⟨26, 9, 13, 16, 14⟩⟩,
   ⟨⟨28, 3, 107, 5, 108⟩, ⟨26, 3, 41, 13, 42⟩, ⟨30, 15, 24, 5, 25⟩, ⟨28, 15, 15, 10, 16⟩⟩]

/-- `T.ec`, versions 21 to 30 (21_static_tables.md R105): `e, b1, d1, b2, d2` for L, M, Q, H. -/
def ecRows21 : List EcRow :=
  [⟨⟨28, 4, 116, 4, 117⟩, ⟨26, 17, 42, 0, 0⟩, ⟨28, 17, 22, 6, 23⟩, ⟨30, 19, 16, 6, 17⟩⟩,
   ⟨⟨28, 2, 111, 7, 112⟩, ⟨28, 17, 46, 0, 0⟩, ⟨30, 7, 24, 16, 25⟩, ⟨24, 34, 13, 0, 0⟩⟩,
   ⟨⟨30, 4, 121, 5, 122⟩, ⟨28, 4, 47, 14, 48⟩, ⟨30, 11, 24, 14, 25⟩, ⟨30, 16, 15, 14, 16⟩⟩,
   ⟨⟨30, 6, 117, 4, 118⟩, ⟨28, 6, 45, 14, 46⟩, ⟨30, 11, 24, 16, 25⟩, ⟨30, 30, 16, 2, 17⟩⟩,
   ⟨⟨26, 8, 106, 4, 107⟩, ⟨28, 8, 47, 13, 48⟩, ⟨30, 7, 24, 22, 25⟩, ⟨30, 22, 15, 13, 16⟩⟩,
   ⟨⟨28, 10, 114, 2, 115⟩, ⟨28, 19, 46, 4, 47⟩, ⟨28, 28, 22, 6, 23⟩, ⟨30, 33, 16, 4, 17⟩⟩,
   ⟨⟨30, 8, 122, 4, 123⟩, ⟨28, 22, 45, 3, 46⟩, ⟨30, 8, 23, 26, 24⟩, ⟨30, 12, 15, 28, 16⟩⟩,
   ⟨⟨30, 3, 117, 10, 118⟩, ⟨28, 3, 45, 23, 46⟩, ⟨30, 4, 24, 31, 25⟩, ⟨30, 11, 15, 31, 16⟩⟩,
   ⟨⟨30, 7, 116, 7, 117⟩, ⟨28, 21, 45, 7, 46⟩, ⟨30, 1, 23, 37, 24⟩, ⟨30, 19, 15, 26, 16⟩⟩,
   ⟨⟨30, 5, 115, 10, 116⟩, ⟨28, 19, 47, 10, 48⟩, ⟨30, 15, 24, 25, 25⟩, ⟨30, 23, 15, 25, 16⟩⟩]

/-- `T.ec`, versions 31 to 40 (21_static_tables.md R105): `e, b1, d1, b2, d2` for L, M, Q, H. -/
def ecRows31 : List EcRow :=
  [⟨⟨30, 13, 115, 3, 116⟩, ⟨28, 2, 46, 29, 47⟩, ⟨30, 42, 24, 1, 25⟩, ⟨30, 23, 15, 28, 16⟩⟩,
   ⟨⟨30, 17, 115, 0, 0⟩, ⟨28, 10, 46, 23, 47⟩, ⟨30, 10, 24, 35, 25⟩, ⟨30, 19, 15, 35, 16⟩⟩,
   ⟨⟨30, 17, 115, 1, 116⟩, ⟨28, 14, 46, 21, 47⟩, ⟨30, 29, 24, 19, 25⟩, ⟨30, 11, 15, 46, 16⟩⟩,
   ⟨⟨30, 13, 115, 6, 116⟩, ⟨28, 14, 46, 23, 47⟩, ⟨30, 44, 24, 7, 25⟩, ⟨30, 59, 16, 1, 17⟩⟩,
   ⟨⟨30, 12, 121, 7, 122⟩, ⟨28, 12, 47, 26, 48⟩, ⟨30, 39, 24, 14, 25⟩, ⟨30, 22, 15, 41, 16⟩⟩,
   ⟨⟨30, 6, 121, 14, 122⟩, ⟨28, 6, 47, 34, 48⟩, ⟨30, 46, 24, 10, 25⟩, ⟨30, 2, 15, 64, 16⟩⟩,
   ⟨⟨30, 17, 122, 4, 123⟩, ⟨28, 29, 46, 14, 47⟩, ⟨30, 49, 24, 10, 25⟩, ⟨30, 24, 15, 46, 16⟩⟩,
   ⟨⟨30, 4, 122, 18, 123⟩, ⟨28, 13, 46, 32, 47⟩, ⟨30, 48, 24, 14, 25⟩, ⟨30, 42, 15, 32, 16⟩⟩,
   ⟨⟨30, 20, 117, 4, 118⟩, ⟨28, 40, 47, 7, 48⟩, ⟨30, 43, 24, 22, 25⟩, ⟨30, 10, 15, 67, 16⟩⟩,
   ⟨⟨30, 19, 118, 6, 119⟩, ⟨28, 18, 47, 31, 48⟩, ⟨30, 34, 24, 34, 25⟩, ⟨30, 20, 15, 61, 16⟩⟩]

/-- `T.ec` of the standard instance (21_static_tables.md R105); index 0 is version 1. -/
def ecRows : List EcRow := ecRows01 ++ ecRows11 ++ ecRows21 ++ ecRows31

/-- `T.rembits` of the standard instance (21_static_tables.md R104); index 0 is version 1. -/
def rembitsRows : List Nat :=
  [0, 7, 7, 7, 7, 7, 0, 0, 0, 0, 0, 0, 0, 3, 3, 3, 3, 3, 3, 3,
   4, 4, 4, 4, 4, 4, 4, 3, 3, 3, 3, 3, 3, 3, 0, 0, 0, 0, 0, 0]

/-- `T.align` of the standard instance (21_static_tables.md R104); index 0 is version 1. -/
def alignRows : List (List Nat) :=
  [[], [6, 18], [6, 22], [6, 26],
   [6, 30], [6, 34], [6, 22, 38], [6, 24, 42],
   [6, 26, 46], [6, 28, 50], [6, 30, 54], [6, 32, 58],
   [6, 34, 62], [6, 26, 46, 66], [6, 26, 48, 70], [6, 26, 50, 74],
   [6, 30, 54, 78], [6, 30, 56, 82], [6, 30, 58, 86], [6, 34, 62, 90],
   [6, 28, 50, 72, 94], [6, 26, 50, 74, 98], [6, 30, 54, 78, 102], [6, 28, 54, 80, 106],
   [6, 32, 58, 84, 110], [6, 30, 58, 86, 114], [6, 34, 62, 90, 118], [6, 26, 50, 74, 98, 122],
   [6, 30, 54, 78, 102, 126], [6, 26, 52, 78, 104, 130], [6, 30, 56, 82, 108, 134], [6, 34, 60, 86, 112, 138],
   [6, 30, 58, 86, 114, 142], [6, 34, 62, 90, 118, 146], [6, 30, 54, 78, 102, 126, 150], [6, 24, 50, 76, 102, 128, 154],
   [6, 28, 54, 80, 106, 132, 158], [6, 32, 58, 84, 110, 136, 162], [6, 26, 54, 82, 110, 138, 166], [6, 30, 58, 86, 114, 142, 170]]

/-- The total number of codewords of a version (21_static_tables.md R104); index 0 is version 1. Used by no rule; it checks
the transcription of `ecRows`. -/
def totalCodewordRows : List Nat :=
  [26, 44, 70, 100, 134, 172, 196, 242, 292, 346,
   404, 466, 532, 581, 655, 733, 815, 901, 991, 1085,
   1156, 1258, 1364, 1474, 1588, 1706, 1828, 1921, 2051, 2185,
   2323, 2465, 2611, 2761, 2876, 3034, 3196, 3362, 3532, 3706]

/-- The row of a version 1..40 in a per-version list; none for any other key. -/
def versionRow {α : Type} (rows : List α) (v : Nat) : Option α :=
  if v = 0 then none else rows[v - 1]?

/-- The mask predicates of the standard instance (21_static_tables.md R103), with column `c` and row `r`. -/
def standardMaskpred (id : BitVec 3) (c r : Nat) : Bool :=
  match id.toNat with
  | 0 => (c + r) % 2 = 0
  | 1 => r % 2 = 0
  | 2 => c % 3 = 0
  | 3 => (c + r) % 3 = 0
  | 4 => (r / 2 + c / 3) % 2 = 0
  | 5 => (c * r) % 2 + (c * r) % 3 = 0
  | 6 => ((c * r) % 2 + (c * r) % 3) % 2 = 0
  | _ => ((c + r) % 2 + (c * r) % 3) % 2 = 0

/-- `T.lvlbits` of the standard instance (21_static_tables.md R102). -/
def standardLvlbits : Level → BitVec 2
  | .L => 0b01#2
  | .M => 0b00#2
  | .Q => 0b11#2
  | .H => 0b10#2

/-- `T.lenbits(Byte, v)` of the standard instance (21_static_tables.md R102). -/
def standardLenbits (v : Nat) : Option Nat :=
  if 1 ≤ v ∧ v ≤ 9 then some 8 else if 10 ≤ v ∧ v ≤ 40 then some 16 else none

/-- The standard instance of `T` (21_static_tables.md R102 to R105). -/
def standardTables : Tables where
  ec v l := (versionRow ecRows v).map (fun r => r.entry l)
  lenbits := standardLenbits
  align := versionRow alignRows
  modeind := 0b0100#4
  pad0 := 0xEC#8
  pad1 := 0x11#8
  rembits := versionRow rembitsRows
  rembitval := false
  fmtgen := 0x537#11
  vergen := 0x1F25#13
  fmtmask := 0x5412#15
  lvlbits := standardLvlbits
  maskpred := standardMaskpred

/-- The configuration of the machine `exec` runs: the standard instance of `T` and the default parameters
(00_scope.md R6, 92_eei_decisions.md section 1). DESIGN CHOICE, unsafe for a block with another configuration: log 1, log 2,
log 3. -/
def config : Config where
  T := standardTables
  alignMinVersion := 2
  maskFlipWhen := true
  margin := 4
  divShortThreshold := 19

end Sys2Proof.Machine
end

