-- ==== Sys2Proof/Machine/Field.lean ====
section
/-! DEFINITION. Field Arithmetic (40_field_arithmetic.md): GF(256) in value form and log form, the tables `EXP` and `LOG`
(10_state.md R47), and the commands `GFEXP` and `GFLOG`. Addition is the exclusive or of bytes (R130); every product is
formed by adding log forms and exponentiating (R136). -/

namespace Sys2Proof.Machine

/-- `exponent_galois` by the document's recursion, for an exponent already reduced modulo 255
(40_field_arithmetic.md R131). The block does not compute it so (R137); `gfexp` is the table, and
`Laws.gfexp_eq_recursion` says the two agree. -/
def gfexpRecursion : Nat → Nat
  | 0 => 1
  | e + 1 =>
    if e + 1 < 8 then 2 ^ (e + 1)
    else if e + 1 = 8 then (2 ^ 8 ^^^ Config.reductionConstant) % 256
    else
      let d := 2 * gfexpRecursion e
      if d ≥ 255 then (d ^^^ Config.reductionConstant) % 256 else d

/-- `EXP` (10_state.md R47), packed: entry `i` in bits `8*i+7 : 8*i`. The entries are those of 95_test_vectors.md 2.1. -/
def expTable : Nat :=
  0x18e47add86c361b83cfe9fa7db0582c160b8bcbebfbf3f7f5f47a3d90482412098a45ac562b9bc3eff9f279b259a251a653a7dde070381c0e078dc86432198241ae57a5dc6e3795c46231964babdbe3fff1f67bb3d7e5fc7e3f91c663bfd1e673b7d5e472399249aa55a452299a4da8542a158442219e4fa9da6db85c2e1785cc663397c5ec763b93c7edf87c3e1f81ce67bdd068341a0d884422118643afd9e271b65ba3dfe1fe7fb1d66bbbd3e7fdf0783c1e0f89ca65bc5e2f99c261be5fa1de6fb9d269ba5da05028140a058c46239fc1ee77b5d46a35944a259c4e279dc06030180c06038fc9ea75b45a2d984c261387cde8743a1d8040201008040201

/-- `LOG` (10_state.md R47), packed the same way; entry 0 is 0 (40_field_arithmetic.md R133). -/
def logTable : Nat :=
  0xaf5850a8eaf4d674e8ade7e6e9d5ae4fd72c757aeb16f50b51a0a99cb05f59cb5a3eccbbb18660fbaa559d29523ba16cf66f0c7fec4917c476a47bb7d8432d1fa2416d4753393c849e5d2a14abd356f261befcdcb2978790cdcfbc955bd13f372e892023d99244117cb4b8267799a5e318fec531edde4a670d63808cf7c0700757a7f373ace5d44e2b79150a9f9b5eca3dba85fa54283a6b6e7e48c3a3b6421e404638835c13d2f1bddb968fce94d03688229110b32598e2fd30dd66628bbf06a672e44d78099ac9b9f9276a7dc2b51d458212f0da8e9335210f24e12f658a05714c08c8f869c11c81ef8d340ee064044bc7681bee33df03c61a320219010000

/-- Entry `i` of a packed table of bytes. -/
def tableByte (table i : Nat) : Byte := BitVec.ofNat 8 (table >>> (8 * i))

/-- `gfexp(e) = EXP[e mod 255]`, for any natural `e` (40_field_arithmetic.md R131, R137). -/
def gfexp (e : Nat) : Byte := tableByte expTable (e % 255)

/-- `gflog(v) = LOG[v]`; `gflog(0) = 0` (40_field_arithmetic.md R133, R137). -/
def gflog (v : Byte) : Nat := (tableByte logTable v.toNat).toNat

/-- `GFEXP` (40_field_arithmetic.md R134). -/
def gfexpBody (rd rs1 : XReg) (s : State) : Except CmdError State :=
  .ok (s.setX rd ((gfexp (scalarOperand s rs1)).setWidth 32))

/-- `GFLOG` (40_field_arithmetic.md R135). -/
def gflogBody (rd rs1 : XReg) (s : State) : Except CmdError State := do
  let v ← fieldOperand s rs1
  .ok (s.setX rd (BitVec.ofNat 32 (gflog v)))

/-- `gfexp xd, xs1` (40_field_arithmetic.md R134). -/
def execGfexp (rd rs1 : XReg) (s : State) : Host.Outcome State Fault Refusal := command (gfexpBody rd rs1) s

/-- `gflog xd, xs1` (40_field_arithmetic.md R135). -/
def execGflog (rd rs1 : XReg) (s : State) : Host.Outcome State Fault Refusal := command (gflogBody rd rs1) s

end Sys2Proof.Machine
end

