-- ==== Sys2Proof/Machine/Poly.lean ====
section
/-! DEFINITION. The Polynomial Engine (41_polynomial_engine.md): `multiply`, `multiply_by_monomial`, and the commands `PMUL`
and `PMULM`. The multiplier reads `XE` and `LG` of its operands and never their `FV` (R142); a term whose `LG` is 0
multiplies as the element 1, whatever its `FV` (R147). -/

namespace Sys2Proof.Machine

/-- Every term of `a` times every term of `b`: x-exponents add, and the field value is `gfexp` of the sum of the log forms
(41_polynomial_engine.md R142). -/
def products (a b : List Term) : List (Nat × Byte) :=
  a.flatMap fun s => b.map fun t => (s.xe + t.xe, gfexp (s.lg + t.lg))

/-- Insert a product into the map from x-exponents to field values, or combine it by exclusive or with the value there.
The map is kept by descending x-exponent (41_polynomial_engine.md R142). -/
def mergeProduct (xe : Nat) (fv : Byte) : List (Nat × Byte) → List (Nat × Byte)
  | [] => [(xe, fv)]
  | (k, w) :: acc =>
    if k < xe then (xe, fv) :: (k, w) :: acc
    else if k = xe then (k, w ^^^ fv) :: acc
    else (k, w) :: mergeProduct xe fv acc

/-- The map of all products; the order of insertion does not matter (41_polynomial_engine.md R142). -/
def accumulate (ps : List (Nat × Byte)) : List (Nat × Byte) :=
  ps.foldr (fun q acc => mergeProduct q.1 q.2 acc) []

/-- A term of the result: its log form recomputed from its value (41_polynomial_engine.md R142). -/
def renormalise (q : Nat × Byte) : Term := { xe := q.1, lg := gflog q.2, fv := q.2 }

/-- The terms of the product, by descending x-exponent, zero-valued ones included (41_polynomial_engine.md R142). -/
def productTerms (a b : List Term) : List Term := (accumulate (products a b)).map renormalise

/-- `multiply(a, b)` (41_polynomial_engine.md R142): `BufferOverflow(1)` for an x-exponent above 65535,
`BufferOverflow(2)` for more than 256 terms. -/
def multiply (a b : List Term) : Except CmdError (List Term) := do
  check ((products a b).all fun q => q.1 ≤ 65535) (.bufferOverflow 1)
  check ((productTerms a b).length ≤ 256) (.bufferOverflow 2)
  .ok (productTerms a b)

/-- `multiply_by_monomial(a, s)`: the product with the single term `(0, s, gfexp(s))`, its log form not cut to 8 bits
(41_polynomial_engine.md R144). -/
def multiplyByMonomial (a : List Term) (s : Nat) : List Term :=
  productTerms a [{ xe := 0, lg := s, fv := gfexp s }]

/-- `PMUL` (41_polynomial_engine.md R143, R146). -/
def pmulBody (pd pa pb : PReg) (s : State) : Except CmdError State := do
  let a ← polyOperand s pa
  let b ← polyOperand s pb
  let r ← multiply a b
  .ok (s.setPoly pd r)

/-- `PMULM` (41_polynomial_engine.md R145, R146). -/
def pmulmBody (pd pa : PReg) (rs1 : XReg) (s : State) : Except CmdError State := do
  let a ← polyOperand s pa
  .ok (s.setPoly pd (multiplyByMonomial a (scalarOperand s rs1)))

/-- `pmul pd, pa, pb` (41_polynomial_engine.md R143). -/
def execPmul (pd pa pb : PReg) (s : State) : Host.Outcome State Fault Refusal := command (pmulBody pd pa pb) s

/-- `pmulm pd, pa, xs1` (41_polynomial_engine.md R145). -/
def execPmulm (pd pa : PReg) (rs1 : XReg) (s : State) : Host.Outcome State Fault Refusal :=
  command (pmulmBody pd pa rs1) s

end Sys2Proof.Machine
end

