-- ==== Sys2Proof/Machine/Generator.lean ====
section
/-! DEFINITION. The Generator Builder (42_generator_builder.md): `generator_polynomial` and the command `RSGEN`. -/

namespace Sys2Proof.Machine

/-- The factor `x + α^i` (42_generator_builder.md R150). -/
def generatorFactor (i : Nat) : List Term :=
  [{ xe := 1, lg := 0, fv := 1#8 }, { xe := 0, lg := i, fv := gfexp i }]

/-- `generator_polynomial(n)` for `n >= 1`: from `x + α^0`, repeatedly multiplied by `x + α^i` for `i = 1..n-1`
(42_generator_builder.md R150). No `BufferOverflow` can arise for `n <= 254` (R151). -/
def generatorPolynomial (n : Nat) : List Term :=
  (List.range' 1 (n - 1)).foldl (fun g i => productTerms g (generatorFactor i)) (generatorFactor 0)

/-- `RSGEN` (42_generator_builder.md R151). -/
def rsgenBody (pd : PReg) (rs1 : XReg) (s : State) : Except CmdError State := do
  let n ← degreeOperand s rs1
  .ok (s.setPoly pd (generatorPolynomial n))

/-- `rsgen pd, xs1` (42_generator_builder.md R151). -/
def execRsgen (pd : PReg) (rs1 : XReg) (s : State) : Host.Outcome State Fault Refusal := command (rsgenBody pd rs1) s

end Sys2Proof.Machine
end

