-- ==== Sys2Proof/Machine/RsEncoder.lean ====
section
/-! DEFINITION. The RS Encoder (43_rs_encoder.md): `divide` by the iteration of R157, and the command `RSDIV`. The working
remainder is the list of its coefficients from the leading position down to `x^0`; stripping a leading zero lowers the
leading position by one, the document's "decrementing the aligned generator's degree". -/

namespace Sys2Proof.Machine

/-- Strip leading zero coefficients while the leading position is at least `r` (43_rs_encoder.md R157, R158). -/
def stripLeading (r : Nat) : List Byte → List Byte
  | [] => []
  | b :: rest => if r ≤ rest.length ∧ b = 0#8 then stripLeading r rest else b :: rest

/-- Exclusive-or the scaled generator into the leading coefficients of the remainder, term by term
(43_rs_encoder.md R157). -/
def xorLeading : List Byte → List Byte → List Byte
  | f :: fs, b :: bs => (b ^^^ f) :: xorLeading fs bs
  | [], bs => bs
  | _ :: _, [] => []

/-- One pass of the loop body of 43_rs_encoder.md R157 for the generator `g` of degree `r`: strip leading zeros; if the
leading position is below `r` there is nothing to cancel; otherwise scale the generator by the log form of the leading
coefficient and exclusive-or it in. -/
def dividePass (g : List Term) (r : Nat) (rem : List Byte) : List Byte :=
  match stripLeading r rem with
  | [] => []
  | lead :: rest =>
    if rest.length < r then lead :: rest
    else xorLeading ((multiplyByMonomial g (gflog lead)).map Term.fv) (lead :: rest)

/-- `n` passes of the loop body. -/
def dividePasses (g : List Term) (r : Nat) : Nat → List Byte → List Byte
  | 0, rem => rem
  | n + 1, rem => dividePasses g r n (dividePass g r rem)

/-- The first `r` elements of a list, zeros where it is shorter. -/
def fitTo (r : Nat) (vs : List Byte) : List Byte := (List.range r).map fun i => vs.getD i 0#8

/-- `divide(msg, r)` (43_rs_encoder.md R155, R157, R159). The loop makes at most `len(msg)` passes that cancel a term, and a
last one that only strips; a further pass changes nothing. A message shorter than `DIV_SHORT_THRESHOLD` gets one pass
more (R159) and, in a configuration that has one, the adjustment of 93_implementation_defined.md U2, the identity by
default (log 3). -/
def divide (c : Config) (msg : List Byte) (r : Nat) : List Byte :=
  let g := generatorPolynomial r
  let rem := dividePasses g r (msg.length + 1) (msg ++ List.replicate r 0#8)
  if msg.length < c.divShortThreshold then fitTo r (c.shortAdjust msg r (dividePass g r rem)) else rem

/-- `RSDIV` (43_rs_encoder.md R156). -/
def rsdivBody (c : Config) (rs1 : XReg) (s : State) : Except CmdError State := do
  let r ← degreeOperand s rs1
  check (1 ≤ s.cwlen) (.badOperand 4)
  .ok (s.setEcc (divide c s.cwData r))

/-- `rsdiv xs1` (43_rs_encoder.md R156). -/
def execRsdiv (rs1 : XReg) (s : State) : Host.Outcome State Fault Refusal := command (rsdivBody config rs1) s

end Sys2Proof.Machine
end

