-- ==== Sys2Proof/Machine/Message.lean ====
section
/-! DEFINITION. The Message Encoder (44_message_encoder.md): version and level selection, bitstream assembly, block split
and interleave, and the commands `MSEL`, `MASM` and `MINT`. Bits are most significant first everywhere (20_memory.md R67).
The meanings take the configuration as an argument; the commands use `config`. -/

namespace Sys2Proof.Machine

/-! ### Bit sequences (00_scope.md R9, 20_memory.md R67) -/

/-- `bits_N(v)`: the `N`-bit sequence of `v`, most significant bit first (00_scope.md R9). -/
def bitsOf (n v : Nat) : List Bool := (List.range n).map fun k => v.testBit (n - 1 - k)

/-- `byte(b)`: the byte of an 8-bit sequence, most significant bit first (00_scope.md R9). -/
def byteOf (bs : List Bool) : Byte :=
  BitVec.ofNat 8 (bs.foldl (fun acc b => 2 * acc + b.toNat) 0)

/-- The first `n` bytes of a bit sequence, eight consecutive bits each (20_memory.md R67). -/
def bytesOf : Nat → List Bool → List Byte
  | 0, _ => []
  | n + 1, bs => byteOf (bs.take 8) :: bytesOf n (bs.drop 8)

/-! ### Capacity and selection (44_message_encoder.md R166, R167) -/

/-- `fits` for a length field of `w` bits and `d` data codewords: the length can be written, and the mode indicator, the
length field, the data and the whole terminator go into the codewords (44_message_encoder.md R167). -/
def fitsIn (n w d : Nat) : Bool := n < 2 ^ w && 4 + w + 8 * n + 4 ≤ 8 * d

/-- `fits(n, v, l)`, which queries `T.ec(v, l)`, then `T.lenbits(Byte, v)` (44_message_encoder.md R166, R167, R169). -/
def fits (c : Config) (n v : Nat) (l : Level) : Except CmdError Bool := do
  let t ← queryEc c v l
  let w ← queryLenbits c v
  .ok (fitsIn n w (dataCodewords t))

/-- `LEVEL_SEARCH_ORDER` (00_scope.md R6, 44_message_encoder.md R166): not the order of strength. -/
def levelSearchOrder : List Level := [.L, .Q, .M, .H]

/-- The (level, version) pairs of the search, in its order: every level of the search order from the minimum level on, and
for each all versions from the minimum version to 40 (44_message_encoder.md R166). -/
def searchPairs (mv : Nat) (ml : Level) : List (Level × Nat) :=
  (levelSearchOrder.drop (levelSearchOrder.idxOf ml)).flatMap fun l =>
    (List.range' mv (41 - mv)).map fun v => (l, v)

/-- The first pair that fits, else `CapacityExceeded` (44_message_encoder.md R166). -/
def selectFrom (c : Config) (n : Nat) : List (Level × Nat) → Except CmdError (Level × Nat)
  | [] => .error .capacityExceeded
  | (l, v) :: rest => do
    let ok ← fits c n v l
    if ok then .ok (l, v) else selectFrom c n rest

/-- `MSEL` (44_message_encoder.md R166). -/
def mselBody (c : Config) (rs1 rs2 : XReg) (s : State) : Except CmdError State := do
  needPhase s .idle 1
  let mv ← versionOperand s rs1
  let ml ← levelOperand s rs2
  let (l, v) ← selectFrom c s.dinlen (searchPairs mv ml)
  .ok (s.setVersionLevel v l)

/-! ### Assembly (44_message_encoder.md R168, R170, R171) -/

/-- The stream before pad bytes: mode indicator, length field, data, terminator (44_message_encoder.md R168). -/
def headerAndData (c : Config) (w : Nat) (data : List Byte) : List Bool :=
  bitsOf 4 c.T.modeind.toNat ++ bitsOf w data.length ++ data.flatMap (fun b => bitsOf 8 b.toNat) ++
    [false, false, false, false]

/-- Zero bits to the next multiple of 8 (44_message_encoder.md R171). -/
def fillByte (bs : List Bool) : List Bool := bs ++ List.replicate ((8 - bs.length % 8) % 8) false

/-- `n` pad bytes, `T.pad[0]` first, alternating (44_message_encoder.md R170). -/
def padBytes (c : Config) (n : Nat) : List Byte :=
  (List.range n).map fun k => if k % 2 = 0 then c.T.pad0 else c.T.pad1

/-- The `d` data codewords of the data (44_message_encoder.md R168): the filled stream is a whole number of bytes, and each
pad byte adds one until there are `d`. -/
def assemble (c : Config) (w d : Nat) (data : List Byte) : List Byte :=
  let bs := fillByte (headerAndData c w data)
  bytesOf (bs.length / 8) bs ++ padBytes c (d - bs.length / 8)

/-- `MASM` (44_message_encoder.md R168). -/
def masmBody (c : Config) (s : State) : Except CmdError State := do
  let v ← chosenVersion s
  let t ← queryEc c v s.sym.lvl
  let w ← queryLenbits c v
  check (fitsIn s.dinlen w (dataCodewords t)) (.badOperand 8)
  .ok (s.setCw (assemble c w (dataCodewords t) s.dinData))

/-! ### Block split and interleave (44_message_encoder.md R172 to R175) -/

/-- Block `j` of the codeword stream: the first group's blocks first (44_message_encoder.md R172, R173). -/
def blockOf (t : EcEntry) (cw : List Byte) (j : Nat) : List Byte :=
  if j < t.b1 then (cw.drop (j * t.d1)).take t.d1
  else (cw.drop (t.b1 * t.d1 + (j - t.b1) * t.d2)).take t.d2

/-- All blocks, in block order (44_message_encoder.md R173). -/
def blocksOf (t : EcEntry) (cw : List Byte) : List (List Byte) :=
  (List.range (blockCount t)).map (blockOf t cw)

/-- Index 0 of every block, then index 1, and so on for `n` indices; a block that has no codeword at an index is passed
over there (44_message_encoder.md R174). -/
def interleave (n : Nat) (blocks : List (List Byte)) : List Byte :=
  (List.range n).flatMap fun i => blocks.filterMap fun b => b[i]?

/-- `dmax` (44_message_encoder.md R172). -/
def longestBlock (t : EcEntry) : Nat := if t.b2 = 0 then t.d1 else max t.d1 t.d2

/-- The interleaved codewords: the data region, then the EC codewords of every block (44_message_encoder.md R172, R174). -/
def interleavedCodewords (c : Config) (t : EcEntry) (cw : List Byte) : List Byte :=
  interleave (longestBlock t) (blocksOf t cw) ++
    interleave t.e ((blocksOf t cw).map fun b => divide c b t.e)

/-- The final bitstream: the codewords' bits, then `q` remainder bits (44_message_encoder.md R172, R175). -/
def finalBits (c : Config) (q : Nat) (out : List Byte) : List Bool :=
  out.flatMap (fun b => bitsOf 8 b.toNat) ++ List.replicate q c.T.rembitval

/-- `MINT` (44_message_encoder.md R172). -/
def mintBody (c : Config) (s : State) : Except CmdError State := do
  let v ← chosenVersion s
  let t ← queryEc c v s.sym.lvl
  check (s.cwlen = dataCodewords t) (.badOperand 9)
  let q ← queryRembits c v
  .ok (s.setBits (finalBits c q (interleavedCodewords c t s.cwData)))

/-- `msel xs1, xs2` (44_message_encoder.md R166). -/
def execMsel (rs1 rs2 : XReg) (s : State) : Host.Outcome State Fault Refusal := command (mselBody config rs1 rs2) s

/-- `masm` (44_message_encoder.md R168). -/
def execMasm (s : State) : Host.Outcome State Fault Refusal := command (masmBody config) s

/-- `mint` (44_message_encoder.md R172). -/
def execMint (s : State) : Host.Outcome State Fault Refusal := command (mintBody config) s

end Sys2Proof.Machine
end

