-- ==== Sys2Proof/Machine/Bch.lean ====
section
/-! DEFINITION. The BCH metadata strings (45_bch_metadata.md) and the commands `BCHFMT` and `BCHVER`. -/

namespace Sys2Proof.Machine

/-- The passes of 45_bch_metadata.md R185 for the bits `m+j-1` down to `m`: a 1 bit is cleared by the generator aligned
to it. -/
def bchReduce (g m : Nat) : Nat → Nat → Nat
  | 0, v => v
  | j + 1, v => bchReduce g m j (if v.testBit (m + j) then v ^^^ (g <<< j) else v)

/-- `bch(d, k, g, m)` (45_bch_metadata.md R185): the data followed by `m` check bits. -/
def bch (d k g m : Nat) : Nat := (d <<< m) ^^^ bchReduce g m k (d <<< m)

/-- `fmt(l, k)`, the 15-bit format information string (45_bch_metadata.md R186). -/
def formatString (c : Config) (l : Level) (k : Nat) : Nat :=
  bch (((c.T.lvlbits l).toNat <<< 3) ^^^ k) 5 c.T.fmtgen.toNat 10 ^^^ c.T.fmtmask.toNat

/-- `ver(v)`, the 18-bit version information string (45_bch_metadata.md R188). -/
def versionString (c : Config) (v : Nat) : Nat := bch v 6 c.T.vergen.toNat 12

/-- `BCHFMT` (45_bch_metadata.md R187); the level is checked before the mask id. -/
def bchfmtBody (c : Config) (rd rs1 rs2 : XReg) (s : State) : Except CmdError State := do
  let l ← levelOperand s rs1
  let k ← maskOperand s rs2
  .ok (s.setX rd (BitVec.ofNat 32 (formatString c l k)))

/-- `BCHVER` (45_bch_metadata.md R189). -/
def bchverBody (c : Config) (rd rs1 : XReg) (s : State) : Except CmdError State := do
  let v ← versionValueOperand s rs1
  .ok (s.setX rd (BitVec.ofNat 32 (versionString c v)))

/-- `bchfmt xd, xs1, xs2` (45_bch_metadata.md R187). -/
def execBchfmt (rd rs1 rs2 : XReg) (s : State) : Host.Outcome State Fault Refusal :=
  command (bchfmtBody config rd rs1 rs2) s

/-- `bchver xd, xs1` (45_bch_metadata.md R189). -/
def execBchver (rd rs1 : XReg) (s : State) : Host.Outcome State Fault Refusal := command (bchverBody config rd rs1) s

end Sys2Proof.Machine
end

