-- ==== Sys2Proof/Machine/Patterns.lean ====
section
/-! DEFINITION. Pattern placement (46_matrix_patterns.md) and the command `MPAT`. Each placement is the list of its writes
in the order its rule makes them, so the order and the bounds test of every write stay visible; coordinates are `(col, row)`
from the top-left cell (00_scope.md R11). -/

namespace Sys2Proof.Machine

/-- One pattern write `put(col, row, val, region)` (46_matrix_patterns.md R195). Coordinates are integers because an
alignment pattern of an arbitrary `T.align` can lie beyond any edge. -/
structure Put where
  col : Int
  row : Int
  val : Cell
  region : Nat
deriving DecidableEq, Repr

/-- The write lies inside the matrix (46_matrix_patterns.md R195). -/
def Put.inside (size : Nat) (p : Put) : Bool :=
  0 ≤ p.col && 0 ≤ p.row && p.col < size && p.row < size

/-- `put`: outside the matrix it raises `PlacementOverflow(region)` (46_matrix_patterns.md R195). -/
def putCell (size : Nat) (m : Matrix) (p : Put) : Except CmdError Matrix :=
  if p.inside size then .ok (matWrite m p.col.toNat p.row.toNat p.val) else .error (.placementOverflow p.region)

/-- The writes of a list, in order; a later one replaces what an earlier one wrote (46_matrix_patterns.md R195). -/
def putAll (size : Nat) : List Put → Matrix → Except CmdError Matrix
  | [], m => .ok m
  | p :: ps, m => do
    let m' ← putCell size m p
    putAll size ps m'

/-- `size(v)` (46_matrix_patterns.md R196). -/
def symbolSize (v : Nat) : Nat := 21 + 4 * (v - 1)

/-- `colour(b)` (46_matrix_patterns.md R208). -/
def colour (b : Bool) : Cell := if b then .dark else .light

/-- `|a - b|`. -/
def absDiff (a b : Nat) : Nat := (a - b) + (b - a)

/-- `F[r][c]`, the top-left finder block (46_matrix_patterns.md R198). -/
def finderCell (r c : Nat) : Cell :=
  if r = 7 ∨ c = 7 then .light
  else if max (absDiff r 3) (absDiff c 3) = 2 then .light
  else .dark

/-- The 64 pairs `(c, r)` with `c`, `r` in 0..7. -/
def blockCells : List (Nat × Nat) :=
  (List.range 8).flatMap fun r => (List.range 8).map fun c => (c, r)

/-- The top-left finder block (46_matrix_patterns.md R198). -/
def finderTopLeft : List Put :=
  blockCells.map fun q => { col := q.1, row := q.2, val := finderCell q.2 q.1, region := 1 }

/-- The top-right finder block: `F` turned 90 degrees clockwise (46_matrix_patterns.md R199). -/
def finderTopRight (size : Nat) : List Put :=
  blockCells.map fun q =>
    { col := (size : Int) - 8 + q.1, row := q.2, val := finderCell (7 - q.1) q.2, region := 2 }

/-- The bottom-left finder block: `F` turned 90 degrees anticlockwise (46_matrix_patterns.md R200). -/
def finderBottomLeft (size : Nat) : List Put :=
  blockCells.map fun q =>
    { col := q.1, row := (size : Int) - 8 + q.2, val := finderCell q.1 (7 - q.2), region := 3 }

/-- The black module (46_matrix_patterns.md R201). -/
def darkModule (size : Nat) : List Put :=
  [{ col := 8, row := (size : Int) - 8, val := .dark, region := 4 }]

/-- The 5×5 square of a candidate centre has a cell in common with a finder block (46_matrix_patterns.md R202). -/
def overlapsFinder (size : Nat) (cx cy : Int) : Bool :=
  (cx - 2 ≤ 7 && cy - 2 ≤ 7) || (cx + 2 ≥ (size : Int) - 8 && cy - 2 ≤ 7) ||
    (cx - 2 ≤ 7 && cy + 2 ≥ (size : Int) - 8)

/-- The centres that are not skipped: all pairs of list entries, `cy` in list order and, for each, `cx` in list order
(46_matrix_patterns.md R202). -/
def alignmentCentres (size : Nat) (ls : List Nat) : List (Int × Int) :=
  (ls.flatMap fun (cy : Nat) => ls.map fun (cx : Nat) => ((cx : Int), (cy : Int))).filter fun q =>
    !overlapsFinder size q.1 q.2

/-- The offsets -2..2. -/
def offsets : List Int := [-2, -1, 0, 1, 2]

/-- The alignment pattern of a centre (46_matrix_patterns.md R203). -/
def alignmentPattern (cx cy : Int) : List Put :=
  offsets.flatMap fun dr => offsets.map fun dc =>
    { col := cx + dc, row := cy + dr, val := if max dr.natAbs dc.natAbs = 1 then .light else .dark, region := 5 }

/-- All alignment patterns (46_matrix_patterns.md R202, R203). -/
def alignmentPatterns (size : Nat) (ls : List Nat) : List Put :=
  (alignmentCentres size ls).flatMap fun q => alignmentPattern q.1 q.2

/-- The timing patterns along row 6 and column 6, dark at even index (46_matrix_patterns.md R204). -/
def timingPatterns (size : Nat) : List Put :=
  (List.range' 8 (size - 16)).flatMap fun (i : Nat) =>
    [{ col := i, row := 6, val := colour (i % 2 = 0), region := 6 },
     { col := 6, row := i, val := colour (i % 2 = 0), region := 6 }]

/-- The cell of bit `i` of the format string in copy 1 (46_matrix_patterns.md R205). -/
def formatCell1 (i : Nat) : Int × Int :=
  if i ≤ 5 then (8, (i : Int))
  else if i = 6 then (8, 7)
  else if i = 7 then (8, 8)
  else if i = 8 then (7, 8)
  else (14 - (i : Int), 8)

/-- The cell of bit `i` of the format string in copy 2 (46_matrix_patterns.md R205). -/
def formatCell2 (size i : Nat) : Int × Int :=
  if i ≤ 7 then ((size : Int) - 1 - i, 8) else (8, (size : Int) - 15 + i)

/-- The format information, copy 1 and then copy 2 (46_matrix_patterns.md R205). -/
def formatPatterns (size f : Nat) : List Put :=
  (List.range 15).map (fun (i : Nat) =>
    { col := (formatCell1 i).1, row := (formatCell1 i).2, val := colour (f.testBit i), region := 7 }) ++
  (List.range 15).map (fun (i : Nat) =>
    { col := (formatCell2 size i).1, row := (formatCell2 size i).2, val := colour (f.testBit i), region := 7 })

/-- The version information: a block near the top-right corner and its transpose near the bottom-left one
(46_matrix_patterns.md R206). -/
def versionPatterns (size w : Nat) : List Put :=
  (List.range 18).flatMap fun (i : Nat) =>
    [{ col := (size : Int) - 11 + (i % 3 : Nat), row := (i / 3 : Nat), val := colour (w.testBit i), region := 8 },
     { col := (i / 3 : Nat), row := (size : Int) - 11 + (i % 3 : Nat), val := colour (w.testBit i), region := 8 }]

/-- The alignment centres `MPAT` queries: none below `ALIGN_MIN_VERSION` (46_matrix_patterns.md R197, R207). -/
def alignmentList (c : Config) (v : Nat) : Except CmdError (List Nat) :=
  if c.alignMinVersion ≤ v then queryAlign c v else .ok []

/-- All writes of `MPAT`, in its order (46_matrix_patterns.md R197), for the alignment centres `ls`. -/
def patternPuts (c : Config) (v : Nat) (l : Level) (mask : BitVec 3) (ls : List Nat) : List Put :=
  finderTopLeft ++ finderTopRight (symbolSize v) ++ finderBottomLeft (symbolSize v) ++ darkModule (symbolSize v) ++
    alignmentPatterns (symbolSize v) ls ++ timingPatterns (symbolSize v) ++
    formatPatterns (symbolSize v) (formatString c l mask.toNat) ++
    (if 7 ≤ v then versionPatterns (symbolSize v) (versionString c v) else [])

/-- `MPAT` (46_matrix_patterns.md R197). -/
def mpatBody (c : Config) (s : State) : Except CmdError State := do
  needPhase s .idle 1
  let v ← chosenVersion s
  let ls ← alignmentList c v
  let m ← putAll (symbolSize v) (patternPuts c v s.sym.lvl s.sym.mask ls) s.mat
  .ok (s.setMatrix m (symbolSize v) .patternsPlaced)

/-- `mpat` (46_matrix_patterns.md R197). -/
def execMpat (s : State) : Host.Outcome State Fault Refusal := command (mpatBody config) s

end Sys2Proof.Machine
end

