-- ==== Sys2Proof/Machine/Placement.lean ====
section
/-! DEFINITION. Data placement, masking and margin (47_data_placement.md) and the commands `MASKB`, `MDATA` and
`MMARGIN`. -/

namespace Sys2Proof.Machine

/-! ### Masking (47_data_placement.md R217, R218) -/

/-- `maskbit(k, c, r, b)`: the bit is inverted where the predicate has the value `MASK_FLIP_WHEN` (47_data_placement.md
R218). -/
def maskBit (cfg : Config) (k : BitVec 3) (c r : Nat) (b : Bool) : Bool :=
  if cfg.T.maskpred k c r = cfg.maskFlipWhen then !b else b

/-- `MASKB` (47_data_placement.md R217): all three operands are read before `x[RD]` is written. -/
def maskbBody (cfg : Config) (rd rs1 rs2 : XReg) (s : State) : Except CmdError State := do
  let c := scalarOperand s rs1
  let r := scalarOperand s rs2
  let b := scalarOperand s rd
  check (c ≤ 176 && r ≤ 176 && b ≤ 1) (.badOperand 12)
  .ok (s.setX rd (BitVec.ofNat 32 (maskBit cfg s.sym.mask c r (b = 1)).toNat))

/-! ### The zig-zag position sequence (47_data_placement.md R215, R216) -/

/-- The left column of the pair `k`, counted from the right: column 6 is in no pair (47_data_placement.md R216). -/
def pairLeft (size k : Nat) : Nat :=
  if 2 * ((size - 1) / 2 - 1 - k) ≥ 6 then 2 * ((size - 1) / 2 - 1 - k) + 1 else 2 * ((size - 1) / 2 - 1 - k)

/-- The rows of the pair `k`: upward for even `k`, downward for odd `k` (47_data_placement.md R216). -/
def pairRows (size k : Nat) : List Nat :=
  if k % 2 = 0 then (List.range size).reverse else List.range size

/-- `zigzag(size)`: the coordinates `(col, row)` in placement order, the right cell of a pair before the left one
(47_data_placement.md R216). -/
def zigzag (size : Nat) : List (Nat × Nat) :=
  (List.range ((size - 1) / 2)).flatMap fun k =>
    (pairRows size k).flatMap fun r => [(pairLeft size k + 1, r), (pairLeft size k, r)]

/-! ### Data placement (47_data_placement.md R219 to R221) -/

/-- The loop of `MDATA`: over the coordinates in order, stop once the bits are exhausted, pass over a cell that is set,
write the masked bit to a free one. Answers the matrix and the bits left over (47_data_placement.md R219). -/
def placeBits (cfg : Config) (mask : BitVec 3) : List (Nat × Nat) → List Bool → Matrix → Matrix × List Bool
  | _, [], m => (m, [])
  | [], b :: bs, m => (m, b :: bs)
  | (c, r) :: ps, b :: bs, m =>
    if matRead m c r ≠ .unset then placeBits cfg mask ps (b :: bs) m
    else placeBits cfg mask ps bs (matWrite m c r (colour (maskBit cfg mask c r b)))

/-- `MDATA` (47_data_placement.md R219, R220). -/
def mdataBody (cfg : Config) (s : State) : Except CmdError State := do
  needPhase s .patternsPlaced 2
  let placed := placeBits cfg s.sym.mask (zigzag s.matsize) s.bitData s.mat
  check placed.2.isEmpty (.layoutMismatch 1)
  .ok (s.setMatrix placed.1 s.matsize .dataInserted)

/-! ### Margin (47_data_placement.md R222) -/

/-- No cell of the symbol is `Unset` (47_data_placement.md R222). -/
def matComplete (m : Matrix) (size : Nat) : Bool :=
  (List.range size).all fun r => (List.range size).all fun c => matRead m c r ≠ .unset

/-- The cell `(c, r)` of the framed symbol: the core moved by the margin, light around it (47_data_placement.md R222). -/
def framedCell (margin size : Nat) (old : Matrix) (c r : Nat) : Cell :=
  if margin ≤ c ∧ c < margin + size ∧ margin ≤ r ∧ r < margin + size then matRead old (c - margin) (r - margin)
  else .light

/-- Write the cells `(c, r)` with `c`, `r` in 0..n-1; every other cell keeps its value. -/
def matFill (n : Nat) (cell : Nat → Nat → Cell) (m : Matrix) : Matrix :=
  Memory.splice [] m 0 ((List.range n).map fun r =>
    Memory.splice Cell.unset (Memory.read [] m r) 0 ((List.range n).map fun c => cell c r))

/-- `MMARGIN` (47_data_placement.md R222). -/
def mmarginBody (cfg : Config) (s : State) : Except CmdError State := do
  needPhase s .dataInserted 3
  check (matComplete s.mat s.matsize) (.layoutMismatch 2)
  let n := s.matsize + 2 * cfg.margin
  .ok (s.setMatrix (matFill n (framedCell cfg.margin s.matsize s.mat) s.mat) n .marginApplied)

/-- `maskb xd, xs1, xs2` (47_data_placement.md R217). -/
def execMaskb (rd rs1 rs2 : XReg) (s : State) : Host.Outcome State Fault Refusal :=
  command (maskbBody config rd rs1 rs2) s

/-- `mdata` (47_data_placement.md R219). -/
def execMdata (s : State) : Host.Outcome State Fault Refusal := command (mdataBody config) s

/-- `mmargin` (47_data_placement.md R222). -/
def execMmargin (s : State) : Host.Outcome State Fault Refusal := command (mmarginBody config) s

end Sys2Proof.Machine
end

