-- ==== Sys2Proof/Machine/Composite.lean ====
section
/-! DEFINITION. The composite commands (48_composite_commands.md): the bodies of the parts in sequence as one transaction.
The state the second part reads is the one the first part would have left; the first error ends the whole command and
nothing any part wrote is kept (R233). -/

namespace Sys2Proof.Machine

/-- `MENC`: the bodies of `MSEL`, `MASM`, `MINT` (48_composite_commands.md R230). -/
def mencBody (c : Config) (rs1 rs2 : XReg) (s : State) : Except CmdError State := do
  let s1 ← mselBody c rs1 rs2 s
  let s2 ← masmBody c s1
  mintBody c s2

/-- `MRENDER`: the bodies of `MPAT`, `MDATA`, `MMARGIN` (48_composite_commands.md R231). -/
def mrenderBody (c : Config) (s : State) : Except CmdError State := do
  let s1 ← mpatBody c s
  let s2 ← mdataBody c s1
  mmarginBody c s2

/-- `QRENC`: the bodies of `MENC` and `MRENDER` (48_composite_commands.md R232). -/
def qrencBody (c : Config) (rs1 rs2 : XReg) (s : State) : Except CmdError State := do
  let s1 ← mencBody c rs1 rs2 s
  mrenderBody c s1

/-- `menc xs1, xs2` (48_composite_commands.md R230). -/
def execMenc (rs1 rs2 : XReg) (s : State) : Host.Outcome State Fault Refusal := command (mencBody config rs1 rs2) s

/-- `mrender` (48_composite_commands.md R231). -/
def execMrender (s : State) : Host.Outcome State Fault Refusal := command (mrenderBody config) s

/-- `qrenc xs1, xs2` (48_composite_commands.md R232). -/
def execQrenc (rs1 rs2 : XReg) (s : State) : Host.Outcome State Fault Refusal := command (qrencBody config rs1 rs2) s

end Sys2Proof.Machine
end

