-- ==== Sys2Proof/Machine/Dispatch.lean ====
section
/-! DEFINITION. exec: one arm per command, each a direct call of its meaning. -/

namespace Sys2Proof.Machine

/-- The meaning of a command (30_encoding.md R113, column "semantics"). -/
def exec (i : Instr) (s : State) : Host.Outcome State Fault Refusal :=
  match i with
  | .gfexp rd rs1 => Sys2Proof.Machine.execGfexp rd rs1 s
  | .gflog rd rs1 => Sys2Proof.Machine.execGflog rd rs1 s
  | .pmul pd pa pb => Sys2Proof.Machine.execPmul pd pa pb s
  | .pmulm pd pa rs1 => Sys2Proof.Machine.execPmulm pd pa rs1 s
  | .rsgen pd rs1 => Sys2Proof.Machine.execRsgen pd rs1 s
  | .rsdiv rs1 => Sys2Proof.Machine.execRsdiv rs1 s
  | .msel rs1 rs2 => Sys2Proof.Machine.execMsel rs1 rs2 s
  | .masm => Sys2Proof.Machine.execMasm s
  | .mint => Sys2Proof.Machine.execMint s
  | .menc rs1 rs2 => Sys2Proof.Machine.execMenc rs1 rs2 s
  | .bchfmt rd rs1 rs2 => Sys2Proof.Machine.execBchfmt rd rs1 rs2 s
  | .bchver rd rs1 => Sys2Proof.Machine.execBchver rd rs1 s
  | .maskb rd rs1 rs2 => Sys2Proof.Machine.execMaskb rd rs1 rs2 s
  | .mpat => Sys2Proof.Machine.execMpat s
  | .mdata => Sys2Proof.Machine.execMdata s
  | .mmargin => Sys2Proof.Machine.execMmargin s
  | .mrender => Sys2Proof.Machine.execMrender s
  | .qrenc rs1 rs2 => Sys2Proof.Machine.execQrenc rs1 rs2 s

end Sys2Proof.Machine
end

