-- ==== Sys2Proof/Machine/HostPort.lean ====
section
/-! DEFINITION. The host's side: the address map (20_memory.md R64), host reads and writes (R62, R63), the command word
written to `CMD` (10_state.md R31, 30_encoding.md R110), reset through `CTRL` (10_state.md R32, 70_reset_and_hazards.md
R261), and the next host access of the machine (20_memory.md R61, R70; log 4). -/

namespace Sys2Proof.Machine

/-- What a word address names (20_memory.md R64). -/
inductive Location where
  | id | cmd | status | ctrl | sym | finfo
  | x (i : XReg)
  | dinlen | cwlen | ecclen | bitlen | matsize
  | plen (i : PReg)
  | term (i : PReg) (k : Nat)
  | din (k : Nat)
  | cw (k : Nat)
  | ecc (k : Nat)
  | bits (k : Nat)
  | mat (col row : Nat)
  | unmapped
deriving DecidableEq, Repr

/-- The address map, complete (20_memory.md R64). -/
def locate (addr : Addr) : Location :=
  let a := addr.toNat
  if a = 0x00000 then .id
  else if a = 0x00001 then .cmd
  else if a = 0x00002 then .status
  else if a = 0x00003 then .ctrl
  else if a = 0x00004 then .sym
  else if a = 0x00005 then .finfo
  else if 0x00008 ≤ a ∧ a < 0x00010 then .x (Fin.ofNat 8 (a - 0x00008))
  else if a = 0x00010 then .dinlen
  else if a = 0x00011 then .cwlen
  else if a = 0x00012 then .ecclen
  else if a = 0x00013 then .bitlen
  else if a = 0x00014 then .matsize
  else if 0x00020 ≤ a ∧ a < 0x00024 then .plen (Fin.ofNat 4 (a - 0x00020))
  else if 0x00400 ≤ a ∧ a < 0x00800 then .term (Fin.ofNat 4 ((a - 0x00400) / 0x100)) ((a - 0x00400) % 0x100)
  else if 0x01000 ≤ a ∧ a < 0x02000 then .din (a - 0x01000)
  else if 0x02000 ≤ a ∧ a < 0x03000 then .cw (a - 0x02000)
  else if 0x03000 ≤ a ∧ a < 0x03100 then .ecc (a - 0x03000)
  else if 0x08000 ≤ a ∧ a < 0x10000 then .bits (a - 0x08000)
  else if 0x10000 ≤ a ∧ a < 0x20000 then .mat ((a - 0x10000) % 0x100) ((a - 0x10000) / 0x100)
  else .unmapped

/-- `MemRead(addr, 1)` (20_memory.md R62): the register's value, or the element zero-extended; 0 for a write-only register
and an unmapped address. -/
def memRead (s : State) (addr : Addr) : Word :=
  match locate addr with
  | .id => idWord
  | .cmd => 0#32
  | .status => statusWord s
  | .ctrl => 0#32
  | .sym => symWord s.sym
  | .finfo => finfoWord s.finfo
  | .x i => s.getX i
  | .dinlen => BitVec.ofNat 32 s.dinlen
  | .cwlen => BitVec.ofNat 32 s.cwlen
  | .ecclen => BitVec.ofNat 32 s.ecclen
  | .bitlen => BitVec.ofNat 32 s.bitlen
  | .matsize => BitVec.ofNat 32 s.matsize
  | .plen i => BitVec.ofNat 32 (s.getPoly i).len
  | .term i k => Memory.read 0#32 (s.getPoly i).terms k
  | .din k => (Memory.read 0#8 s.din k).setWidth 32
  | .cw k => (Memory.read 0#8 s.cw k).setWidth 32
  | .ecc k => (Memory.read 0#8 s.ecc k).setWidth 32
  | .bits k => (BitVec.ofBool (Memory.read false s.bits k)).setWidth 32
  | .mat col row => (cellCode (matRead s.mat col row)).setWidth 32
  | .unmapped => 0#32

/-- A host write to `SYM` (10_state.md R35): only in phase Idle, with `FATAL` 0 and a version field of at most 40; `VER`,
`LVL` and `MASK` are taken from it, the other bits ignored. Otherwise the write is ignored whole. -/
def writeSym (s : State) (w : Word) : State :=
  if s.phase = .idle ∧ s.fatal = false ∧ (w.extractLsb' 0 6).toNat ≤ 40 then
    { s with sym := { ver := w.extractLsb' 0 6
                      lvl := levelOfBits (w.extractLsb' 8 2)
                      mask := w.extractLsb' 12 3 } }
  else s

/-- Write the length of polynomial register `i`. -/
def setPolyLen (s : State) (i : PReg) (n : Nat) : State :=
  { s with p := s.p.set i.val { s.getPoly i with len := n } }

/-- Write term word `k` of polynomial register `i`. -/
def setPolyTerm (s : State) (i : PReg) (k : Nat) (w : Word) : State :=
  { s with p := s.p.set i.val { s.getPoly i with terms := Memory.write 0#32 (s.getPoly i).terms k w } }

/-- Reset, every piece of the block's state to the value of 70_reset_and_hazards.md R260 (R261). What the host has still to
do and what it has read are not the block's state and stay (log 6). -/
def resetBlock (s : State) : State :=
  { State.reset with pending := s.pending, replies := s.replies }

/-- `MemWrite(addr, 1, v)` to any address but `CMD` (20_memory.md R63). -/
def memWrite (s : State) (addr : Addr) (v : Word) : State :=
  match locate addr with
  | .id => s
  | .cmd => s
  | .status => s
  | .ctrl => if v.getLsbD 0 then resetBlock s else s
  | .sym => writeSym s v
  | .finfo => s
  | .x i => s.setX i v
  | .dinlen => if v.toNat ≤ 4096 then { s with dinlen := v.toNat } else s
  | .cwlen => if v.toNat ≤ 4096 then { s with cwlen := v.toNat } else s
  | .ecclen => s
  | .bitlen => if v.toNat ≤ 32768 then { s with bitlen := v.toNat } else s
  | .matsize => s
  | .plen i => if v.toNat ≤ 256 then setPolyLen s i v.toNat else s
  | .term i k => setPolyTerm s i k v
  | .din k => { s with din := Memory.write 0#8 s.din k (v.extractLsb' 0 8) }
  | .cw k => { s with cw := Memory.write 0#8 s.cw k (v.extractLsb' 0 8) }
  | .ecc k => { s with ecc := Memory.write 0#8 s.ecc k (v.extractLsb' 0 8) }
  | .bits k => { s with bits := Memory.write false s.bits k (v.getLsbD 0) }
  | .mat _ _ => s
  | .unmapped => s

/-- The error an illegal word raises (30_encoding.md R110, R115, 60_exceptions.md R243). -/
def illegalError : DecodeError → CmdError
  | .unknownOpcode => .illegalCommand 1
  | .unusedBitSet => .illegalCommand 2

/-- A command word written to `CMD` (30_encoding.md R110, 10_state.md R31): the command it encodes, or the report of an
illegal one. The refusal under `FATAL`, which comes before decoding, is in `command`, the one way both end. -/
def commandWord (w : Word) (s : State) : Host.Outcome State Fault Refusal :=
  match decode w with
  | .ok i => exec i s
  | .error e => command (fun _ => .error (illegalError e)) s

/-- The word address of `CMD` (10_state.md R29). -/
def cmdAddr : Addr := 0x00001#20

/-- One host access (20_memory.md R61 to R63): a read returns its word to the host and changes nothing else; a write to
`CMD` executes a command. -/
def hostAccess (a : HostAccess) (s : State) : Host.Outcome State Fault Refusal :=
  match a with
  | .read addr => .next { s with replies := s.replies ++ [memRead s addr] }
  | .write addr v => if locate addr = .cmd then commandWord v s else .next (memWrite s addr v)

/-- One step: the host's next access (20_memory.md R70); with none pending the block is idle and loses nothing
(70_reset_and_hazards.md R263). -/
def stepPending (s : State) : Host.Outcome State Fault Refusal :=
  match s.pending with
  | [] => .next s
  | a :: rest => hostAccess a { s with pending := rest }

/-- `s` with the host's write of the word `w` to `CMD` as its next access. -/
def placeCommand (s : State) (w : Word) : State :=
  { s with pending := .write cmdAddr w :: s.pending }

end Sys2Proof.Machine
end

