-- ==== Sys2Proof/Machine/Step.lean ====
section
/-! DEFINITION. One step of the machine, and the placing of a command where the next step takes it (log 5). -/

namespace Sys2Proof.Machine

/-- One step: the host's next access to the register space (20_memory.md R61, R70). -/
def step (s : State) : Host.Outcome State Fault Refusal := stepPending s

/-- `s` with the command word whose low `nbits` bits are those of `w` written to `CMD` by the next step; the block fetches
no instruction (10_state.md R27, R31), so the word stands at the head of the host's pending accesses. -/
def State.withFetchWord (s : State) (nbits w : Nat) : State := placeCommand s (BitVec.ofNat 32 (w % 2 ^ nbits))

end Sys2Proof.Machine
end

