-- ==== Sys2Proof/Safety.lean ====
section
/-! DEFINITION. What a safe run keeps: the invariants the spec states over the state of QRCORE. `Inv` holds at reset and
every step keeps it (stated as obligations). Each part is a decidable proposition. -/

namespace Sys2Proof.Safety

open Sys2Proof.Machine

/-- A storage array in its canonical form with every index below the capacity. -/
abbrev storeWf {α : Type} (d : α) (cap : Nat) (m : Memory α) : Prop :=
  Memory.wf d m ∧ ∀ e ∈ m, e.1 < cap

/-- Every length is within its capacity and every array is canonical with indices in range (10_state.md R24, R41 to R44). -/
abbrev StoresInv (s : State) : Prop :=
  (∀ i : PReg, (s.getPoly i).len ≤ 256 ∧ storeWf 0#32 256 (s.getPoly i).terms) ∧
  s.dinlen ≤ 4096 ∧ storeWf 0#8 4096 s.din ∧
  s.cwlen ≤ 4096 ∧ storeWf 0#8 4096 s.cw ∧
  s.ecclen ≤ 254 ∧ storeWf 0#8 256 s.ecc ∧
  s.bitlen ≤ 32768 ∧ storeWf false 32768 s.bits

/-- `MATSIZE` of a phase, for the chosen version (10_state.md R46). -/
def expectedSize (c : Config) (ph : Phase) (v : Nat) : Nat :=
  match ph with
  | .idle => 0
  | .patternsPlaced => symbolSize v
  | .dataInserted => symbolSize v
  | .marginApplied => symbolSize v + 2 * c.margin

/-- The matrix against the phase (10_state.md R46): its size, no cell set outside the square in use, a version chosen
outside phase Idle, and no cell left `Unset` in a finished symbol (47_data_placement.md R222). -/
abbrev MatrixInv (c : Config) (s : State) : Prop :=
  matWf s.mat ∧
  (∀ e ∈ s.mat, e.1 < s.matsize ∧ ∀ f ∈ e.2, f.1 < s.matsize) ∧
  s.sym.ver.toNat ≤ 40 ∧
  s.matsize = expectedSize c s.phase s.sym.ver.toNat ∧
  (s.phase ≠ .idle → s.sym.ver ≠ 0#6) ∧
  (s.phase = .marginApplied → matComplete s.mat s.matsize = true)

/-- The error report (10_state.md R39, R40): `FATAL` is 1 exactly while `ERR` is the code of a fatal error, and `FINFO` is 0
when no error is reported. -/
abbrev ReportInv (s : State) : Prop :=
  (s.fatal = true ↔ s.err = .placementOverflow ∨ s.err = .malformedLookup) ∧ (s.err = .ok → s.finfo = {})

/-- The invariant of the machine. -/
abbrev Inv (s : State) : Prop := StoresInv s ∧ MatrixInv config s ∧ ReportInv s

end Sys2Proof.Safety
end

