-- ==== Sys2Proof/Certificates/Slice0/Obligations.lean ====
section
/-! DEFINITION. The statements for the provers, from the numbered rules of spec/. The definitions under `Sys2Proof.Claims`
say what a rule says in words of their own (a table, a drawing, a set of cells, a divisibility), so that a statement does
not repeat the model. Where a statement rests on a choice of the model or on the standard instance, its docstring says so. -/

namespace Sys2Proof.Claims

open Sys2Proof.Machine

/-! ### Small words -/

/-- The 8 bits of a byte, most significant first (20_memory.md R67). -/
def byteBits (b : Byte) : List Bool := (List.range 8).map fun k => b.getLsbD (7 - k)

/-- `s` with the error report of `t` and nothing else of it (60_exceptions.md R238). -/
def failedAs (s t : State) : State := { s with err := t.err, finfo := t.finfo, fatal := t.fatal }

/-- The scalar operand a command reads. -/
def operand (s : State) (r : XReg) : Nat := (s.getX r).toNat

/-- A word address. -/
def at20 (a : Nat) : Addr := BitVec.ofNat 20 a

/-! ### Field and polynomials -/

/-- Product of two polynomials over GF(2), for multipliers `q` of at most 18 bits. -/
def gf2Product (q g : Nat) : Nat :=
  (List.range 18).foldl (fun acc j => if q.testBit j then acc ^^^ (g <<< j) else acc) 0

/-- A 15-bit polynomial over GF(2) reduced modulo x^8 + x^4 + x^3 + x^2 + 1 (0x11D). -/
def reduce11D (v : Nat) : Nat :=
  [6, 5, 4, 3, 2, 1, 0].foldl (fun acc j => if acc.testBit (8 + j) then acc ^^^ (0x11D <<< j) else acc) v

/-- The product of two elements of GF(256). -/
def fieldProduct (a b : Byte) : Byte := BitVec.ofNat 8 (reduce11D (gf2Product a.toNat b.toNat))

/-- Strictly descending x-exponents (10_state.md R26). -/
def Descending (ts : List Term) : Prop := (ts.map Term.xe).Pairwise (· > ·)

/-- The sums of the x-exponents of all pairs of terms. -/
def exponentSums (a b : List Term) : List Nat := a.flatMap fun u => b.map fun v => u.xe + v.xe

/-- The exclusive or of the products of the pairs of terms whose x-exponents sum to `k` (41_polynomial_engine.md R142). -/
def pairSum (a b : List Term) (k : Nat) : Byte :=
  (a.flatMap fun u => (b.filter fun v => u.xe + v.xe = k).map fun v => gfexp (u.lg + v.lg)).foldl (· ^^^ ·) 0#8

/-- The coefficients of `generator_polynomial(r)` from x^r down to x^0. -/
def generatorCoefficients (r : Nat) : List Byte := (generatorPolynomial r).map Term.fv

/-- The value of a polynomial with no zero coefficient at α^i. -/
def valueAtPower (ts : List Term) (i : Nat) : Byte :=
  (ts.map fun t => gfexp (gflog t.fv + i * t.xe)).foldl (· ^^^ ·) 0#8

/-- Coefficient `p`, counted from the leading one, of the product of two polynomials given by their coefficients from the
leading one down. -/
def convolutionAt (q g : List Byte) (p : Nat) : Byte :=
  (List.range (p + 1)).foldl (fun acc j => acc ^^^ fieldProduct (q.getD j 0#8) (g.getD (p - j) 0#8)) 0#8

/-! ### The message encoder -/

/-- The data fits a version and level (44_message_encoder.md R167). -/
def DataFits (n v : Nat) (l : Level) : Prop :=
  ∃ t w, config.T.ec v l = some t ∧ config.T.lenbits v = some w ∧
    n < 2 ^ w ∧ 4 + w + 8 * n + 4 ≤ 8 * (t.b1 * t.d1 + t.b2 * t.d2)

/-- The levels searched from a minimum level code on (44_message_encoder.md R166). -/
def levelsFrom : Nat → List Level
  | 0 => [.L, .Q, .M, .H]
  | 1 => [.M, .H]
  | 2 => [.Q, .M, .H]
  | _ => [.H]

/-- The (level, version) pairs in the order of the search (44_message_encoder.md R166). -/
def searchOrder (mv ml : Nat) : List (Level × Nat) :=
  (levelsFrom ml).flatMap fun l => (List.range' mv (41 - mv)).map fun v => (l, v)

/-- The pair is the first of the search that the data fits. -/
def FirstFit (n mv ml : Nat) (l : Level) (v : Nat) : Prop :=
  ∃ pre post, searchOrder mv ml = pre ++ (l, v) :: post ∧ (∀ q ∈ pre, ¬DataFits n q.2 q.1) ∧ DataFits n v l

/-- The pad bytes of the standard instance, the first being 0xEC (44_message_encoder.md R170). -/
def padByte (k : Nat) : Byte := if k % 2 = 0 then 0xEC#8 else 0x11#8

/-- The data bit stream of a byte string for `d` codewords and a length field of `w` bits, `w` a multiple of 8
(44_message_encoder.md R168). -/
def messageBits (w d : Nat) (data : List Byte) : List Bool :=
  [false, true, false, false] ++ (List.range w).map (fun k => data.length.testBit (w - 1 - k)) ++
    data.flatMap byteBits ++ [false, false, false, false] ++
    (List.range (d - (1 + w / 8 + data.length))).flatMap fun k => byteBits (padByte k)

/-- Where block `j` starts in the codeword stream (44_message_encoder.md R172, R173). -/
def blockStart (t : EcEntry) (j : Nat) : Nat :=
  if j < t.b1 then j * t.d1 else t.b1 * t.d1 + (j - t.b1) * t.d2

/-- How long block `j` is (44_message_encoder.md R172). -/
def blockSize (t : EcEntry) (j : Nat) : Nat := if j < t.b1 then t.d1 else t.d2

/-- The codewords of block `j`. -/
def blockAt (t : EcEntry) (cw : List Byte) (j : Nat) : List Byte :=
  (cw.drop (blockStart t j)).take (blockSize t j)

/-- The interleaved codewords of a stream `cw`: index by index over the blocks, the second group's last index alone at the
end, then the EC codewords index by index (44_message_encoder.md R173, R174). -/
def Interleaved (t : EcEntry) (cw out : List Byte) : Prop :=
  out.length = (t.b1 * t.d1 + t.b2 * t.d2) + (t.b1 + t.b2) * t.e ∧
  (∀ j < t.b1 + t.b2, ∀ i < t.d1, out[i * (t.b1 + t.b2) + j]? = cw[blockStart t j + i]?) ∧
  (∀ j < t.b2, out[t.d1 * (t.b1 + t.b2) + j]? = cw[blockStart t (t.b1 + j) + t.d1]?) ∧
  (∀ j < t.b1 + t.b2, ∀ i < t.e, out[(t.b1 * t.d1 + t.b2 * t.d2) + i * (t.b1 + t.b2) + j]? =
    (divide config (blockAt t cw j) t.e)[i]?)

/-- `BITLEN` after `MINT` (44_message_encoder.md R172): the bits of all codewords and the remainder bits. -/
def bitCount (v : Nat) (l : Level) : Option Nat :=
  match config.T.ec v l, config.T.rembits v with
  | some t, some q => some (8 * ((t.b1 * t.d1 + t.b2 * t.d2) + (t.b1 + t.b2) * t.e) + q)
  | _, _ => none

/-! ### The matrix -/

/-- The rows of the drawing of the top-left finder block, a 1 bit being dark, column 0 the most significant bit
(46_matrix_patterns.md R198). -/
def finderRows : List Nat :=
  [0b11111110, 0b10000010, 0b10111010, 0b10111010, 0b10111010, 0b10000010, 0b11111110, 0b00000000]

/-- `F[r][c]` of the drawing. -/
def finderDrawing (r c : Nat) : Cell := if (finderRows.getD r 0).testBit (7 - c) then .dark else .light

/-- Dark for 1, light for 0 (46_matrix_patterns.md R208). -/
def bitCell (b : Bool) : Cell := if b then .dark else .light

/-- Copy 1 of the format string: the cell of bit `i` (46_matrix_patterns.md R205, the table). -/
def formatCopy1 : List (Nat × Nat) :=
  [(8, 0), (8, 1), (8, 2), (8, 3), (8, 4), (8, 5), (8, 7), (8, 8), (7, 8), (5, 8), (4, 8), (3, 8), (2, 8), (1, 8), (0, 8)]

/-- Copy 2 of the format string: the cell of bit `i` (46_matrix_patterns.md R205, the table). -/
def formatCopy2 (size : Nat) : List (Nat × Nat) :=
  [(size - 1, 8), (size - 2, 8), (size - 3, 8), (size - 4, 8), (size - 5, 8), (size - 6, 8), (size - 7, 8), (size - 8, 8),
   (8, size - 7), (8, size - 6), (8, size - 5), (8, size - 4), (8, size - 3), (8, size - 2), (8, size - 1)]

/-- The side of the symbol of a version (46_matrix_patterns.md R196). -/
def side (v : Nat) : Nat := 21 + 4 * (v - 1)

/-- The free cells of a matrix, in placement order (47_data_placement.md R219). -/
def freeCells (m : Matrix) (size : Nat) : List (Nat × Nat) :=
  (zigzag size).filter fun p => matRead m p.1 p.2 = .unset

/-- The left column of the `k`-th pair of columns, counted from the right: no pair contains column 6 (47_data_placement.md
R216: the pairs are (size-1, size-2), (size-3, size-4), ..., (8, 7), then (5, 4), (3, 2), (1, 0)). -/
def leftColumn (size k : Nat) : Nat := if k < (size - 7) / 2 then size - 2 - 2 * k else size - 3 - 2 * k

/-- The cell lies in the 5×5 square of an alignment pattern of the version: a centre of the version whose square meets no finder
block (46_matrix_patterns.md R202, R203, R207). -/
def alignmentSquare (v c r : Nat) : Bool :=
  2 ≤ v && ((config.T.align v).getD []).any fun cx => cx ≤ c + 2 && c ≤ cx + 2 &&
    ((config.T.align v).getD []).any fun cy => cy ≤ r + 2 && r ≤ cy + 2 &&
      !(cx ≤ 9 && cy ≤ 9) && !(side v ≤ cx + 10 && cy ≤ 9) && !(cx ≤ 9 && side v ≤ cy + 10)

/-- The cells of the symbol that the patterns and the metadata take (46_matrix_patterns.md R198 to R206): the three corners; row 6
and column 6; row 8 and column 8 beside the finder blocks, with the black module; the two version blocks; the alignment
patterns. -/
def patternCell (v c r : Nat) : Bool :=
  c < 8 && r < 8 || side v ≤ c + 8 && r < 8 || c < 8 && side v ≤ r + 8 || c = 6 || r = 6 ||
    r = 8 && (c ≤ 8 || side v ≤ c + 8) || c = 8 && (r ≤ 8 || side v ≤ r + 8) ||
    7 ≤ v && (side v ≤ c + 11 && c + 9 ≤ side v && r < 6 || c < 6 && side v ≤ r + 11 && r + 9 ≤ side v) ||
    alignmentSquare v c r

/-- The writes `MPAT` makes for the symbol attributes of a state, in its order (46_matrix_patterns.md R197). -/
def patternWrites (s : State) : List Put :=
  patternPuts config s.sym.ver.toNat s.sym.lvl s.sym.mask
    (if 2 ≤ s.sym.ver.toNat then (config.T.align s.sym.ver.toNat).getD [] else [])

/-- `m` is the core of the given side, every cell of it set, with four light cells around it on every side, and `Unset` beyond
(47_data_placement.md R222). -/
def Framed (size : Nat) (core m : Matrix) : Prop :=
  (∀ c < size, ∀ r < size, matRead core c r ≠ .unset ∧ matRead m (c + 4) (r + 4) = matRead core c r) ∧
  (∀ c < size + 8, ∀ r < size + 8, ¬(4 ≤ c ∧ c < size + 4 ∧ 4 ≤ r ∧ r < size + 4) → matRead m c r = .light) ∧
  (∀ c r, ¬(c < size + 8 ∧ r < size + 8) → matRead m c r = .unset)

/-- The state in which `MPAT` is issued for a version, level L, mask 0. -/
def beforePatterns (v : Nat) : State := { State.reset with sym := { ver := BitVec.ofNat 6 v, lvl := .L, mask := 0#3 } }

/-- `MPAT` for a version leaves exactly as many free cells as `MINT` produces bits (46_matrix_patterns.md R209). -/
def LayoutCloses (v : Nat) : Prop :=
  match exec .mpat (beforePatterns v) with
  | .next t => bitCount v .L = some (freeCells t.mat t.matsize).length
  | _ => False

/-! ### Holes of `T` -/

/-- The value of `T.ec` at the key is undefined or counts as undefined (21_static_tables.md R93); an undefined `T.rembits` counts
as 0 in the last condition (log 8). -/
def EcUndefined (c : Config) (v : Nat) (l : Level) : Prop :=
  ∀ t, c.T.ec v l = some t → t.e = 0 ∨ t.e > 254 ∨ t.b1 = 0 ∨ t.d1 = 0 ∨ (t.b2 > 0 ∧ t.d2 = 0) ∨
    t.b1 * t.d1 + t.b2 * t.d2 > 4096 ∨
    8 * (t.b1 * (t.d1 + t.e) + t.b2 * (t.d2 + t.e)) + ((c.T.rembits v).filter (· ≤ 7)).getD 0 > 32768

/-- The value of `T.lenbits` is undefined or counts as undefined (21_static_tables.md R94). -/
def LenbitsUndefined (c : Config) (v : Nat) : Prop := ∀ w, c.T.lenbits v = some w → w = 0 ∨ w > 16

/-- The value of `T.rembits` is undefined or counts as undefined (21_static_tables.md R98). -/
def RembitsUndefined (c : Config) (v : Nat) : Prop := ∀ q, c.T.rembits v = some q → q > 7

/-- The data fits a version and level under the tables of a configuration (44_message_encoder.md R167). -/
def FitsUnder (c : Config) (n v : Nat) (l : Level) : Prop :=
  ∃ t w, c.T.ec v l = some t ∧ c.T.lenbits v = some w ∧
    n < 2 ^ w ∧ 4 + w + 8 * n + 4 ≤ 8 * (t.b1 * t.d1 + t.b2 * t.d2)

/-- `s` with the report of a failed query: table code, version and level of the key (level L has code 0, which also stands for
a key with no level; 60_exceptions.md R242). -/
def lookupReport (s : State) (table v : Nat) (l : Level) : State :=
  { s with err := .malformedLookup, fatal := true,
           finfo := { what := BitVec.ofNat 8 table, kver := BitVec.ofNat 6 v, klvl := BitVec.ofNat 2 (levelCode l) } }

/-! ### Which command writes which state (10_state.md R22, R35, R37, R41 to R48) -/

/-- The scalar register a command names as its destination. -/
def destX : Instr → Option XReg
  | .gfexp rd _ | .gflog rd _ | .bchfmt rd _ _ | .bchver rd _ | .maskb rd _ _ => some rd
  | _ => none

/-- The polynomial register a command names as its destination. -/
def destP : Instr → Option PReg
  | .pmul pd _ _ | .pmulm pd _ _ | .rsgen pd _ => some pd
  | _ => none

/-- The commands that write `SYM.VER` and `SYM.LVL` (10_state.md R35). -/
def writesSym : Instr → Bool
  | .msel _ _ | .menc _ _ | .qrenc _ _ => true
  | _ => false

/-- The commands that write `CW` and `CWLEN`. -/
def writesCw : Instr → Bool
  | .masm | .menc _ _ | .qrenc _ _ => true
  | _ => false

/-- The commands that write `BITS` and `BITLEN`. -/
def writesBits : Instr → Bool
  | .mint | .menc _ _ | .qrenc _ _ => true
  | _ => false

/-- The commands that write `ECC` and `ECCLEN` (10_state.md R43). -/
def writesEcc : Instr → Bool
  | .rsdiv _ => true
  | _ => false

/-- The commands that write `MAT`, `MATSIZE` and `STATUS.PHASE`. -/
def writesMatrix : Instr → Bool
  | .mpat | .mdata | .mmargin | .mrender | .qrenc _ _ => true
  | _ => false

end Sys2Proof.Claims

open Sys2Proof Sys2Proof.Machine Sys2Proof.Claims Sys2Proof.Safety

/-! ### Reset, the step and the command mechanism -/

/-- 70_reset_and_hazards.md R260: the value of every piece of the tuple after reset. -/
def Obligations.ResetLeavesEveryPieceAtItsValue : Prop :=
  (∀ i, State.reset.getX i = 0#32) ∧
  (∀ i, (State.reset.getPoly i).len = 0 ∧ ∀ k, Memory.read 0#32 (State.reset.getPoly i).terms k = 0#32) ∧
  symWord State.reset.sym = 0x00020000#32 ∧ statusWord State.reset = 0x00000000#32 ∧
  finfoWord State.reset.finfo = 0x00000000#32 ∧
  State.reset.dinlen = 0 ∧ (∀ k, Memory.read 0#8 State.reset.din k = 0#8) ∧
  State.reset.cwlen = 0 ∧ (∀ k, Memory.read 0#8 State.reset.cw k = 0#8) ∧
  State.reset.ecclen = 0 ∧ (∀ k, Memory.read 0#8 State.reset.ecc k = 0#8) ∧
  State.reset.bitlen = 0 ∧ (∀ k, Memory.read false State.reset.bits k = false) ∧
  State.reset.matsize = 0 ∧ (∀ c r, cellCode (matRead State.reset.mat c r) = 0b00#2) ∧
  memRead State.reset 0x00000#20 = 0x51520001#32 ∧ memRead State.reset 0x00001#20 = 0#32 ∧
  memRead State.reset 0x00003#20 = 0#32

/-- 10_state.md R31, 30_encoding.md R110, with log 4 (the model's own pending accesses): when the host's next access writes the
word of a command to `CMD`, one step is `exec` of that command on the state with that access taken off, and nothing else
around it; reading `CMD` gives 0. With no access pending a step changes nothing; a read returns its word to the host and changes
nothing of the block; a write to any address but `CMD` is the host write. -/
def Obligations.StepRunsTheDecodedCommand : Prop :=
  (∀ (s : State) (w : Word) (rest : List HostAccess) (i : Instr), decode w = .ok i →
    step { s with pending := .write 0x00001#20 w :: rest } = exec i { s with pending := rest }) ∧
  (∀ s : State, memRead s 0x00001#20 = 0#32) ∧
  (∀ s : State, s.pending = [] → step s = .next s) ∧
  (∀ (s : State) (a : Addr) (rest : List HostAccess), step { s with pending := .read a :: rest } =
    .next { s with pending := rest, replies := s.replies ++ [memRead s a] }) ∧
  (∀ (s : State) (a : Addr) (v : Word) (rest : List HostAccess), a ≠ 0x00001#20 →
    step { s with pending := .write a v :: rest } = .next (memWrite { s with pending := rest } a v))

/-- 30_encoding.md R115, 60_exceptions.md R243: a word whose low byte is no opcode raises `IllegalCommand(1)`; a word whose
low byte is one but which no command encodes to (a 1 in bits 31:23 or in an unused field) raises `IllegalCommand(2)`; nothing
but the report changes. -/
def Obligations.IllegalWordsAreReported : Prop :=
  ∀ (s : State) (w : Word) (rest : List HostAccess), s.fatal = false →
    (w.toNat % 256 ∉ [0x01, 0x02, 0x10, 0x11, 0x18, 0x20, 0x30, 0x31, 0x32, 0x33, 0x40, 0x41, 0x42, 0x48, 0x49, 0x4A, 0x4B,
        0x50] →
      step { s with pending := .write 0x00001#20 w :: rest } =
        .next { s with pending := rest, err := .illegalCommand, finfo := { what := 1#8 } }) ∧
    (w.toNat % 256 ∈ [0x01, 0x02, 0x10, 0x11, 0x18, 0x20, 0x30, 0x31, 0x32, 0x33, 0x40, 0x41, 0x42, 0x48, 0x49, 0x4A, 0x4B,
        0x50] → (∀ i, encode i ≠ w) →
      step { s with pending := .write 0x00001#20 w :: rest } =
        .next { s with pending := rest, err := .illegalCommand, finfo := { what := 2#8 } })

/-- 60_exceptions.md R238, R235, R250: no command stops the machine. Under `FATAL` it changes nothing; otherwise it either
completes, with no error reported, or changes nothing but the report, `FATAL` being set by a fatal error exactly. -/
def Obligations.CommandCompletesOrChangesOnlyTheReport : Prop :=
  ∀ (i : Instr) (s : State), ∃ t, exec i s = .next t ∧
    (s.fatal = true → t = s) ∧
    (s.fatal = false →
      (t.err = .ok ∧ t.finfo = {} ∧ t.fatal = false) ∨
      (t.err ≠ .ok ∧ t = failedAs s t ∧ (t.fatal = true ↔ t.err = .placementOverflow ∨ t.err = .malformedLookup)))

/-- 10_state.md R39, 60_exceptions.md R248: while `FATAL` is 1 a write to `CMD` has no effect whatever the word, and only the
reset write to `CTRL` clears it or changes the report; `SYM` keeps its value. -/
def Obligations.FatalRefusesCommandsUntilReset : Prop :=
  (∀ (s : State) (w : Word) (rest : List HostAccess), s.fatal = true →
    step { s with pending := .write 0x00001#20 w :: rest } = .next { s with pending := rest }) ∧
  (∀ s t : State, s.fatal = true → step s = .next t →
    (t.fatal = true ∧ t.err = s.err ∧ t.finfo = s.finfo ∧ t.sym = s.sym) ∨
    (∃ v rest, s.pending = .write 0x00003#20 v :: rest ∧ v.getLsbD 0 = true))

/-- 70_reset_and_hazards.md R261, 10_state.md R32: a write to `CTRL` with bit 0 = 1 puts every piece of the block's state to
its reset value in one step, in every phase and with `FATAL` 1; with bit 0 = 0 it does nothing. The host's own accesses and
replies stay (log 6). -/
def Obligations.CtrlWriteResetsTheBlock : Prop :=
  ∀ (s : State) (v : Word) (rest : List HostAccess),
    (v.getLsbD 0 = true → step { s with pending := .write 0x00003#20 v :: rest } =
      .next { State.reset with pending := rest, replies := s.replies }) ∧
    (v.getLsbD 0 = false → step { s with pending := .write 0x00003#20 v :: rest } = .next { s with pending := rest }) ∧
    memRead s 0x00003#20 = 0#32

/-! ### Encoding -/

/-- 30_encoding.md R116: words written out from the field table decode to the commands they stand for. -/
def Obligations.SampleWordsDecode : Prop :=
  decode 0x00000101#32 = .ok (.gfexp 1 0) ∧ decode 0x00000A02#32 = .ok (.gflog 2 1) ∧
  decode 0x00040010#32 = .ok (.pmul 2 0 0) ∧ decode 0x000C1811#32 = .ok (.pmulm 2 1 3) ∧
  decode 0x00001818#32 = .ok (.rsgen 0 3) ∧ decode 0x00002820#32 = .ok (.rsdiv 5) ∧
  decode 0x00004030#32 = .ok (.msel 0 1) ∧ decode 0x00000031#32 = .ok .masm ∧
  decode 0x0001FF40#32 = .ok (.bchfmt 7 7 7) ∧ decode 0x00000048#32 = .ok .mpat ∧
  decode 0x00004050#32 = .ok (.qrenc 0 1) ∧
  decode 0x00000000#32 = .error .unknownOpcode ∧ decode 0x00004101#32 = .error .unusedBitSet ∧
  decode 0x00800031#32 = .error .unusedBitSet

/-- 30_encoding.md R111, R113, R116: the decoder reads back every command from its word, every operand at every value. -/
def Obligations.DecodeReadsBackEveryCommand : Prop :=
  ∀ i : Instr, i.wellFormed = true → decode (encode i) = .ok i

/-- 30_encoding.md R110, R115: every legal word is the word of the command it decodes to, so a command has one word. -/
def Obligations.EveryLegalWordIsItsCommandsWord : Prop :=
  ∀ (w : Word) (i : Instr), decode w = .ok i → encode i = w

/-! ### Host access -/

/-- 20_memory.md R62 over the map of R64: what a host read returns, address by address. -/
def Obligations.HostReadsReturnTheMappedValue : Prop :=
  ∀ s : State,
    memRead s (at20 0x00000) = 0x51520001#32 ∧ memRead s (at20 0x00001) = 0#32 ∧ memRead s (at20 0x00002) = statusWord s ∧
    memRead s (at20 0x00003) = 0#32 ∧ memRead s (at20 0x00004) = symWord s.sym ∧
    memRead s (at20 0x00005) = finfoWord s.finfo ∧
    (∀ i : XReg, memRead s (at20 (0x00008 + i.val)) = s.getX i) ∧
    memRead s (at20 0x00010) = BitVec.ofNat 32 s.dinlen ∧ memRead s (at20 0x00011) = BitVec.ofNat 32 s.cwlen ∧
    memRead s (at20 0x00012) = BitVec.ofNat 32 s.ecclen ∧ memRead s (at20 0x00013) = BitVec.ofNat 32 s.bitlen ∧
    memRead s (at20 0x00014) = BitVec.ofNat 32 s.matsize ∧
    (∀ i : PReg, memRead s (at20 (0x00020 + i.val)) = BitVec.ofNat 32 (s.getPoly i).len) ∧
    (∀ i : PReg, ∀ k < 256, memRead s (at20 (0x00400 + 0x100 * i.val + k)) = Memory.read 0#32 (s.getPoly i).terms k) ∧
    (∀ k < 4096, memRead s (at20 (0x01000 + k)) = (Memory.read 0#8 s.din k).setWidth 32) ∧
    (∀ k < 4096, memRead s (at20 (0x02000 + k)) = (Memory.read 0#8 s.cw k).setWidth 32) ∧
    (∀ k < 256, memRead s (at20 (0x03000 + k)) = (Memory.read 0#8 s.ecc k).setWidth 32) ∧
    (∀ k < 32768, memRead s (at20 (0x08000 + k)) = BitVec.ofNat 32 (Memory.read false s.bits k).toNat) ∧
    (∀ c < 256, ∀ r < 256, memRead s (at20 (0x10000 + 0x100 * r + c)) = (cellCode (matRead s.mat c r)).setWidth 32) ∧
    (∀ a, (0x00006 ≤ a ∧ a < 0x00008) ∨ (0x00015 ≤ a ∧ a < 0x00020) ∨ (0x00024 ≤ a ∧ a < 0x00400) ∨
        (0x00800 ≤ a ∧ a < 0x01000) ∨ (0x03100 ≤ a ∧ a < 0x08000) ∨ (0x20000 ≤ a ∧ a < 0x100000) →
      memRead s (at20 a) = 0#32)

/-- 20_memory.md R63 over the map of R64 (`CMD`, `CTRL` and `SYM` have statements of their own): what a host write stores. -/
def Obligations.HostWritesStoreAtTheMappedPlace : Prop :=
  ∀ (s : State) (v : Word),
    (∀ i : XReg, memWrite s (at20 (0x00008 + i.val)) v = s.setX i v) ∧
    (∀ i : PReg, ∀ k < 256, memWrite s (at20 (0x00400 + 0x100 * i.val + k)) v =
      { s with p := s.p.set i.val { s.getPoly i with terms := Memory.write 0#32 (s.getPoly i).terms k v } }) ∧
    (∀ k < 4096, memWrite s (at20 (0x01000 + k)) v = { s with din := Memory.write 0#8 s.din k (v.setWidth 8) }) ∧
    (∀ k < 4096, memWrite s (at20 (0x02000 + k)) v = { s with cw := Memory.write 0#8 s.cw k (v.setWidth 8) }) ∧
    (∀ k < 256, memWrite s (at20 (0x03000 + k)) v = { s with ecc := Memory.write 0#8 s.ecc k (v.setWidth 8) }) ∧
    (∀ k < 32768, memWrite s (at20 (0x08000 + k)) v = { s with bits := Memory.write false s.bits k (v.getLsbD 0) }) ∧
    memWrite s (at20 0x00010) v = (if v.toNat ≤ 4096 then { s with dinlen := v.toNat } else s) ∧
    memWrite s (at20 0x00011) v = (if v.toNat ≤ 4096 then { s with cwlen := v.toNat } else s) ∧
    memWrite s (at20 0x00013) v = (if v.toNat ≤ 32768 then { s with bitlen := v.toNat } else s) ∧
    (∀ i : PReg, memWrite s (at20 (0x00020 + i.val)) v =
      (if v.toNat ≤ 256 then { s with p := s.p.set i.val { s.getPoly i with len := v.toNat } } else s)) ∧
    (∀ a, a = 0x00000 ∨ a = 0x00002 ∨ a = 0x00005 ∨ a = 0x00012 ∨ a = 0x00014 ∨ (0x10000 ≤ a ∧ a < 0x20000) ∨
        (0x00006 ≤ a ∧ a < 0x00008) ∨ (0x00015 ≤ a ∧ a < 0x00020) ∨ (0x00024 ≤ a ∧ a < 0x00400) ∨
        (0x00800 ≤ a ∧ a < 0x01000) ∨ (0x03100 ≤ a ∧ a < 0x08000) ∨ (0x20000 ≤ a ∧ a < 0x100000) →
      memWrite s (at20 a) v = s)

/-- 20_memory.md R61: a host write to an address other than `CMD` and `CTRL` changes what is read at no other address. -/
def Obligations.HostWriteLeavesEveryOtherAddressAlone : Prop :=
  ∀ (s : State) (a b : Addr) (v : Word), a ≠ 0x00001#20 → a ≠ 0x00003#20 → a ≠ b →
    memRead (memWrite s a v) b = memRead s b

/-- 10_state.md R35, R34: a host write to `SYM` takes effect only in phase Idle with `FATAL` 0 and a version field of at most
40, then `VER`, `LVL` and `MASK` read as written; otherwise nothing changes; `MODE` reads 2 and the reserved bits read 0
always. -/
def Obligations.SymWriteTakesEffectOnlyInIdle : Prop :=
  ∀ (s : State) (w : Word),
    (s.phase = .idle ∧ s.fatal = false ∧ (w.extractLsb' 0 6).toNat ≤ 40 →
      memRead (memWrite s 0x00004#20 w) 0x00004#20 = (w &&& 0x0000733F#32) ||| 0x00020000#32 ∧
      memWrite s 0x00004#20 w = { s with sym := (memWrite s 0x00004#20 w).sym }) ∧
    (¬(s.phase = .idle ∧ s.fatal = false ∧ (w.extractLsb' 0 6).toNat ≤ 40) → memWrite s 0x00004#20 w = s) ∧
    (symWord s.sym).extractLsb' 16 2 = 2#2 ∧ symWord s.sym &&& 0xFFFC8CC0#32 = 0#32

/-- 10_state.md R36, R40: the fields of `STATUS` and `FINFO` stand where the rules put them and every other bit reads 0. -/
def Obligations.StatusAndFinfoFieldsStandInPlace : Prop :=
  ∀ s : State,
    (statusWord s).extractLsb' 0 2 = phaseCode s.phase ∧ (statusWord s).extractLsb' 4 4 = errBits s.err ∧
    (statusWord s).getLsbD 8 = s.fatal ∧ statusWord s &&& 0xFFFFFE0C#32 = 0#32 ∧
    (finfoWord s.finfo).extractLsb' 0 8 = s.finfo.what ∧ (finfoWord s.finfo).extractLsb' 8 6 = s.finfo.kver ∧
    (finfoWord s.finfo).extractLsb' 16 2 = s.finfo.klvl ∧ finfoWord s.finfo &&& 0xFFFCC000#32 = 0#32

/-! ### Field arithmetic -/

/-- 40_field_arithmetic.md R134: `GFEXP` writes `exponent_galois` of the operand, by the document's recursion of R131. -/
def Obligations.GfexpWritesThePowerOfTheGenerator : Prop :=
  ∀ (s : State) (rd rs1 : XReg), s.fatal = false →
    exec (.gfexp rd rs1) s =
      .next (s.setX rd (BitVec.ofNat 32 (gfexpRecursion (operand s rs1 % 255)))).complete

/-- 40_field_arithmetic.md R135 with R133: `GFLOG` of a value 1..255 writes its log form, of 0 writes 0, and of a larger
value raises `BadOperand(1)`. -/
def Obligations.GflogWritesTheDiscreteLogarithm : Prop :=
  ∀ (s : State) (rd rs1 : XReg), s.fatal = false →
    (operand s rs1 ≤ 255 → ∃ e, e < 255 ∧ exec (.gflog rd rs1) s = .next (s.setX rd (BitVec.ofNat 32 e)).complete ∧
      (operand s rs1 = 0 → e = 0) ∧ (operand s rs1 ≠ 0 → gfexpRecursion e = operand s rs1)) ∧
    (operand s rs1 > 255 → exec (.gflog rd rs1) s = .next (s.report (.badOperand 1)))

/-- 40_field_arithmetic.md R132: `gfexp` has period 255 and takes each of 1..255 once in a period. -/
def Obligations.ExponentiationGeneratesTheGroup : Prop :=
  gfexp 0 = 1#8 ∧ (∀ e, gfexp (e + 255) = gfexp e) ∧ (∀ e, gfexp e ≠ 0#8) ∧
  (∀ e f, e < 255 → f < 255 → gfexp e = gfexp f → e = f) ∧ (∀ v : Byte, v ≠ 0#8 → ∃ e, e < 255 ∧ gfexp e = v)

/-- 40_field_arithmetic.md R133: the log form inverts `gfexp`, and 0 shares the log form of 1. -/
def Obligations.LogInvertsExponentiation : Prop :=
  gflog 0#8 = 0 ∧ gflog 1#8 = 0 ∧ (∀ v, gflog v ≤ 254) ∧ (∀ v, v ≠ 0#8 → gfexp (gflog v) = v) ∧
  gfexp (gflog 0#8) = 1#8 ∧ (∀ e, gflog (gfexp e) = e % 255)

/-- 40_field_arithmetic.md R136: adding log forms multiplies in GF(256), as polynomials over GF(2) modulo 0x11D; with the log
form 0 standing for 0 the result is the other element. -/
def Obligations.AddingLogsMultipliesInTheField : Prop :=
  (∀ a b : Byte, a ≠ 0#8 → b ≠ 0#8 → gfexp (gflog a + gflog b) = fieldProduct a b) ∧
  (∀ b : Byte, b ≠ 0#8 → gfexp (gflog 0#8 + gflog b) = b)

/-! ### Polynomials -/

/-- 41_polynomial_engine.md R143, R142: `PMUL` writes the renormalised product to its destination and changes nothing else;
an ill-formed source, an x-exponent sum above 65535 and a result of more than 256 terms each raise their error. -/
def Obligations.PmulMultipliesPolynomials : Prop :=
  ∀ (s : State) (pd pa pb : PReg), s.fatal = false →
    (¬(Descending (s.poly pa) ∧ Descending (s.poly pb)) → exec (.pmul pd pa pb) s = .next (s.report (.badOperand 2))) ∧
    (Descending (s.poly pa) ∧ Descending (s.poly pb) →
      ((∃ k ∈ exponentSums (s.poly pa) (s.poly pb), k > 65535) →
        exec (.pmul pd pa pb) s = .next (s.report (.bufferOverflow 1))) ∧
      ((∀ k ∈ exponentSums (s.poly pa) (s.poly pb), k ≤ 65535) →
        ((exponentSums (s.poly pa) (s.poly pb)).dedup.length > 256 →
          exec (.pmul pd pa pb) s = .next (s.report (.bufferOverflow 2))) ∧
        ((exponentSums (s.poly pa) (s.poly pb)).dedup.length ≤ 256 →
          ∃ r, exec (.pmul pd pa pb) s = .next (s.setPoly pd r).complete ∧ Descending r ∧
            (∀ k, (∃ t ∈ r, t.xe = k) ↔ k ∈ exponentSums (s.poly pa) (s.poly pb)) ∧
            (∀ t ∈ r, t.fv = pairSum (s.poly pa) (s.poly pb) t.xe ∧ t.lg = gflog t.fv))))

/-- 41_polynomial_engine.md R145, R144: `PMULM` scales every term of a well-formed source, the sum of log forms not cut to 32
bits; an ill-formed source raises `BadOperand(2)`. -/
def Obligations.PmulmScalesEveryTerm : Prop :=
  ∀ (s : State) (pd pa : PReg) (rs1 : XReg), s.fatal = false →
    (Descending (s.poly pa) → exec (.pmulm pd pa rs1) s = .next (s.setPoly pd ((s.poly pa).map fun t =>
      { xe := t.xe, lg := (t.lg + operand s rs1) % 255, fv := gfexp (t.lg + operand s rs1) })).complete) ∧
    (¬Descending (s.poly pa) → exec (.pmulm pd pa rs1) s = .next (s.report (.badOperand 2)))

/-- 41_polynomial_engine.md R146, 10_state.md R24: reading a polynomial register after writing it gives the terms written,
the other registers keep their values, and term words beyond the new length are kept (20_memory.md R65). -/
def Obligations.PolynomialRegisterReadsBackItsTerms : Prop :=
  ∀ (s : State) (i j : PReg) (ts : List Term),
    (∀ t ∈ ts, t.xe ≤ 65535 ∧ t.lg ≤ 255) →
    (s.setPoly i ts).poly i = ts ∧ (j ≠ i → (s.setPoly i ts).poly j = s.poly j) ∧
    ∀ k ≥ ts.length, Memory.read 0#32 ((s.setPoly i ts).getPoly i).terms k = Memory.read 0#32 (s.getPoly i).terms k

/-- 42_generator_builder.md R151: `RSGEN` writes the generator polynomial of a degree 1..254, and raises `BadOperand(3)` for
any other degree. -/
def Obligations.RsgenBuildsTheGenerator : Prop :=
  ∀ (s : State) (pd : PReg) (rs1 : XReg), s.fatal = false →
    (1 ≤ operand s rs1 ∧ operand s rs1 ≤ 254 → ∃ g, exec (.rsgen pd rs1) s = .next (s.setPoly pd g).complete ∧
      g.length = operand s rs1 + 1 ∧ g = generatorPolynomial (operand s rs1)) ∧
    (operand s rs1 < 1 ∨ operand s rs1 > 254 → exec (.rsgen pd rs1) s = .next (s.report (.badOperand 3)))

/-- 42_generator_builder.md R152: for every degree 1..254 the generator polynomial has terms at all x-exponents from `n` down
to 0, no zero coefficient, log forms that belong to its coefficients, leading term `(n, 0, 1)` and constant term of log form
`0 + 1 + ... + (n-1)` modulo 255. -/
def Obligations.GeneratorPolynomialIsMonicAndDense : Prop :=
  ∀ n, 1 ≤ n → n ≤ 254 →
    (generatorPolynomial n).map Term.xe = (List.range (n + 1)).reverse ∧
    (∀ t ∈ generatorPolynomial n, t.fv ≠ 0#8 ∧ t.lg = gflog t.fv) ∧
    (generatorPolynomial n).head? = some { xe := n, lg := 0, fv := 1#8 } ∧
    (generatorPolynomial n).getLast?.map Term.lg = some ((n * (n - 1) / 2) % 255)

/-- 42_generator_builder.md R150, R152: for every degree the block accepts the generator polynomial is exactly the product of the
factors `x + α^i` in GF(256): that of degree 1 is `x + 1`, each next one is the one before times its factor by exact field
multiplication, and the one of degree `n` has the roots α^0 to α^(n-1). -/
def Obligations.GeneratorPolynomialHasTheRoots : Prop :=
  generatorCoefficients 1 = [1#8, 1#8] ∧
  (∀ n, 1 ≤ n → n ≤ 253 → ∀ p ≤ n + 1,
    (generatorCoefficients (n + 1)).getD p 0#8 = convolutionAt (generatorCoefficients n) [1#8, gfexp n] p) ∧
  (∀ n, 1 ≤ n → n ≤ 254 → ∀ i < n, valueAtPower (generatorPolynomial n) i = 0#8)

/-! ### Reed-Solomon division -/

/-- 43_rs_encoder.md R156: `RSDIV` writes the `r` EC codewords of the message to `ECC`; a degree outside 1..254 raises
`BadOperand(3)`, then an empty message `BadOperand(4)`. -/
def Obligations.RsdivWritesTheEcCodewords : Prop :=
  ∀ (s : State) (rs1 : XReg), s.fatal = false →
    (operand s rs1 < 1 ∨ operand s rs1 > 254 → exec (.rsdiv rs1) s = .next (s.report (.badOperand 3))) ∧
    (1 ≤ operand s rs1 ∧ operand s rs1 ≤ 254 →
      (s.cwlen = 0 → exec (.rsdiv rs1) s = .next (s.report (.badOperand 4))) ∧
      (1 ≤ s.cwlen → ∃ e, exec (.rsdiv rs1) s = .next (s.setEcc e).complete ∧ e.length = operand s rs1 ∧
        e = divide config s.cwData (operand s rs1)))

/-- 43_rs_encoder.md R155: `divide` gives exactly `r` elements, and they are the remainder of the message shifted up by `r`
places divided by the generator polynomial over GF(256): message and result together are a multiple of it. Rests on the
default effect of the extra division step (log 3). -/
def Obligations.DivideGivesTheRemainder : Prop :=
  ∀ (msg : List Byte) (r : Nat), msg ≠ [] → 1 ≤ r → r ≤ 254 →
    (divide config msg r).length = r ∧
    ∃ q : List Byte, q.length = msg.length ∧
      ∀ p < msg.length + r, convolutionAt q (generatorCoefficients r) p = (msg ++ divide config msg r).getD p 0#8

/-- 43_rs_encoder.md R161: an all-zero message gives zeros, leading zero codewords change nothing, and `divide` is linear.
Rests on the default effect of the extra division step (log 3). -/
def Obligations.DivideIsLinear : Prop :=
  ∀ r, 1 ≤ r → r ≤ 254 →
    (∀ k, 1 ≤ k → divide config (List.replicate k 0#8) r = List.replicate r 0#8) ∧
    (∀ m, m ≠ [] → divide config (0#8 :: m) r = divide config m r) ∧
    (∀ a b : List Byte, a ≠ [] → a.length = b.length →
      divide config (List.zipWith (· ^^^ ·) a b) r =
        List.zipWith (· ^^^ ·) (divide config a r) (divide config b r))

/-! ### The message encoder (standard instance of `T`, log 1) -/

/-- 44_message_encoder.md R166: `MSEL` writes the first pair of the search that the data fits; it checks the phase, then the
version, then the level, and raises `CapacityExceeded` when no pair fits. -/
def Obligations.MselChoosesTheFirstFit : Prop :=
  ∀ (s : State) (rs1 rs2 : XReg), s.fatal = false →
    (s.phase ≠ .idle → exec (.msel rs1 rs2) s = .next (s.report (.badPhase 1))) ∧
    (s.phase = .idle →
      (operand s rs1 < 1 ∨ operand s rs1 > 40 → exec (.msel rs1 rs2) s = .next (s.report (.badOperand 5))) ∧
      (1 ≤ operand s rs1 ∧ operand s rs1 ≤ 40 →
        (operand s rs2 > 3 → exec (.msel rs1 rs2) s = .next (s.report (.badOperand 6))) ∧
        (operand s rs2 ≤ 3 →
          (∀ l v, FirstFit s.dinlen (operand s rs1) (operand s rs2) l v →
            exec (.msel rs1 rs2) s =
              .next { s with sym := { s.sym with ver := BitVec.ofNat 6 v, lvl := l } }.complete) ∧
          ((∀ q ∈ searchOrder (operand s rs1) (operand s rs2), ¬DataFits s.dinlen q.2 q.1) →
            exec (.msel rs1 rs2) s = .next (s.report .capacityExceeded)))))

/-- 44_message_encoder.md R168: `MASM` writes the data codewords of the chosen version and level, whose bits are the mode
indicator, the length, the data, the terminator and the pad bytes; no version chosen raises `BadOperand(7)`, data that does
not fit `BadOperand(8)`. -/
def Obligations.MasmAssemblesTheCodewords : Prop :=
  ∀ s : State, s.fatal = false →
    (s.sym.ver = 0#6 → exec .masm s = .next (s.report (.badOperand 7))) ∧
    (∀ t w, s.sym.ver ≠ 0#6 → config.T.ec s.sym.ver.toNat s.sym.lvl = some t →
      config.T.lenbits s.sym.ver.toNat = some w →
      (¬DataFits s.dinlen s.sym.ver.toNat s.sym.lvl → exec .masm s = .next (s.report (.badOperand 8))) ∧
      (DataFits s.dinlen s.sym.ver.toNat s.sym.lvl →
        ∃ cw, exec .masm s = .next (s.setCw cw).complete ∧ cw.length = t.b1 * t.d1 + t.b2 * t.d2 ∧
          cw.flatMap byteBits = messageBits w (t.b1 * t.d1 + t.b2 * t.d2) s.dinData))

/-- 44_message_encoder.md R172 to R175: `MINT` writes the bits of the interleaved codewords of the blocks and the remainder
bits; no version chosen raises `BadOperand(7)`, a wrong codeword count `BadOperand(9)`. -/
def Obligations.MintInterleavesTheBlocks : Prop :=
  ∀ s : State, s.fatal = false →
    (s.sym.ver = 0#6 → exec .mint s = .next (s.report (.badOperand 7))) ∧
    (∀ t q, s.sym.ver ≠ 0#6 → config.T.ec s.sym.ver.toNat s.sym.lvl = some t →
      config.T.rembits s.sym.ver.toNat = some q →
      (s.cwlen ≠ t.b1 * t.d1 + t.b2 * t.d2 → exec .mint s = .next (s.report (.badOperand 9))) ∧
      (s.cwlen = t.b1 * t.d1 + t.b2 * t.d2 →
        ∃ out, Interleaved t s.cwData out ∧
          exec .mint s = .next (s.setBits (out.flatMap byteBits ++ List.replicate q false)).complete))

/-- 48_composite_commands.md R230: `MENC` completes whenever the data fits some version and level of the search: then the
version and level, the codewords and the bitstream are written and nothing else; the bitstream has the bit count of the
version. -/
def Obligations.MencCompletesWhenTheDataFits : Prop :=
  ∀ (s : State) (rs1 rs2 : XReg) (l : Level) (v : Nat), s.fatal = false → s.phase = .idle →
    1 ≤ operand s rs1 → operand s rs1 ≤ 40 → operand s rs2 ≤ 3 →
    FirstFit s.dinlen (operand s rs1) (operand s rs2) l v →
    ∃ cw bits, exec (.menc rs1 rs2) s = .next (((s.setVersionLevel v l).setCw cw).setBits bits).complete ∧
      (config.T.ec v l).map (fun t => t.b1 * t.d1 + t.b2 * t.d2) = some cw.length ∧ bitCount v l = some bits.length

/-! ### BCH strings -/

/-- 45_bch_metadata.md R185: the string of `bch(d, k, g, m)` has `k+m` bits, begins with the data, and is a multiple of the
generator over GF(2). -/
def Obligations.BchStringIsAMultipleOfTheGenerator : Prop :=
  ∀ d k g m, k ≤ 18 → d < 2 ^ k → 2 ^ m ≤ g → g < 2 ^ (m + 1) →
    bch d k g m < 2 ^ (k + m) ∧ bch d k g m >>> m = d ∧ ∃ q, q < 2 ^ k ∧ bch d k g m = gf2Product q g

/-- 45_bch_metadata.md R187, R186: `BCHFMT` writes the 15-bit string whose exclusive or with 0x5412 begins with the level bits
and the mask id and is a multiple of 0x537; the level is checked before the mask id. Rests on the constants of the standard
instance (log 1). -/
def Obligations.BchfmtWritesTheFormatString : Prop :=
  ∀ (s : State) (rd rs1 rs2 : XReg), s.fatal = false →
    (operand s rs1 > 3 → exec (.bchfmt rd rs1 rs2) s = .next (s.report (.badOperand 6))) ∧
    (operand s rs1 ≤ 3 →
      (operand s rs2 > 7 → exec (.bchfmt rd rs1 rs2) s = .next (s.report (.badOperand 10))) ∧
      (operand s rs2 ≤ 7 →
        ∃ u q, u < 2 ^ 15 ∧ exec (.bchfmt rd rs1 rs2) s = .next (s.setX rd (BitVec.ofNat 32 u)).complete ∧
          u ^^^ 0x5412 = gf2Product q 0x537 ∧
          (u ^^^ 0x5412) >>> 10 = [0b01, 0b00, 0b11, 0b10].getD (operand s rs1) 0 * 8 + operand s rs2))

/-- 45_bch_metadata.md R189, R188: `BCHVER` writes the 18-bit string that begins with the version value and is a multiple of
0x1F25; a value above 63 raises `BadOperand(11)`. Rests on a constant of the standard instance (log 1). -/
def Obligations.BchverWritesTheVersionString : Prop :=
  ∀ (s : State) (rd rs1 : XReg), s.fatal = false →
    (operand s rs1 > 63 → exec (.bchver rd rs1) s = .next (s.report (.badOperand 11))) ∧
    (operand s rs1 ≤ 63 →
      ∃ u q, u < 2 ^ 18 ∧ exec (.bchver rd rs1) s = .next (s.setX rd (BitVec.ofNat 32 u)).complete ∧
        u = gf2Product q 0x1F25 ∧ u >>> 12 = operand s rs1)

/-- 45_bch_metadata.md R190: for every legal configuration with distinct level bits, the format string determines level and
mask id, which can be read back from its bits 14:10, and the version string determines the version value. -/
def Obligations.MetadataStringsAreInjective : Prop :=
  ∀ c : Config, c.Legal → (∀ l l', c.T.lvlbits l = c.T.lvlbits l' → l = l') →
    (∀ l k, k ≤ 7 → (formatString c l k ^^^ c.T.fmtmask.toNat) >>> 10 = (c.T.lvlbits l).toNat * 8 + k) ∧
    (∀ l l' k k', k ≤ 7 → k' ≤ 7 → formatString c l k = formatString c l' k' → l = l' ∧ k = k') ∧
    (∀ v v', v ≤ 63 → v' ≤ 63 → versionString c v = versionString c v' → v = v')

/-! ### Masking, patterns, placement, margin -/

/-- 47_data_placement.md R217: `MASKB` inverts the bit in `x[RD]` exactly where the mask predicate of `SYM.MASK` holds at the
column and row; an operand out of range raises `BadOperand(12)`. Rests on the default sense of masking (log 2) and on the
standard instance (log 1). -/
def Obligations.MaskbInvertsWhereThePredicateHolds : Prop :=
  ∀ (s : State) (rd rs1 rs2 : XReg), s.fatal = false →
    (operand s rs1 ≤ 176 ∧ operand s rs2 ≤ 176 ∧ operand s rd ≤ 1 →
      exec (.maskb rd rs1 rs2) s = .next (s.setX rd (BitVec.ofNat 32
        (if config.T.maskpred s.sym.mask (operand s rs1) (operand s rs2) then 1 - operand s rd else operand s rd))).complete) ∧
    (operand s rs1 > 176 ∨ operand s rs2 > 176 ∨ operand s rd > 1 →
      exec (.maskb rd rs1 rs2) s = .next (s.report (.badOperand 12)))

/-- 47_data_placement.md R218: a bit is inverted in the cells where the predicate has the value `MASK_FLIP_WHEN`, true by
default, so masking is its own inverse, for either sense of masking and every table of predicates; issued twice on a destination
that is no source, `MASKB` restores its register. -/
def Obligations.MaskingIsItsOwnInverse : Prop :=
  ({ T := config.T : Config }.maskFlipWhen = true) ∧
  (∀ (c : Config) (k : BitVec 3) (col row : Nat) (b : Bool),
    maskBit c k col row (maskBit c k col row b) = b ∧
    (maskBit c k col row b = !b ↔ c.T.maskpred k col row = c.maskFlipWhen)) ∧
  (∀ (s t u : State) (rd rs1 rs2 : XReg), s.fatal = false → rd ≠ rs1 → rd ≠ rs2 →
    operand s rs1 ≤ 176 → operand s rs2 ≤ 176 → operand s rd ≤ 1 →
    exec (.maskb rd rs1 rs2) s = .next t → exec (.maskb rd rs1 rs2) t = .next u → u.getX rd = s.getX rd)

/-- 46_matrix_patterns.md R195, R197: `MPAT` in phase Idle with a version chosen completes: each cell holds what the last of its
writes to it wrote, a cell that none of its writes names keeps its value, the size and the phase are written, and nothing else
changes; outside Idle it raises `BadPhase(1)`, with no version chosen `BadOperand(7)`. The alignment centres are those of the
standard instance and the default `ALIGN_MIN_VERSION` (log 1, log 2), under which no other error arises. -/
def Obligations.MpatPlacesThePatterns : Prop :=
  ∀ s : State, s.fatal = false →
    (s.phase ≠ .idle → exec .mpat s = .next (s.report (.badPhase 1))) ∧
    (s.phase = .idle →
      (s.sym.ver = 0#6 → exec .mpat s = .next (s.report (.badOperand 7))) ∧
      (s.sym.ver ≠ 0#6 ∧ s.sym.ver.toNat ≤ 40 →
        ∃ m, exec .mpat s = .next (s.setMatrix m (side s.sym.ver.toNat) .patternsPlaced).complete ∧
          (∀ (pre : List Put) (p : Put) (post : List Put), patternWrites s = pre ++ p :: post →
            (∀ q ∈ post, ¬(q.col = p.col ∧ q.row = p.row)) →
            ∃ c r : Nat, p.col = (c : Int) ∧ p.row = (r : Int) ∧ c < side s.sym.ver.toNat ∧ r < side s.sym.ver.toNat ∧
              matRead m c r = p.val) ∧
          (∀ c r : Nat, (∀ p ∈ patternWrites s, ¬(p.col = (c : Int) ∧ p.row = (r : Int))) →
            matRead m c r = matRead s.mat c r)))

/-- 46_matrix_patterns.md R198 to R201, R204 to R206, R209: after `MPAT` the three corners hold the canonical finder block, each
turned as its rule says, and the black module, the timing patterns, both copies of the format string and, from version 7, the
version string stand in the cells their rules give; every cell of the patterns is set, and every other cell of the matrix is as
it was before (`Unset` in phase Idle). Rests on the standard instance and, for the cells of alignment patterns, on the default
`ALIGN_MIN_VERSION` (log 1, log 2). -/
def Obligations.MpatLeavesTheCanonicalCells : Prop :=
  ∀ (s t : State) (v size : Nat), s.fatal = false → s.phase = .idle → v = s.sym.ver.toNat → 1 ≤ v → v ≤ 40 →
    size = side v → exec .mpat s = .next t →
    (∀ c < 8, ∀ r < 8, matRead t.mat c r = finderDrawing r c ∧
      matRead t.mat (size - 8 + c) r = finderDrawing (7 - c) r ∧
      matRead t.mat c (size - 8 + r) = finderDrawing c (7 - r)) ∧
    matRead t.mat 8 (size - 8) = .dark ∧
    (∀ i, 8 ≤ i → i ≤ size - 9 →
      matRead t.mat i 6 = bitCell (i % 2 = 0) ∧ matRead t.mat 6 i = bitCell (i % 2 = 0)) ∧
    (∀ i < 15,
      matRead t.mat (formatCopy1.getD i (0, 0)).1 (formatCopy1.getD i (0, 0)).2 =
        bitCell ((formatString config s.sym.lvl s.sym.mask.toNat).testBit i) ∧
      matRead t.mat ((formatCopy2 size).getD i (0, 0)).1 ((formatCopy2 size).getD i (0, 0)).2 =
        bitCell ((formatString config s.sym.lvl s.sym.mask.toNat).testBit i)) ∧
    (7 ≤ v → ∀ i < 18,
      matRead t.mat (size - 11 + i % 3) (i / 3) = bitCell ((versionString config v).testBit i) ∧
      matRead t.mat (i / 3) (size - 11 + i % 3) = bitCell ((versionString config v).testBit i)) ∧
    (∀ c < size, ∀ r < size, patternCell v c r = true → matRead t.mat c r ≠ .unset) ∧
    (∀ c r, ¬(c < size ∧ r < size ∧ patternCell v c r = true) → matRead t.mat c r = matRead s.mat c r)

/-- 46_matrix_patterns.md R202, R203, R207: from version 2 on, every pair of alignment coordinates of the version whose 5×5
square meets no finder block is the centre of an alignment pattern after `MPAT`: dark ring, light ring, dark centre. Rests on
the standard instance and the default `ALIGN_MIN_VERSION` (log 1, log 2). -/
def Obligations.MpatLeavesTheAlignmentPatterns : Prop :=
  ∀ (s t : State) (v size cx cy : Nat) (ls : List Nat), s.fatal = false → s.phase = .idle → v = s.sym.ver.toNat →
    2 ≤ v → v ≤ 40 → size = side v → config.T.align v = some ls → cx ∈ ls → cy ∈ ls →
    ¬(cx ≤ 9 ∧ cy ≤ 9) → ¬(cx + 10 ≥ size ∧ cy ≤ 9) → ¬(cx ≤ 9 ∧ cy + 10 ≥ size) → exec .mpat s = .next t →
    ∀ dc < 5, ∀ dr < 5, matRead t.mat (cx - 2 + dc) (cy - 2 + dr) =
      if (dc = 1 ∨ dc = 3) ∧ 1 ≤ dr ∧ dr ≤ 3 ∨ (dr = 1 ∨ dr = 3) ∧ 1 ≤ dc ∧ dc ≤ 3 then .light else .dark

/-- 46_matrix_patterns.md R209 for versions 1 to 7: the cells `MPAT` leaves `Unset` are as many as the bits `MINT` produces
(208, 359, 567, 807, 1079, 1383, 1568). Rests on the standard instance (log 1) and on the default
`ALIGN_MIN_VERSION` (log 2; with 3 version 2 would have 384). For every version the equality is part of the statement that
`MRENDER` completes. -/
def Obligations.FreeCellsEqualBitsUpToVersionSeven : Prop :=
  ∀ v, 1 ≤ v → v ≤ 7 → LayoutCloses v ∧ bitCount v .L = [208, 359, 567, 807, 1079, 1383, 1568][v - 1]?

/-- 47_data_placement.md R216: the zig-zag sequence of an odd side of at least 21 takes the pairs of columns from the right, the
first upward and then alternately, in each row the right cell before the left one; it visits each cell outside column 6 exactly
once and no cell of column 6. -/
def Obligations.ZigzagVisitsEachCellOnce : Prop :=
  ∀ size, 21 ≤ size → size % 2 = 1 →
    (∀ k < (size - 1) / 2, ∀ i < size,
      (zigzag size)[2 * (k * size + i)]? =
        some (leftColumn size k + 1, if k % 2 = 0 then size - 1 - i else i) ∧
      (zigzag size)[2 * (k * size + i) + 1]? =
        some (leftColumn size k, if k % 2 = 0 then size - 1 - i else i)) ∧
    (zigzag size).Nodup ∧ (zigzag size).length = size * (size - 1) ∧
    (∀ c r, (c, r) ∈ zigzag size ↔ c < size ∧ r < size ∧ c ≠ 6)

/-- 47_data_placement.md R219, R220, R221: `MDATA` writes the masked bits to the free cells in placement order and changes no
other cell; more bits than free cells raise `LayoutMismatch(1)`, a phase other than PatternsPlaced `BadPhase(2)`. Rests on the
default sense of masking (log 2). -/
def Obligations.MdataFillsTheFreeCellsInOrder : Prop :=
  ∀ s : State, s.fatal = false →
    (s.phase ≠ .patternsPlaced → exec .mdata s = .next (s.report (.badPhase 2))) ∧
    (s.phase = .patternsPlaced →
      (s.bitlen > (freeCells s.mat s.matsize).length → exec .mdata s = .next (s.report (.layoutMismatch 1))) ∧
      (s.bitlen ≤ (freeCells s.mat s.matsize).length →
        ∃ m, exec .mdata s = .next (s.setMatrix m s.matsize .dataInserted).complete ∧
          (∀ j < s.bitlen, ∀ q, (freeCells s.mat s.matsize)[j]? = some q →
            matRead m q.1 q.2 = bitCell (Memory.read false s.bits j ^^ config.T.maskpred s.sym.mask q.1 q.2)) ∧
          (∀ c r, (c, r) ∉ (freeCells s.mat s.matsize).take s.bitlen → matRead m c r = matRead s.mat c r)))

/-- 47_data_placement.md R222: `MMARGIN` frames a symbol with no `Unset` cell by 4 light cells on every side (the default
`MARGIN`, log 2), moving the core, and changes no cell outside the frame; a leftover `Unset` cell raises `LayoutMismatch(2)`,
a phase other than DataInserted `BadPhase(3)`. -/
def Obligations.MmarginFramesTheSymbol : Prop :=
  ∀ s : State, s.fatal = false →
    (s.phase ≠ .dataInserted → exec .mmargin s = .next (s.report (.badPhase 3))) ∧
    (s.phase = .dataInserted →
      ((∃ c < s.matsize, ∃ r < s.matsize, matRead s.mat c r = .unset) →
        exec .mmargin s = .next (s.report (.layoutMismatch 2))) ∧
      ((∀ c < s.matsize, ∀ r < s.matsize, matRead s.mat c r ≠ .unset) →
        ∃ m, exec .mmargin s = .next (s.setMatrix m (s.matsize + 8) .marginApplied).complete ∧
          (∀ c < s.matsize, ∀ r < s.matsize, matRead m (c + 4) (r + 4) = matRead s.mat c r) ∧
          (∀ c < s.matsize + 8, ∀ r < s.matsize + 8, ¬(4 ≤ c ∧ c < s.matsize + 4 ∧ 4 ≤ r ∧ r < s.matsize + 4) →
            matRead m c r = .light) ∧
          (∀ c r, ¬(c < s.matsize + 8 ∧ r < s.matsize + 8) → matRead m c r = matRead s.mat c r)))

/-- 48_composite_commands.md R230 to R233: `MENC` is `MSEL`, `MASM`, `MINT` as one transaction, `MRENDER` is `MPAT`, `MDATA`,
`MMARGIN` as one, and `QRENC` is `MENC` and `MRENDER` as one: the state the parts would leave one after the other, or the report
of the first part that fails and nothing else. That `MASM` and `MINT` do not fail once `MSEL` has chosen rests on the standard
instance (log 1). -/
def Obligations.CompositesAreTheirPartsAsOneTransaction : Prop :=
  (∀ (s s1 s2 s3 : State) (rs1 rs2 : XReg), s.fatal = false →
    exec (.msel rs1 rs2) s = .next s1 → exec .masm s1 = .next s2 → exec .mint s2 = .next s3 →
    (s1.err ≠ .ok → exec (.menc rs1 rs2) s = .next (failedAs s s1)) ∧
    (s1.err = .ok → s2.err = .ok ∧ s3.err = .ok ∧ exec (.menc rs1 rs2) s = .next s3)) ∧
  (∀ s s1 s2 s3 : State, s.fatal = false →
    exec .mpat s = .next s1 → exec .mdata s1 = .next s2 → exec .mmargin s2 = .next s3 →
    (s1.err ≠ .ok → exec .mrender s = .next (failedAs s s1)) ∧
    (s1.err = .ok → s2.err ≠ .ok → exec .mrender s = .next (failedAs s s2)) ∧
    (s1.err = .ok → s2.err = .ok → s3.err ≠ .ok → exec .mrender s = .next (failedAs s s3)) ∧
    (s1.err = .ok → s2.err = .ok → s3.err = .ok → exec .mrender s = .next s3)) ∧
  (∀ (s s1 s2 : State) (rs1 rs2 : XReg), s.fatal = false →
    exec (.menc rs1 rs2) s = .next s1 → exec .mrender s1 = .next s2 →
    (s1.err ≠ .ok → exec (.qrenc rs1 rs2) s = .next (failedAs s s1)) ∧
    (s1.err = .ok → s2.err ≠ .ok → exec (.qrenc rs1 rs2) s = .next (failedAs s s2)) ∧
    (s1.err = .ok → s2.err = .ok → exec (.qrenc rs1 rs2) s = .next s2))

/-- 48_composite_commands.md R231, R233, 46_matrix_patterns.md R209, 10_state.md R46: for every version, `MRENDER` in phase Idle
(every cell `Unset`) with a bitstream of the version's bit count completes. `MPAT` and `MDATA` complete from the same state,
`MPAT` leaving as many free cells as there are bits; the finished matrix is the core they leave, framed, with no `Unset` cell;
nothing but the matrix, its size, the phase and the report changes. Rests on the standard instance and the default parameters
(log 1, log 2). -/
def Obligations.MrenderCompletesWhenTheBitsFillTheSymbol : Prop :=
  ∀ (s : State) (v : Nat) (l : Level), s.fatal = false → s.phase = .idle → (∀ c r, matRead s.mat c r = .unset) →
    v = s.sym.ver.toNat → 1 ≤ v → v ≤ 40 → bitCount v l = some s.bitlen →
    ∃ t1 t2 m, exec .mpat s = .next t1 ∧ t1.err = .ok ∧ (freeCells t1.mat t1.matsize).length = s.bitlen ∧
      exec .mdata t1 = .next t2 ∧ t2.err = .ok ∧
      exec .mrender s = .next (s.setMatrix m (side v + 8) .marginApplied).complete ∧ Framed (side v) t2.mat m

/-- 48_composite_commands.md R232, R233, 10_state.md R46: `QRENC` in phase Idle (every cell `Unset`), with operands in range and
data that fits some version and level of the search, completes, whatever that version is: `SYM`, the codewords and bits that
`MENC` writes, and the framed matrix of the core that `MPAT` and `MDATA` then leave are written, no cell of the symbol is
`Unset`, and nothing else but the size, the phase and the report changes. Rests on the standard instance and the default
parameters (log 1, log 2). -/
def Obligations.QrencCompletesWhenTheDataFits : Prop :=
  ∀ (s : State) (rs1 rs2 : XReg) (l : Level) (v : Nat), s.fatal = false → s.phase = .idle →
    (∀ c r, matRead s.mat c r = .unset) → 1 ≤ operand s rs1 → operand s rs1 ≤ 40 → operand s rs2 ≤ 3 →
    FirstFit s.dinlen (operand s rs1) (operand s rs2) l v →
    ∃ t0 t1 t2 m, exec (.menc rs1 rs2) s = .next t0 ∧ t0.err = .ok ∧ exec .mpat t0 = .next t1 ∧ t1.err = .ok ∧
      exec .mdata t1 = .next t2 ∧ t2.err = .ok ∧
      exec (.qrenc rs1 rs2) s = .next ((((s.setVersionLevel v l).setCw t0.cwData).setBits t0.bitData).setMatrix m
        (side v + 8) .marginApplied).complete ∧ Framed (side v) t2.mat m

/-! ### Errors of an arbitrary configuration -/

/-- 21_static_tables.md R91, R93, R94, R98, 44_message_encoder.md R166, R168, R169, R172, 46_matrix_patterns.md R197,
48_composite_commands.md R230 to R233, 60_exceptions.md R242: whatever `T` is, each command that queries `T` at a key where the
value is undefined or counts as undefined raises `MalformedLookup` with the table code and the key of the first such query, sets
`FATAL` and changes nothing else. In the test of R93 an undefined `T.rembits` counts as 0: the model's choice (log 8), on which
the clauses with a hole of `T.rembits` alone rest. -/
def Obligations.MalformedLookupIsFatalForEveryTable : Prop :=
  ∀ (c : Config) (s : State), s.fatal = false →
    -- `MASM`: `T.ec`, then `T.lenbits`
    (s.sym.ver ≠ 0#6 →
      (EcUndefined c s.sym.ver.toNat s.sym.lvl →
        command (masmBody c) s = .next (lookupReport s 1 s.sym.ver.toNat s.sym.lvl)) ∧
      (¬EcUndefined c s.sym.ver.toNat s.sym.lvl → LenbitsUndefined c s.sym.ver.toNat →
        command (masmBody c) s = .next (lookupReport s 2 s.sym.ver.toNat .L))) ∧
    -- `MINT`: `T.ec`, then `T.rembits`
    (s.sym.ver ≠ 0#6 →
      (EcUndefined c s.sym.ver.toNat s.sym.lvl →
        command (mintBody c) s = .next (lookupReport s 1 s.sym.ver.toNat s.sym.lvl)) ∧
      (¬EcUndefined c s.sym.ver.toNat s.sym.lvl → RembitsUndefined c s.sym.ver.toNat →
        (∀ t, c.T.ec s.sym.ver.toNat s.sym.lvl = some t → s.cwlen = t.b1 * t.d1 + t.b2 * t.d2) →
        command (mintBody c) s = .next (lookupReport s 3 s.sym.ver.toNat .L))) ∧
    -- `MPAT` and `MRENDER`: `T.align`
    (s.sym.ver ≠ 0#6 → s.phase = .idle → c.alignMinVersion ≤ s.sym.ver.toNat → c.T.align s.sym.ver.toNat = none →
      command (mpatBody c) s = .next (lookupReport s 4 s.sym.ver.toNat .L) ∧
      command (mrenderBody c) s = .next (lookupReport s 4 s.sym.ver.toNat .L)) ∧
    -- `MSEL`, `MENC`, `QRENC`: the first pair of the search that is not passed over
    (s.phase = .idle → ∀ rs1 rs2 pre l v post, 1 ≤ operand s rs1 → operand s rs1 ≤ 40 → operand s rs2 ≤ 3 →
      searchOrder (operand s rs1) (operand s rs2) = pre ++ (l, v) :: post →
      (∀ q ∈ pre, ¬EcUndefined c q.2 q.1 ∧ ¬LenbitsUndefined c q.2 ∧ ¬FitsUnder c s.dinlen q.2 q.1) →
      (EcUndefined c v l →
        command (mselBody c rs1 rs2) s = .next (lookupReport s 1 v l) ∧
        command (mencBody c rs1 rs2) s = .next (lookupReport s 1 v l) ∧
        command (qrencBody c rs1 rs2) s = .next (lookupReport s 1 v l)) ∧
      (¬EcUndefined c v l → LenbitsUndefined c v →
        command (mselBody c rs1 rs2) s = .next (lookupReport s 2 v .L) ∧
        command (mencBody c rs1 rs2) s = .next (lookupReport s 2 v .L) ∧
        command (qrencBody c rs1 rs2) s = .next (lookupReport s 2 v .L)) ∧
      (¬EcUndefined c v l → ¬LenbitsUndefined c v → FitsUnder c s.dinlen v l →
        (RembitsUndefined c v →
          command (mencBody c rs1 rs2) s = .next (lookupReport s 3 v .L) ∧
          command (qrencBody c rs1 rs2) s = .next (lookupReport s 3 v .L)) ∧
        (¬RembitsUndefined c v → c.alignMinVersion ≤ v → c.T.align v = none →
          command (qrencBody c rs1 rs2) s = .next (lookupReport s 4 v .L))))

/-- 60_exceptions.md R241, 46_matrix_patterns.md R195, R203: whatever else `T` holds, an alignment centre that is not skipped
and lies nearer than 2 cells to the right and lower edges or beyond them makes `MPAT` raise `PlacementOverflow(5)`, which sets
`FATAL` and changes nothing else. -/
def Obligations.PlacementOverflowIsFatal : Prop :=
  ∀ (c : Config) (s : State) (a : Nat), s.fatal = false → s.phase = .idle → s.sym.ver ≠ 0#6 →
    c.alignMinVersion ≤ s.sym.ver.toNat → c.T.align s.sym.ver.toNat = some [a] → a + 2 ≥ side s.sym.ver.toNat →
    command (mpatBody c) s = .next { s with err := .placementOverflow, fatal := true, finfo := { what := 5#8 } }

/-! ### Rules of the whole machine -/

/-- 10_state.md R37: the phase changes only by `MPAT`, `MDATA`, `MMARGIN`, the two composites, and reset to Idle. -/
def Obligations.PhaseMovesOnlyForward : Prop :=
  (∀ (i : Instr) (s t : State), exec i s = .next t →
    t.phase = s.phase ∨
    (i = .mpat ∧ s.phase = .idle ∧ t.phase = .patternsPlaced) ∨
    (i = .mdata ∧ s.phase = .patternsPlaced ∧ t.phase = .dataInserted) ∨
    (i = .mmargin ∧ s.phase = .dataInserted ∧ t.phase = .marginApplied) ∨
    ((i = .mrender ∨ ∃ rs1 rs2, i = .qrenc rs1 rs2) ∧ s.phase = .idle ∧ t.phase = .marginApplied)) ∧
  (∀ (s : State) (a : Addr) (v : Word), (memWrite s a v).phase = s.phase ∨
    (a = 0x00003#20 ∧ v.getLsbD 0 = true ∧ (memWrite s a v).phase = .idle))

/-- 47_data_placement.md R223: after phase MarginApplied no command changes the matrix, its size, `SYM` or the phase. -/
def Obligations.FinishedSymbolIsNeverMutated : Prop :=
  ∀ (i : Instr) (s t : State), s.phase = .marginApplied → exec i s = .next t →
    t.mat = s.mat ∧ t.matsize = s.matsize ∧ t.sym = s.sym ∧ t.phase = s.phase

/-- 10_state.md R22, R24, R48: a command changes no scalar register but the one its `RD` names and no polynomial register but
the one its `PD` names, and keeps the term words beyond the new length. -/
def Obligations.CommandsWriteOnlyTheRegistersTheyName : Prop :=
  ∀ (i : Instr) (s t : State), exec i s = .next t →
    (∀ r, destX i ≠ some r → t.getX r = s.getX r) ∧
    (∀ q, destP i ≠ some q → t.getPoly q = s.getPoly q) ∧
    (∀ q, ∀ k ≥ (t.getPoly q).len,
      Memory.read 0#32 (t.getPoly q).terms k = Memory.read 0#32 (s.getPoly q).terms k)

/-- 10_state.md R41 to R44, R48, 20_memory.md R65: no command writes `DIN`; each other buffer is written only by the commands
whose rules name it, and elements at and beyond the new length keep their values. -/
def Obligations.CommandsWriteOnlyTheBuffersTheirRulesName : Prop :=
  ∀ (i : Instr) (s t : State), exec i s = .next t →
    t.din = s.din ∧ t.dinlen = s.dinlen ∧
    (writesCw i = false → t.cw = s.cw ∧ t.cwlen = s.cwlen) ∧
    (writesBits i = false → t.bits = s.bits ∧ t.bitlen = s.bitlen) ∧
    (writesEcc i = false → t.ecc = s.ecc ∧ t.ecclen = s.ecclen) ∧
    (∀ k ≥ t.cwlen, Memory.read 0#8 t.cw k = Memory.read 0#8 s.cw k) ∧
    (∀ k ≥ t.bitlen, Memory.read false t.bits k = Memory.read false s.bits k) ∧
    (∀ k ≥ t.ecclen, Memory.read 0#8 t.ecc k = Memory.read 0#8 s.ecc k)

/-- 10_state.md R33 to R35, R37, R46: `SYM.VER` and `SYM.LVL` are written by the selecting commands only, `SYM.MASK` by none,
the matrix, its size and the phase by the render commands only; no command touches the host's accesses or replies. -/
def Obligations.CommandsWriteSymAndMatrixOnlyWhereTheirRulesSay : Prop :=
  ∀ (i : Instr) (s t : State), exec i s = .next t →
    (writesSym i = false → t.sym = s.sym) ∧ t.sym.mask = s.sym.mask ∧
    (writesMatrix i = false → t.mat = s.mat ∧ t.matsize = s.matsize ∧ t.phase = s.phase) ∧
    t.pending = s.pending ∧ t.replies = s.replies

/-- 48_composite_commands.md R232: the encoder is a pure function of `DIN[0..DINLEN)`, the two operands and `SYM.MASK`: two
states that agree on these, both in phase Idle with an empty matrix and no fatal error, get the same report, symbol attributes,
codewords, bits, matrix and phase. -/
def Obligations.EncoderIsAPureFunctionOfItsInputs : Prop :=
  ∀ (s s' t t' : State) (rs1 rs2 rs1' rs2' : XReg),
    s.fatal = false → s'.fatal = false → s.phase = .idle → s'.phase = .idle →
    s.mat = [] → s'.mat = [] → s.matsize = s'.matsize →
    s.dinData = s'.dinData → operand s rs1 = operand s' rs1' → operand s rs2 = operand s' rs2' →
    s.sym.mask = s'.sym.mask →
    exec (.qrenc rs1 rs2) s = .next t → exec (.qrenc rs1' rs2') s' = .next t' →
    t.err = t'.err ∧ t.finfo = t'.finfo ∧ t.fatal = t'.fatal ∧ t.mat = t'.mat ∧ t.matsize = t'.matsize ∧
    t.phase = t'.phase ∧
    (t.err = .ok → t.sym = t'.sym ∧ t.cwData = t'.cwData ∧ t.bitData = t'.bitData)

/-! ### The invariant -/

/-- The invariant holds after reset. -/
def Obligations.ResetMeetsTheInvariant : Prop := Inv State.reset

/-- 10_state.md R46, R33: every step keeps the matrix in step with the phase: the size the rule gives, no cell set outside the
square in use, a version of at most 40, chosen outside phase Idle, and no `Unset` cell in a finished symbol. -/
def Obligations.StepKeepsTheMatrixInStepWithThePhase : Prop :=
  ∀ s t : State, Inv s → step s = .next t → MatrixInv config t

/-- 10_state.md R39, R40: every step keeps `FATAL` equal to "the reported error is a fatal one", and `FINFO` at 0 while no
error is reported. -/
def Obligations.StepKeepsTheReportConsistent : Prop :=
  ∀ s t : State, ReportInv s → step s = .next t → ReportInv t

/-- From a state that meets the invariant every step answers a next state that meets it: the machine never stops. -/
def Obligations.StepKeepsTheInvariant : Prop :=
  ∀ s : State, Inv s → ∃ t, step s = .next t ∧ Inv t
end

