-- ==== Sys2Proof/Laws/State.lean ====
section
/-! SUPPORT. One lemma per field of State for each of its updates, true by `rfl`, so that no later proof unfolds a record
update; and what the updates write, read back. -/

namespace Sys2Proof.Machine

/-! ### setX -/

@[simp] theorem State.setX_x (s : State) (i : XReg) (v : Word) : (s.setX i v).x = s.x.set i.val v := rfl
@[simp] theorem State.setX_p (s : State) (i : XReg) (v : Word) : (s.setX i v).p = s.p := rfl
@[simp] theorem State.setX_sym (s : State) (i : XReg) (v : Word) : (s.setX i v).sym = s.sym := rfl
@[simp] theorem State.setX_phase (s : State) (i : XReg) (v : Word) : (s.setX i v).phase = s.phase := rfl
@[simp] theorem State.setX_err (s : State) (i : XReg) (v : Word) : (s.setX i v).err = s.err := rfl
@[simp] theorem State.setX_fatal (s : State) (i : XReg) (v : Word) : (s.setX i v).fatal = s.fatal := rfl
@[simp] theorem State.setX_finfo (s : State) (i : XReg) (v : Word) : (s.setX i v).finfo = s.finfo := rfl
@[simp] theorem State.setX_dinlen (s : State) (i : XReg) (v : Word) : (s.setX i v).dinlen = s.dinlen := rfl
@[simp] theorem State.setX_din (s : State) (i : XReg) (v : Word) : (s.setX i v).din = s.din := rfl
@[simp] theorem State.setX_cwlen (s : State) (i : XReg) (v : Word) : (s.setX i v).cwlen = s.cwlen := rfl
@[simp] theorem State.setX_cw (s : State) (i : XReg) (v : Word) : (s.setX i v).cw = s.cw := rfl
@[simp] theorem State.setX_ecclen (s : State) (i : XReg) (v : Word) : (s.setX i v).ecclen = s.ecclen := rfl
@[simp] theorem State.setX_ecc (s : State) (i : XReg) (v : Word) : (s.setX i v).ecc = s.ecc := rfl
@[simp] theorem State.setX_bitlen (s : State) (i : XReg) (v : Word) : (s.setX i v).bitlen = s.bitlen := rfl
@[simp] theorem State.setX_bits (s : State) (i : XReg) (v : Word) : (s.setX i v).bits = s.bits := rfl
@[simp] theorem State.setX_matsize (s : State) (i : XReg) (v : Word) : (s.setX i v).matsize = s.matsize := rfl
@[simp] theorem State.setX_mat (s : State) (i : XReg) (v : Word) : (s.setX i v).mat = s.mat := rfl
@[simp] theorem State.setX_pending (s : State) (i : XReg) (v : Word) : (s.setX i v).pending = s.pending := rfl
@[simp] theorem State.setX_replies (s : State) (i : XReg) (v : Word) : (s.setX i v).replies = s.replies := rfl

/-! ### setPoly -/

@[simp] theorem State.setPoly_x (s : State) (i : PReg) (ts : List Term) : (s.setPoly i ts).x = s.x := rfl
@[simp] theorem State.setPoly_p (s : State) (i : PReg) (ts : List Term) : (s.setPoly i ts).p = s.p.set i.val { len := ts.length, terms := Memory.splice 0#32 (s.getPoly i).terms 0 (ts.map Term.toWord) } := rfl
@[simp] theorem State.setPoly_sym (s : State) (i : PReg) (ts : List Term) : (s.setPoly i ts).sym = s.sym := rfl
@[simp] theorem State.setPoly_phase (s : State) (i : PReg) (ts : List Term) : (s.setPoly i ts).phase = s.phase := rfl
@[simp] theorem State.setPoly_err (s : State) (i : PReg) (ts : List Term) : (s.setPoly i ts).err = s.err := rfl
@[simp] theorem State.setPoly_fatal (s : State) (i : PReg) (ts : List Term) : (s.setPoly i ts).fatal = s.fatal := rfl
@[simp] theorem State.setPoly_finfo (s : State) (i : PReg) (ts : List Term) : (s.setPoly i ts).finfo = s.finfo := rfl
@[simp] theorem State.setPoly_dinlen (s : State) (i : PReg) (ts : List Term) : (s.setPoly i ts).dinlen = s.dinlen := rfl
@[simp] theorem State.setPoly_din (s : State) (i : PReg) (ts : List Term) : (s.setPoly i ts).din = s.din := rfl
@[simp] theorem State.setPoly_cwlen (s : State) (i : PReg) (ts : List Term) : (s.setPoly i ts).cwlen = s.cwlen := rfl
@[simp] theorem State.setPoly_cw (s : State) (i : PReg) (ts : List Term) : (s.setPoly i ts).cw = s.cw := rfl
@[simp] theorem State.setPoly_ecclen (s : State) (i : PReg) (ts : List Term) : (s.setPoly i ts).ecclen = s.ecclen := rfl
@[simp] theorem State.setPoly_ecc (s : State) (i : PReg) (ts : List Term) : (s.setPoly i ts).ecc = s.ecc := rfl
@[simp] theorem State.setPoly_bitlen (s : State) (i : PReg) (ts : List Term) : (s.setPoly i ts).bitlen = s.bitlen := rfl
@[simp] theorem State.setPoly_bits (s : State) (i : PReg) (ts : List Term) : (s.setPoly i ts).bits = s.bits := rfl
@[simp] theorem State.setPoly_matsize (s : State) (i : PReg) (ts : List Term) : (s.setPoly i ts).matsize = s.matsize := rfl
@[simp] theorem State.setPoly_mat (s : State) (i : PReg) (ts : List Term) : (s.setPoly i ts).mat = s.mat := rfl
@[simp] theorem State.setPoly_pending (s : State) (i : PReg) (ts : List Term) : (s.setPoly i ts).pending = s.pending := rfl
@[simp] theorem State.setPoly_replies (s : State) (i : PReg) (ts : List Term) : (s.setPoly i ts).replies = s.replies := rfl

/-! ### setCw -/

@[simp] theorem State.setCw_x (s : State) (vs : List Byte) : (s.setCw vs).x = s.x := rfl
@[simp] theorem State.setCw_p (s : State) (vs : List Byte) : (s.setCw vs).p = s.p := rfl
@[simp] theorem State.setCw_sym (s : State) (vs : List Byte) : (s.setCw vs).sym = s.sym := rfl
@[simp] theorem State.setCw_phase (s : State) (vs : List Byte) : (s.setCw vs).phase = s.phase := rfl
@[simp] theorem State.setCw_err (s : State) (vs : List Byte) : (s.setCw vs).err = s.err := rfl
@[simp] theorem State.setCw_fatal (s : State) (vs : List Byte) : (s.setCw vs).fatal = s.fatal := rfl
@[simp] theorem State.setCw_finfo (s : State) (vs : List Byte) : (s.setCw vs).finfo = s.finfo := rfl
@[simp] theorem State.setCw_dinlen (s : State) (vs : List Byte) : (s.setCw vs).dinlen = s.dinlen := rfl
@[simp] theorem State.setCw_din (s : State) (vs : List Byte) : (s.setCw vs).din = s.din := rfl
@[simp] theorem State.setCw_cwlen (s : State) (vs : List Byte) : (s.setCw vs).cwlen = vs.length := rfl
@[simp] theorem State.setCw_cw (s : State) (vs : List Byte) : (s.setCw vs).cw = Memory.splice 0#8 s.cw 0 vs := rfl
@[simp] theorem State.setCw_ecclen (s : State) (vs : List Byte) : (s.setCw vs).ecclen = s.ecclen := rfl
@[simp] theorem State.setCw_ecc (s : State) (vs : List Byte) : (s.setCw vs).ecc = s.ecc := rfl
@[simp] theorem State.setCw_bitlen (s : State) (vs : List Byte) : (s.setCw vs).bitlen = s.bitlen := rfl
@[simp] theorem State.setCw_bits (s : State) (vs : List Byte) : (s.setCw vs).bits = s.bits := rfl
@[simp] theorem State.setCw_matsize (s : State) (vs : List Byte) : (s.setCw vs).matsize = s.matsize := rfl
@[simp] theorem State.setCw_mat (s : State) (vs : List Byte) : (s.setCw vs).mat = s.mat := rfl
@[simp] theorem State.setCw_pending (s : State) (vs : List Byte) : (s.setCw vs).pending = s.pending := rfl
@[simp] theorem State.setCw_replies (s : State) (vs : List Byte) : (s.setCw vs).replies = s.replies := rfl

/-! ### setEcc -/

@[simp] theorem State.setEcc_x (s : State) (vs : List Byte) : (s.setEcc vs).x = s.x := rfl
@[simp] theorem State.setEcc_p (s : State) (vs : List Byte) : (s.setEcc vs).p = s.p := rfl
@[simp] theorem State.setEcc_sym (s : State) (vs : List Byte) : (s.setEcc vs).sym = s.sym := rfl
@[simp] theorem State.setEcc_phase (s : State) (vs : List Byte) : (s.setEcc vs).phase = s.phase := rfl
@[simp] theorem State.setEcc_err (s : State) (vs : List Byte) : (s.setEcc vs).err = s.err := rfl
@[simp] theorem State.setEcc_fatal (s : State) (vs : List Byte) : (s.setEcc vs).fatal = s.fatal := rfl
@[simp] theorem State.setEcc_finfo (s : State) (vs : List Byte) : (s.setEcc vs).finfo = s.finfo := rfl
@[simp] theorem State.setEcc_dinlen (s : State) (vs : List Byte) : (s.setEcc vs).dinlen = s.dinlen := rfl
@[simp] theorem State.setEcc_din (s : State) (vs : List Byte) : (s.setEcc vs).din = s.din := rfl
@[simp] theorem State.setEcc_cwlen (s : State) (vs : List Byte) : (s.setEcc vs).cwlen = s.cwlen := rfl
@[simp] theorem State.setEcc_cw (s : State) (vs : List Byte) : (s.setEcc vs).cw = s.cw := rfl
@[simp] theorem State.setEcc_ecclen (s : State) (vs : List Byte) : (s.setEcc vs).ecclen = vs.length := rfl
@[simp] theorem State.setEcc_ecc (s : State) (vs : List Byte) : (s.setEcc vs).ecc = Memory.splice 0#8 s.ecc 0 vs := rfl
@[simp] theorem State.setEcc_bitlen (s : State) (vs : List Byte) : (s.setEcc vs).bitlen = s.bitlen := rfl
@[simp] theorem State.setEcc_bits (s : State) (vs : List Byte) : (s.setEcc vs).bits = s.bits := rfl
@[simp] theorem State.setEcc_matsize (s : State) (vs : List Byte) : (s.setEcc vs).matsize = s.matsize := rfl
@[simp] theorem State.setEcc_mat (s : State) (vs : List Byte) : (s.setEcc vs).mat = s.mat := rfl
@[simp] theorem State.setEcc_pending (s : State) (vs : List Byte) : (s.setEcc vs).pending = s.pending := rfl
@[simp] theorem State.setEcc_replies (s : State) (vs : List Byte) : (s.setEcc vs).replies = s.replies := rfl

/-! ### setBits -/

@[simp] theorem State.setBits_x (s : State) (vs : List Bool) : (s.setBits vs).x = s.x := rfl
@[simp] theorem State.setBits_p (s : State) (vs : List Bool) : (s.setBits vs).p = s.p := rfl
@[simp] theorem State.setBits_sym (s : State) (vs : List Bool) : (s.setBits vs).sym = s.sym := rfl
@[simp] theorem State.setBits_phase (s : State) (vs : List Bool) : (s.setBits vs).phase = s.phase := rfl
@[simp] theorem State.setBits_err (s : State) (vs : List Bool) : (s.setBits vs).err = s.err := rfl
@[simp] theorem State.setBits_fatal (s : State) (vs : List Bool) : (s.setBits vs).fatal = s.fatal := rfl
@[simp] theorem State.setBits_finfo (s : State) (vs : List Bool) : (s.setBits vs).finfo = s.finfo := rfl
@[simp] theorem State.setBits_dinlen (s : State) (vs : List Bool) : (s.setBits vs).dinlen = s.dinlen := rfl
@[simp] theorem State.setBits_din (s : State) (vs : List Bool) : (s.setBits vs).din = s.din := rfl
@[simp] theorem State.setBits_cwlen (s : State) (vs : List Bool) : (s.setBits vs).cwlen = s.cwlen := rfl
@[simp] theorem State.setBits_cw (s : State) (vs : List Bool) : (s.setBits vs).cw = s.cw := rfl
@[simp] theorem State.setBits_ecclen (s : State) (vs : List Bool) : (s.setBits vs).ecclen = s.ecclen := rfl
@[simp] theorem State.setBits_ecc (s : State) (vs : List Bool) : (s.setBits vs).ecc = s.ecc := rfl
@[simp] theorem State.setBits_bitlen (s : State) (vs : List Bool) : (s.setBits vs).bitlen = vs.length := rfl
@[simp] theorem State.setBits_bits (s : State) (vs : List Bool) : (s.setBits vs).bits = Memory.splice false s.bits 0 vs := rfl
@[simp] theorem State.setBits_matsize (s : State) (vs : List Bool) : (s.setBits vs).matsize = s.matsize := rfl
@[simp] theorem State.setBits_mat (s : State) (vs : List Bool) : (s.setBits vs).mat = s.mat := rfl
@[simp] theorem State.setBits_pending (s : State) (vs : List Bool) : (s.setBits vs).pending = s.pending := rfl
@[simp] theorem State.setBits_replies (s : State) (vs : List Bool) : (s.setBits vs).replies = s.replies := rfl

/-! ### setVersionLevel -/

@[simp] theorem State.setVersionLevel_x (s : State) (v : Nat) (l : Level) : (s.setVersionLevel v l).x = s.x := rfl
@[simp] theorem State.setVersionLevel_p (s : State) (v : Nat) (l : Level) : (s.setVersionLevel v l).p = s.p := rfl
@[simp] theorem State.setVersionLevel_sym (s : State) (v : Nat) (l : Level) : (s.setVersionLevel v l).sym = { s.sym with ver := BitVec.ofNat 6 v, lvl := l } := rfl
@[simp] theorem State.setVersionLevel_phase (s : State) (v : Nat) (l : Level) : (s.setVersionLevel v l).phase = s.phase := rfl
@[simp] theorem State.setVersionLevel_err (s : State) (v : Nat) (l : Level) : (s.setVersionLevel v l).err = s.err := rfl
@[simp] theorem State.setVersionLevel_fatal (s : State) (v : Nat) (l : Level) : (s.setVersionLevel v l).fatal = s.fatal := rfl
@[simp] theorem State.setVersionLevel_finfo (s : State) (v : Nat) (l : Level) : (s.setVersionLevel v l).finfo = s.finfo := rfl
@[simp] theorem State.setVersionLevel_dinlen (s : State) (v : Nat) (l : Level) : (s.setVersionLevel v l).dinlen = s.dinlen := rfl
@[simp] theorem State.setVersionLevel_din (s : State) (v : Nat) (l : Level) : (s.setVersionLevel v l).din = s.din := rfl
@[simp] theorem State.setVersionLevel_cwlen (s : State) (v : Nat) (l : Level) : (s.setVersionLevel v l).cwlen = s.cwlen := rfl
@[simp] theorem State.setVersionLevel_cw (s : State) (v : Nat) (l : Level) : (s.setVersionLevel v l).cw = s.cw := rfl
@[simp] theorem State.setVersionLevel_ecclen (s : State) (v : Nat) (l : Level) : (s.setVersionLevel v l).ecclen = s.ecclen := rfl
@[simp] theorem State.setVersionLevel_ecc (s : State) (v : Nat) (l : Level) : (s.setVersionLevel v l).ecc = s.ecc := rfl
@[simp] theorem State.setVersionLevel_bitlen (s : State) (v : Nat) (l : Level) : (s.setVersionLevel v l).bitlen = s.bitlen := rfl
@[simp] theorem State.setVersionLevel_bits (s : State) (v : Nat) (l : Level) : (s.setVersionLevel v l).bits = s.bits := rfl
@[simp] theorem State.setVersionLevel_matsize (s : State) (v : Nat) (l : Level) : (s.setVersionLevel v l).matsize = s.matsize := rfl
@[simp] theorem State.setVersionLevel_mat (s : State) (v : Nat) (l : Level) : (s.setVersionLevel v l).mat = s.mat := rfl
@[simp] theorem State.setVersionLevel_pending (s : State) (v : Nat) (l : Level) : (s.setVersionLevel v l).pending = s.pending := rfl
@[simp] theorem State.setVersionLevel_replies (s : State) (v : Nat) (l : Level) : (s.setVersionLevel v l).replies = s.replies := rfl

/-! ### setMatrix -/

@[simp] theorem State.setMatrix_x (s : State) (m : Matrix) (n : Nat) (ph : Phase) : (s.setMatrix m n ph).x = s.x := rfl
@[simp] theorem State.setMatrix_p (s : State) (m : Matrix) (n : Nat) (ph : Phase) : (s.setMatrix m n ph).p = s.p := rfl
@[simp] theorem State.setMatrix_sym (s : State) (m : Matrix) (n : Nat) (ph : Phase) : (s.setMatrix m n ph).sym = s.sym := rfl
@[simp] theorem State.setMatrix_phase (s : State) (m : Matrix) (n : Nat) (ph : Phase) : (s.setMatrix m n ph).phase = ph := rfl
@[simp] theorem State.setMatrix_err (s : State) (m : Matrix) (n : Nat) (ph : Phase) : (s.setMatrix m n ph).err = s.err := rfl
@[simp] theorem State.setMatrix_fatal (s : State) (m : Matrix) (n : Nat) (ph : Phase) : (s.setMatrix m n ph).fatal = s.fatal := rfl
@[simp] theorem State.setMatrix_finfo (s : State) (m : Matrix) (n : Nat) (ph : Phase) : (s.setMatrix m n ph).finfo = s.finfo := rfl
@[simp] theorem State.setMatrix_dinlen (s : State) (m : Matrix) (n : Nat) (ph : Phase) : (s.setMatrix m n ph).dinlen = s.dinlen := rfl
@[simp] theorem State.setMatrix_din (s : State) (m : Matrix) (n : Nat) (ph : Phase) : (s.setMatrix m n ph).din = s.din := rfl
@[simp] theorem State.setMatrix_cwlen (s : State) (m : Matrix) (n : Nat) (ph : Phase) : (s.setMatrix m n ph).cwlen = s.cwlen := rfl
@[simp] theorem State.setMatrix_cw (s : State) (m : Matrix) (n : Nat) (ph : Phase) : (s.setMatrix m n ph).cw = s.cw := rfl
@[simp] theorem State.setMatrix_ecclen (s : State) (m : Matrix) (n : Nat) (ph : Phase) : (s.setMatrix m n ph).ecclen = s.ecclen := rfl
@[simp] theorem State.setMatrix_ecc (s : State) (m : Matrix) (n : Nat) (ph : Phase) : (s.setMatrix m n ph).ecc = s.ecc := rfl
@[simp] theorem State.setMatrix_bitlen (s : State) (m : Matrix) (n : Nat) (ph : Phase) : (s.setMatrix m n ph).bitlen = s.bitlen := rfl
@[simp] theorem State.setMatrix_bits (s : State) (m : Matrix) (n : Nat) (ph : Phase) : (s.setMatrix m n ph).bits = s.bits := rfl
@[simp] theorem State.setMatrix_matsize (s : State) (m : Matrix) (n : Nat) (ph : Phase) : (s.setMatrix m n ph).matsize = n := rfl
@[simp] theorem State.setMatrix_mat (s : State) (m : Matrix) (n : Nat) (ph : Phase) : (s.setMatrix m n ph).mat = m := rfl
@[simp] theorem State.setMatrix_pending (s : State) (m : Matrix) (n : Nat) (ph : Phase) : (s.setMatrix m n ph).pending = s.pending := rfl
@[simp] theorem State.setMatrix_replies (s : State) (m : Matrix) (n : Nat) (ph : Phase) : (s.setMatrix m n ph).replies = s.replies := rfl

/-! ### complete -/

@[simp] theorem State.complete_x (s : State) : s.complete.x = s.x := rfl
@[simp] theorem State.complete_p (s : State) : s.complete.p = s.p := rfl
@[simp] theorem State.complete_sym (s : State) : s.complete.sym = s.sym := rfl
@[simp] theorem State.complete_phase (s : State) : s.complete.phase = s.phase := rfl
@[simp] theorem State.complete_err (s : State) : s.complete.err = .ok := rfl
@[simp] theorem State.complete_fatal (s : State) : s.complete.fatal = s.fatal := rfl
@[simp] theorem State.complete_finfo (s : State) : s.complete.finfo = {} := rfl
@[simp] theorem State.complete_dinlen (s : State) : s.complete.dinlen = s.dinlen := rfl
@[simp] theorem State.complete_din (s : State) : s.complete.din = s.din := rfl
@[simp] theorem State.complete_cwlen (s : State) : s.complete.cwlen = s.cwlen := rfl
@[simp] theorem State.complete_cw (s : State) : s.complete.cw = s.cw := rfl
@[simp] theorem State.complete_ecclen (s : State) : s.complete.ecclen = s.ecclen := rfl
@[simp] theorem State.complete_ecc (s : State) : s.complete.ecc = s.ecc := rfl
@[simp] theorem State.complete_bitlen (s : State) : s.complete.bitlen = s.bitlen := rfl
@[simp] theorem State.complete_bits (s : State) : s.complete.bits = s.bits := rfl
@[simp] theorem State.complete_matsize (s : State) : s.complete.matsize = s.matsize := rfl
@[simp] theorem State.complete_mat (s : State) : s.complete.mat = s.mat := rfl
@[simp] theorem State.complete_pending (s : State) : s.complete.pending = s.pending := rfl
@[simp] theorem State.complete_replies (s : State) : s.complete.replies = s.replies := rfl

/-! ### report -/

@[simp] theorem State.report_x (s : State) (e : CmdError) : (s.report e).x = s.x := rfl
@[simp] theorem State.report_p (s : State) (e : CmdError) : (s.report e).p = s.p := rfl
@[simp] theorem State.report_sym (s : State) (e : CmdError) : (s.report e).sym = s.sym := rfl
@[simp] theorem State.report_phase (s : State) (e : CmdError) : (s.report e).phase = s.phase := rfl
@[simp] theorem State.report_err (s : State) (e : CmdError) : (s.report e).err = errorCode e := rfl
@[simp] theorem State.report_fatal (s : State) (e : CmdError) : (s.report e).fatal = (s.fatal || errorFatal e) := rfl
@[simp] theorem State.report_finfo (s : State) (e : CmdError) : (s.report e).finfo = errorInfo e := rfl
@[simp] theorem State.report_dinlen (s : State) (e : CmdError) : (s.report e).dinlen = s.dinlen := rfl
@[simp] theorem State.report_din (s : State) (e : CmdError) : (s.report e).din = s.din := rfl
@[simp] theorem State.report_cwlen (s : State) (e : CmdError) : (s.report e).cwlen = s.cwlen := rfl
@[simp] theorem State.report_cw (s : State) (e : CmdError) : (s.report e).cw = s.cw := rfl
@[simp] theorem State.report_ecclen (s : State) (e : CmdError) : (s.report e).ecclen = s.ecclen := rfl
@[simp] theorem State.report_ecc (s : State) (e : CmdError) : (s.report e).ecc = s.ecc := rfl
@[simp] theorem State.report_bitlen (s : State) (e : CmdError) : (s.report e).bitlen = s.bitlen := rfl
@[simp] theorem State.report_bits (s : State) (e : CmdError) : (s.report e).bits = s.bits := rfl
@[simp] theorem State.report_matsize (s : State) (e : CmdError) : (s.report e).matsize = s.matsize := rfl
@[simp] theorem State.report_mat (s : State) (e : CmdError) : (s.report e).mat = s.mat := rfl
@[simp] theorem State.report_pending (s : State) (e : CmdError) : (s.report e).pending = s.pending := rfl
@[simp] theorem State.report_replies (s : State) (e : CmdError) : (s.report e).replies = s.replies := rfl

/-! ### Reading back -/

@[simp] theorem State.getX_setX_same (s : State) (i : XReg) (v : Word) : (s.setX i v).getX i = v := by
  simp [State.getX]

theorem State.getX_setX (s : State) (i j : XReg) (v : Word) :
    (s.setX i v).getX j = if j = i then v else s.getX j := by
  by_cases h : j = i
  · simp [h]
  · have : i.val ≠ j.val := fun e => h (Fin.ext e.symm)
    simp [State.getX, this, h]

theorem State.getPoly_setPoly (s : State) (i j : PReg) (ts : List Term) :
    (s.setPoly i ts).getPoly j = if j = i then
      { len := ts.length, terms := Memory.splice 0#32 (s.getPoly i).terms 0 (ts.map Term.toWord) }
      else s.getPoly j := by
  by_cases h : j = i
  · simp [h, State.getPoly]
  · have : i.val ≠ j.val := fun e => h (Fin.ext e.symm)
    simp [State.getPoly, this, h]

@[simp] theorem State.complete_getX (s : State) (i : XReg) : s.complete.getX i = s.getX i := rfl
@[simp] theorem State.complete_getPoly (s : State) (i : PReg) : s.complete.getPoly i = s.getPoly i := rfl
@[simp] theorem State.report_getX (s : State) (e : CmdError) (i : XReg) : (s.report e).getX i = s.getX i := rfl
@[simp] theorem State.report_getPoly (s : State) (e : CmdError) (i : PReg) : (s.report e).getPoly i = s.getPoly i := rfl

end Sys2Proof.Machine
end

