-- ==== Sys2Proof/Laws/Command.lean ====
section
/-! SUPPORT. Everything the command transaction can do (60_exceptions.md R238, R239), and everything each operand check can
do: a check answers its operand exactly on its domain and raises its one error outside it. -/

namespace Sys2Proof.Laws

open Sys2Proof.Machine

/-! ### The transaction -/

/-- A command always ends in a next state. -/
theorem command_next (body : State → Except CmdError State) (s : State) : ∃ t, command body s = .next t := ⟨_, rfl⟩

theorem command_of_fatal {body : State → Except CmdError State} {s : State} (h : s.fatal = true) :
    command body s = .next s := by simp [command, h]

theorem command_of_ok {body : State → Except CmdError State} {s t : State} (h : s.fatal = false) (hb : body s = .ok t) :
    command body s = .next t.complete := by simp [command, h, hb]

theorem command_of_error {body : State → Except CmdError State} {s : State} {e : CmdError} (h : s.fatal = false)
    (hb : body s = .error e) : command body s = .next (s.report e) := by simp [command, h, hb]

/-- Everything a command can do: nothing under `FATAL`; complete; or report one error. -/
theorem command_cases {body : State → Except CmdError State} {s t : State} (h : command body s = .next t) :
    (s.fatal = true ∧ t = s) ∨
    (s.fatal = false ∧ ∃ u, body s = .ok u ∧ t = u.complete) ∨
    (s.fatal = false ∧ ∃ e, body s = .error e ∧ t = s.report e) := by
  cases hf : s.fatal
  · cases hb : body s with
    | ok u =>
      rw [command_of_ok hf hb] at h
      cases h
      exact .inr (.inl ⟨rfl, u, rfl, rfl⟩)
    | error e =>
      rw [command_of_error hf hb] at h
      cases h
      exact .inr (.inr ⟨rfl, e, rfl, rfl⟩)
  · rw [command_of_fatal hf] at h
    cases h
    exact .inl ⟨rfl, rfl⟩

/-! ### Checks and sequencing -/

theorem bind_ok {α β : Type} {x : Except CmdError α} {f : α → Except CmdError β} {b : β} :
    (x >>= f) = .ok b ↔ ∃ a, x = .ok a ∧ f a = .ok b := by
  cases x <;> simp [bind, Except.bind]

theorem bind_error {α β : Type} {x : Except CmdError α} {f : α → Except CmdError β} {e : CmdError} :
    (x >>= f) = .error e ↔ x = .error e ∨ ∃ a, x = .ok a ∧ f a = .error e := by
  cases x <;> simp [bind, Except.bind]

@[simp] theorem ok_bind {α β : Type} (a : α) (f : α → Except CmdError β) : (Except.ok a >>= f) = f a := rfl

@[simp] theorem error_bind {α β : Type} (e : CmdError) (f : α → Except CmdError β) :
    ((.error e : Except CmdError α) >>= f) = .error e := rfl

@[simp] theorem check_eq_ok {ok : Bool} {e : CmdError} {u : Unit} : check ok e = .ok u ↔ ok = true := by
  cases ok <;> simp [check]

@[simp] theorem check_eq_error {ok : Bool} {e e' : CmdError} : check ok e = .error e' ↔ ok = false ∧ e = e' := by
  cases ok <;> simp [check]

theorem check_true (e : CmdError) : check true e = .ok () := rfl

/-! ### Operands -/

theorem fieldOperand_eq_ok {s : State} {r : XReg} {b : Byte} :
    fieldOperand s r = .ok b ↔ scalarOperand s r ≤ 255 ∧ b = BitVec.ofNat 8 (scalarOperand s r) := by
  unfold fieldOperand
  split
  · simp only [reduceCtorEq, false_iff]
    omega
  · simp only [Except.ok.injEq]
    constructor
    · rintro rfl
      exact ⟨by omega, rfl⟩
    · exact fun h => h.2.symm

theorem polyOperand_eq_ok {s : State} {i : PReg} {ts : List Term} :
    polyOperand s i = .ok ts ↔ wellFormedTerms (s.poly i) = true ∧ ts = s.poly i := by
  unfold polyOperand
  split
  · rename_i h
    simpa [h] using eq_comm
  · simp_all

theorem degreeOperand_eq_ok {s : State} {r : XReg} {n : Nat} :
    degreeOperand s r = .ok n ↔ 1 ≤ n ∧ n ≤ 254 ∧ scalarOperand s r = n := by
  unfold degreeOperand
  split <;> simp <;> omega

theorem versionOperand_eq_ok {s : State} {r : XReg} {v : Nat} :
    versionOperand s r = .ok v ↔ 1 ≤ v ∧ v ≤ 40 ∧ scalarOperand s r = v := by
  unfold versionOperand
  split <;> simp <;> omega

theorem levelOfCode_eq_some {n : Nat} {l : Level} : levelOfCode n = some l ↔ n = levelCode l := by
  rcases n with _ | _ | _ | _ | n <;> cases l <;> simp [levelOfCode, levelCode]

theorem levelOperand_eq_ok {s : State} {r : XReg} {l : Level} :
    levelOperand s r = .ok l ↔ scalarOperand s r = levelCode l := by
  unfold levelOperand
  rw [← levelOfCode_eq_some]
  split <;> simp_all

theorem chosenVersion_eq_ok {s : State} {v : Nat} :
    chosenVersion s = .ok v ↔ s.sym.ver ≠ 0#6 ∧ v = s.sym.ver.toNat := by
  unfold chosenVersion
  split
  · simp_all
  · rename_i h
    simpa [h] using eq_comm

theorem maskOperand_eq_ok {s : State} {r : XReg} {k : Nat} :
    maskOperand s r = .ok k ↔ k ≤ 7 ∧ scalarOperand s r = k := by
  unfold maskOperand
  split <;> simp <;> omega

theorem versionValueOperand_eq_ok {s : State} {r : XReg} {v : Nat} :
    versionValueOperand s r = .ok v ↔ v ≤ 63 ∧ scalarOperand s r = v := by
  unfold versionValueOperand
  split <;> simp <;> omega

@[simp] theorem needPhase_eq_ok {s : State} {ph : Phase} {what : Nat} {u : Unit} :
    needPhase s ph what = .ok u ↔ s.phase = ph := by simp [needPhase]

@[simp] theorem needPhase_eq_error {s : State} {ph : Phase} {what : Nat} {e : CmdError} :
    needPhase s ph what = .error e ↔ s.phase ≠ ph ∧ .badPhase what = e := by simp [needPhase]

end Sys2Proof.Laws
end

