-- ==== Sys2Proof/Laws/Field.lean ====
section
/-! SUPPORT. The tables `EXP` and `LOG` against the document's definitions (40_field_arithmetic.md R131, R137): the lookup
and the recursion give the same values. -/

namespace Sys2Proof.Laws

open Sys2Proof.Machine

/-- Each entry of `EXP` is the document's recursion step applied to the entry before it. -/
theorem expTable_step : ∀ e < 254, (tableByte expTable (e + 1)).toNat =
    (if e + 1 < 8 then 2 ^ (e + 1)
      else if e + 1 = 8 then (2 ^ 8 ^^^ Config.reductionConstant) % 256
      else if 2 * (tableByte expTable e).toNat ≥ 255
        then (2 * (tableByte expTable e).toNat ^^^ Config.reductionConstant) % 256
        else 2 * (tableByte expTable e).toNat) := by
  decide +kernel

theorem expTable_eq_recursion (e : Nat) (h : e < 255) : (tableByte expTable e).toNat = gfexpRecursion e := by
  induction e with
  | zero => decide +kernel
  | succ e ih =>
    rw [expTable_step e (by omega), ih (by omega)]
    rfl

/-- The table lookup computes `exponent_galois` (40_field_arithmetic.md R131, R137). -/
theorem gfexp_eq_recursion (e : Nat) : (gfexp e).toNat = gfexpRecursion (e % 255) :=
  expTable_eq_recursion _ (Nat.mod_lt _ (by decide))

end Sys2Proof.Laws
end

