-- ==== Sys2Proof/Laws/Host.lean ====
section
/-! SUPPORT. Everything one step can do (20_memory.md R61, R70): idle; a read; a command word; any other write. -/

namespace Sys2Proof.Laws

open Sys2Proof.Machine

/-- The cases of one step. -/
theorem step_cases (s : State) :
    (s.pending = [] ∧ step s = .next s) ∨
    (∃ a rest, s.pending = .read a :: rest ∧
      step s = .next { s with pending := rest, replies := s.replies ++ [memRead { s with pending := rest } a] }) ∨
    (∃ a v rest, s.pending = .write a v :: rest ∧ locate a = .cmd ∧
      step s = commandWord v { s with pending := rest }) ∨
    (∃ a v rest, s.pending = .write a v :: rest ∧ locate a ≠ .cmd ∧
      step s = .next (memWrite { s with pending := rest } a v)) := by
  cases hp : s.pending with
  | nil => exact .inl ⟨rfl, by simp [step, stepPending, hp]⟩
  | cons h rest =>
    cases h with
    | read a => exact .inr (.inl ⟨a, rest, rfl, by simp [step, stepPending, hp, hostAccess]⟩)
    | write a v =>
      by_cases hc : locate a = .cmd
      · exact .inr (.inr (.inl ⟨a, v, rest, rfl, hc, by simp [step, stepPending, hp, hostAccess, hc]⟩))
      · exact .inr (.inr (.inr ⟨a, v, rest, rfl, hc, by simp [step, stepPending, hp, hostAccess, hc]⟩))

theorem ite_ne {α : Type} {p : Prop} [Decidable p] {a b x : α} (ha : a ≠ x) (hb : b ≠ x) :
    (if p then a else b) ≠ x := by
  split
  · exact ha
  · exact hb

/-- `CMD` is at word address 0x00001 and nowhere else (10_state.md R29, 20_memory.md R64). -/
theorem locate_eq_cmd {a : Addr} : locate a = .cmd ↔ a = cmdAddr := by
  constructor
  · intro h
    apply BitVec.eq_of_toNat_eq
    by_contra hne
    have hne : ¬ a.toNat = 1 := hne
    refine absurd h ?_
    unfold locate
    simp only
    rw [if_neg hne]
    repeat' apply ite_ne
    all_goals exact fun e => Location.noConfusion e
  · rintro rfl
    decide

end Sys2Proof.Laws
end

