-- ==== Sys2Proof/Laws/Memory.lean ====
section
/-! SUPPORT. The laws of storage arrays: one law for reading after a splice, from which reading after a write and after a
buffer write follow, and one for the canonical form, which every operation keeps whatever it starts from in form. No law
but those about the canonical form needs it. -/

namespace Sys2Proof.Laws

open Sys2Proof.Machine

variable {α : Type}

theorem read_eq_default_of_forall_ne (d : α) (m : Memory α) (i : Nat) (h : ∀ e ∈ m, e.1 ≠ i) :
    Memory.read d m i = d := by
  induction m with
  | nil => rfl
  | cons e m ih =>
    obtain ⟨k, v⟩ := e
    have hk : k ≠ i := h (k, v) (by simp)
    simp only [Memory.read, if_neg hk]
    exact ih fun e he => h e (by simp [he])

theorem read_append (d : α) (m n : Memory α) (i : Nat) :
    Memory.read d (m ++ n) i = if ∃ e ∈ m, e.1 = i then Memory.read d m i else Memory.read d n i := by
  induction m with
  | nil => simp
  | cons e m ih =>
    obtain ⟨k, v⟩ := e
    by_cases hk : k = i
    · simp [Memory.read, hk]
    · have hc : (∃ e ∈ (k, v) :: m, e.1 = i) ↔ ∃ e ∈ m, e.1 = i := by simp [hk]
      simp only [List.cons_append, Memory.read, if_neg hk, ih, hc]

theorem read_filter (d : α) (m : Memory α) (p : Nat → Bool) (i : Nat) :
    Memory.read d (m.filter fun e => p e.1) i = if p i then Memory.read d m i else d := by
  induction m with
  | nil => simp [Memory.read]
  | cons e m ih =>
    obtain ⟨k, v⟩ := e
    by_cases hk : k = i
    · subst hk
      by_cases hp : p k
      · simp [hp, Memory.read]
      · simp only [List.filter_cons, hp]
        rw [if_neg (by simp), ih]
        simp [hp]
    · by_cases hp : p k <;> simp [hp, Memory.read, hk, ih]

variable [DecidableEq α]

theorem mem_entries {d : α} {k : Nat} {vs : List α} {e : Nat × α} (h : e ∈ Memory.entries d k vs) :
    k ≤ e.1 ∧ e.1 < k + vs.length ∧ e.2 ≠ d := by
  induction vs generalizing k with
  | nil => simp [Memory.entries] at h
  | cons v vs ih =>
    simp only [Memory.entries] at h
    split at h
    · have := ih h
      exact ⟨by omega, by simp only [List.length_cons]; omega, this.2.2⟩
    · rcases List.mem_cons.1 h with rfl | h
      · simp_all
      · have := ih h
        exact ⟨by omega, by simp only [List.length_cons]; omega, this.2.2⟩

theorem read_entries (d : α) (k : Nat) (vs : List α) (i : Nat) :
    Memory.read d (Memory.entries d k vs) i = if k ≤ i then vs.getD (i - k) d else d := by
  induction vs generalizing k with
  | nil => simp [Memory.entries, Memory.read]
  | cons v vs ih =>
    have step : Memory.read d (Memory.entries d k (v :: vs)) i =
        if k = i then v else Memory.read d (Memory.entries d (k + 1) vs) i := by
      by_cases hv : v = d
      · by_cases hk : k = i
        · simp [Memory.entries, hv, hk, ih]
        · simp [Memory.entries, hv, hk]
      · simp [Memory.entries, hv, Memory.read]
    rw [step, ih]
    rcases Nat.lt_trichotomy i k with h | rfl | h
    · rw [if_neg (by omega), if_neg (by omega), if_neg (by omega)]
    · simp
    · have hs : i - k = (i - (k + 1)) + 1 := by omega
      rw [if_neg (by omega), if_pos (by omega), if_pos (by omega), hs, List.getD_cons_succ]

/-- Reading after a splice: the written elements inside the range, the old ones outside it. -/
theorem read_splice (d : α) (m : Memory α) (i : Nat) (vs : List α) (j : Nat) :
    Memory.read d (Memory.splice d m i vs) j =
      if i ≤ j ∧ j < i + vs.length then vs.getD (j - i) d else Memory.read d m j := by
  unfold Memory.splice
  rw [List.append_assoc, read_append, read_append]
  by_cases h1 : j < i
  · rw [if_neg (by omega : ¬(i ≤ j ∧ j < i + vs.length))]
    split
    · simpa [h1] using read_filter d m (fun k => decide (k < i)) j
    · rename_i hn
      rw [read_eq_default_of_forall_ne d m j]
      · split
        · rename_i he
          obtain ⟨e, he, rfl⟩ := he
          have := mem_entries he
          omega
        · have := read_filter d m (fun k => decide (i + vs.length ≤ k)) j
          rw [this]
          simp
          omega
      · rintro e he rfl
        exact hn ⟨e, by simp [he, h1], rfl⟩
  · rw [if_neg (by
      rintro ⟨e, he, rfl⟩
      simp at he
      omega)]
    by_cases h2 : j < i + vs.length
    · rw [if_pos (⟨by omega, h2⟩ : i ≤ j ∧ j < i + vs.length)]
      have hr := read_entries d i vs j
      rw [if_pos (by omega)] at hr
      split
      · exact hr
      · rename_i hn
        rw [← hr, read_eq_default_of_forall_ne d (Memory.entries d i vs) j (fun e he hj => hn ⟨e, he, hj⟩),
          read_eq_default_of_forall_ne]
        intro e he hj
        simp at he
        omega
    · rw [if_neg (by omega : ¬(i ≤ j ∧ j < i + vs.length)), if_neg (by
        rintro ⟨e, he, rfl⟩
        have := mem_entries he
        omega)]
      have := read_filter d m (fun k => decide (i + vs.length ≤ k)) j
      rw [this]
      simp
      omega

/-- Reading after a write: the value written at its place, the old value everywhere else. -/
theorem read_write (d : α) (m : Memory α) (i : Nat) (v : α) (j : Nat) :
    Memory.read d (Memory.write d m i v) j = if j = i then v else Memory.read d m j := by
  rw [Memory.write, read_splice]
  by_cases h : j = i
  · simp [h]
  · rw [if_neg h, if_neg]
    simp
    omega

@[simp] theorem read_write_same (d : α) (m : Memory α) (i : Nat) (v : α) :
    Memory.read d (Memory.write d m i v) i = v := by simp [read_write]

theorem read_write_other (d : α) (m : Memory α) {i j : Nat} (v : α) (h : j ≠ i) :
    Memory.read d (Memory.write d m i v) j = Memory.read d m j := by simp [read_write, h]

omit [DecidableEq α] in
@[simp] theorem read_nil (d : α) (i : Nat) : Memory.read d [] i = d := rfl

omit [DecidableEq α] in
@[simp] theorem length_slice (d : α) (m : Memory α) (i n : Nat) : (Memory.slice d m i n).length = n := by
  simp [Memory.slice]

/-- The slice just spliced in is what was written. -/
theorem slice_splice_self (d : α) (m : Memory α) (i : Nat) (vs : List α) :
    Memory.slice d (Memory.splice d m i vs) i vs.length = vs := by
  apply List.ext_getElem
  · simp
  · intro k h1 h2
    simp only [Memory.slice, List.getElem_map, List.getElem_range, read_splice]
    rw [if_pos (by omega)]
    simp [List.getD_eq_getElem?_getD, h2]

/-! ### The canonical form -/

theorem entries_pairwise (d : α) (k : Nat) (vs : List α) :
    ((Memory.entries d k vs).map Prod.fst).Pairwise (· < ·) := by
  induction vs generalizing k with
  | nil => simp [Memory.entries]
  | cons v vs ih =>
    simp only [Memory.entries]
    split
    · exact ih _
    · rw [List.map_cons, List.pairwise_cons]
      refine ⟨?_, ih _⟩
      intro j hj
      obtain ⟨e, he, rfl⟩ := List.mem_map.1 hj
      have := mem_entries he
      simp only
      omega

/-- A splice keeps the canonical form. -/
theorem wf_splice {d : α} {m : Memory α} (h : Memory.wf d m) (i : Nat) (vs : List α) :
    Memory.wf d (Memory.splice d m i vs) := by
  obtain ⟨hs, hd⟩ := h
  have hsub : ∀ p : Nat × α → Bool, ((m.filter p).map Prod.fst).Pairwise (· < ·) := fun p =>
    hs.sublist (List.filter_sublist.map _)
  refine ⟨?_, ?_⟩
  · simp only [Memory.splice, List.map_append, List.pairwise_append]
    refine ⟨⟨hsub _, entries_pairwise d i vs, ?_⟩, hsub _, ?_⟩
    · intro a ha b hb
      obtain ⟨e, he, rfl⟩ := List.mem_map.1 ha
      obtain ⟨f, hf, rfl⟩ := List.mem_map.1 hb
      have := mem_entries hf
      simp at he
      omega
    · intro a ha b hb
      obtain ⟨f, hf, rfl⟩ := List.mem_map.1 hb
      simp at hf
      rcases List.mem_append.1 ha with ha | ha
      · obtain ⟨e, he, rfl⟩ := List.mem_map.1 ha
        simp at he
        omega
      · obtain ⟨e, he, rfl⟩ := List.mem_map.1 ha
        have := mem_entries he
        omega
  · intro e he
    simp only [Memory.splice, List.mem_append, List.mem_filter] at he
    rcases he with (he | he) | he
    · exact hd e he.1
    · exact (mem_entries he).2.2
    · exact hd e he.1

/-- A write keeps the canonical form. -/
theorem wf_write {d : α} {m : Memory α} (h : Memory.wf d m) (i : Nat) (v : α) :
    Memory.wf d (Memory.write d m i v) := wf_splice h i [v]

omit [DecidableEq α] in
theorem wf_nil (d : α) : Memory.wf d [] := ⟨List.Pairwise.nil, fun _ h => by simp at h⟩

/-- Where a splice's entries come from: the indices stay below a bound that holds of the old ones and of the range. -/
theorem keys_splice {d : α} {m : Memory α} {cap : Nat} (h : ∀ e ∈ m, e.1 < cap) (i : Nat) (vs : List α)
    (hi : i + vs.length ≤ cap) : ∀ e ∈ Memory.splice d m i vs, e.1 < cap := by
  intro e he
  simp only [Memory.splice, List.mem_append, List.mem_filter] at he
  rcases he with (he | he) | he
  · exact h e he.1
  · have := mem_entries he
    omega
  · exact h e he.1

omit [DecidableEq α] in
/-- In a canonical array the entry at an index is what reading it gives. -/
theorem read_of_mem {d : α} {m : Memory α} (h : Memory.wf d m) {e : Nat × α} (he : e ∈ m) :
    Memory.read d m e.1 = e.2 := by
  obtain ⟨hs, -⟩ := h
  induction m with
  | nil => simp at he
  | cons f m ih =>
    obtain ⟨k, v⟩ := f
    rw [List.map_cons, List.pairwise_cons] at hs
    rcases List.mem_cons.1 he with rfl | he
    · simp [Memory.read]
    · have : k < e.1 := hs.1 _ (List.mem_map_of_mem he)
      rw [Memory.read, if_neg (by omega)]
      exact ih he hs.2

omit [DecidableEq α] in
/-- An index whose entry reads as another value than the default is listed. -/
theorem mem_of_read_ne {d : α} {m : Memory α} {i : Nat} (h : Memory.read d m i ≠ d) :
    (i, Memory.read d m i) ∈ m := by
  induction m with
  | nil => simp [Memory.read] at h
  | cons f m ih =>
    obtain ⟨k, v⟩ := f
    by_cases hk : k = i
    · simp [Memory.read, hk]
    · simp only [Memory.read, if_neg hk] at h ⊢
      exact List.mem_cons_of_mem _ (ih h)

omit [DecidableEq α] in
/-- Canonical arrays that read the same everywhere are equal: equal memories are equal data. -/
theorem wf_ext {d : α} {m n : Memory α} (hm : Memory.wf d m) (hn : Memory.wf d n)
    (h : ∀ i, Memory.read d m i = Memory.read d n i) : m = n := by
  have key : ∀ {a b : Memory α}, Memory.wf d a → Memory.wf d b → (∀ i, Memory.read d a i = Memory.read d b i) →
      ∀ e ∈ a, e ∈ b := by
    intro a b ha hb hab e he
    have h1 := read_of_mem ha he
    have h2 : Memory.read d b e.1 ≠ d := by
      rw [← hab, h1]
      exact ha.2 e he
    have h3 := mem_of_read_ne h2
    rw [← hab, h1] at h3
    exact h3
  have srt : ∀ {a : Memory α}, Memory.wf d a → a.Pairwise (fun e f => e.1 < f.1) := fun ha => by
    simpa [List.pairwise_map] using ha.1
  have nd : ∀ {a : Memory α}, Memory.wf d a → a.Nodup := fun ha =>
    (srt ha).imp fun hlt heq => by
      rw [heq] at hlt
      exact lt_irrefl _ hlt
  have hp : m.Perm n := (List.perm_ext_iff_of_nodup (nd hm) (nd hn)).2 fun e =>
    ⟨key hm hn h e, key hn hm (fun i => (h i).symm) e⟩
  exact hp.eq_of_pairwise (fun e f _ _ h1 h2 => absurd h1 (by omega)) (srt hm) (srt hn)

end Sys2Proof.Laws
end

