-- ==== Sys2Proof/Laws/Matrix.lean ====
section
/-! SUPPORT. The laws of the matrix: reading after a cell write and after a fill, the canonical form, and the bounds of the
cells that are set. -/

namespace Sys2Proof.Laws

open Sys2Proof.Machine

/-- Reading after a cell write. -/
theorem matRead_matWrite (m : Matrix) (c r : Nat) (v : Cell) (c' r' : Nat) :
    matRead (matWrite m c r v) c' r' = if c' = c ∧ r' = r then v else matRead m c' r' := by
  unfold matRead matWrite
  rw [read_write]
  by_cases hr : r' = r
  · subst hr
    simp [read_write]
  · simp [hr]

/-- Reading after a fill of the `n`×`n` square: the filled cells inside it, the old ones outside it. -/
theorem matRead_matFill (n : Nat) (cell : Nat → Nat → Cell) (m : Matrix) (c r : Nat) :
    matRead (matFill n cell m) c r = if c < n ∧ r < n then cell c r else matRead m c r := by
  unfold matRead matFill
  rw [read_splice]
  by_cases hr : r < n
  · rw [if_pos (by simp [hr])]
    simp only [Nat.sub_zero, List.getD_eq_getElem?_getD, List.getElem?_map, List.getElem?_range hr, Option.map_some,
      Option.getD_some, read_splice]
    by_cases hc : c < n
    · simp [hc, hr]
    · simp [hc]
  · simp [hr]

theorem wf_row {m : Matrix} (h : matWf m) (r : Nat) : Memory.wf Cell.unset (Memory.read [] m r) := by
  by_cases he : Memory.read [] m r = []
  · rw [he]
    exact wf_nil _
  · exact h.2 _ (mem_of_read_ne he)

theorem matWf_nil : matWf [] := ⟨wf_nil _, fun _ h => by simp at h⟩

/-- A splice of canonical rows keeps the matrix canonical. -/
theorem matWf_splice {m : Matrix} (h : matWf m) (i : Nat) (rows : List (Memory Cell))
    (hr : ∀ row ∈ rows, Memory.wf Cell.unset row) : matWf (Memory.splice [] m i rows) := by
  refine ⟨wf_splice h.1 i rows, ?_⟩
  intro e he
  have hread := read_of_mem (wf_splice h.1 i rows) he
  rw [read_splice] at hread
  rw [← hread]
  split
  · rename_i hi
    rw [List.getD_eq_getElem?_getD, List.getElem?_eq_getElem (by omega), Option.getD_some]
    exact hr _ (List.getElem_mem _)
  · exact wf_row h _

/-- A cell write keeps the canonical form. -/
theorem matWf_matWrite {m : Matrix} (h : matWf m) (c r : Nat) (v : Cell) : matWf (matWrite m c r v) :=
  matWf_splice h r _ fun row hrow => by
    rw [List.mem_singleton.1 hrow]
    exact wf_write (wf_row h r) c v

/-- A fill keeps the canonical form. -/
theorem matWf_matFill {m : Matrix} (h : matWf m) (n : Nat) (cell : Nat → Nat → Cell) : matWf (matFill n cell m) :=
  matWf_splice h 0 _ fun row hrow => by
    obtain ⟨r, -, rfl⟩ := List.mem_map.1 hrow
    exact wf_splice (wf_row h r) 0 _

/-- In a canonical matrix no cell is listed outside the `n`×`n` square exactly when every cell outside it is `Unset`. -/
theorem matBounds_iff {m : Matrix} (h : matWf m) (n : Nat) :
    (∀ e ∈ m, e.1 < n ∧ ∀ f ∈ e.2, f.1 < n) ↔ ∀ c r, ¬(c < n ∧ r < n) → matRead m c r = .unset := by
  constructor
  · intro hb c r hcr
    by_contra hne
    have hrow : Memory.read [] m r ≠ [] := by
      intro h0
      exact hne (by simp [matRead, h0])
    have h1 := hb _ (mem_of_read_ne hrow)
    have h2 := h1.2 _ (mem_of_read_ne (d := Cell.unset) hne)
    exact hcr ⟨h2, h1.1⟩
  · intro hu e he
    have hrow := read_of_mem h.1 he
    have key : ∀ f ∈ e.2, f.1 < n ∧ e.1 < n := by
      intro f hf
      by_contra hcr
      have h1 := hu f.1 e.1 hcr
      unfold matRead at h1
      rw [hrow, read_of_mem (h.2 e he) hf] at h1
      exact (h.2 e he).2 f hf h1
    refine ⟨?_, fun f hf => (key f hf).1⟩
    obtain ⟨f, hf⟩ := List.exists_mem_of_ne_nil _ (h.1.2 e he)
    exact (key f hf).2

end Sys2Proof.Laws
end

