-- ==== Sys2Proof/Laws/Tables.lean ====
section
/-! SUPPORT. The queries of the standard instance: every key of 1..40 is defined (21_static_tables.md section 2), so no
query of the machine `exec` runs raises MalformedLookup there. -/

namespace Sys2Proof.Laws

open Sys2Proof.Machine

/-- What `T.ec` of the standard instance gives at a key. -/
def standardEntry (v : Nat) (l : Level) : EcEntry := ((ecRows.getD (v - 1) ⟨⟨0, 0, 0, 0, 0⟩, ⟨0, 0, 0, 0, 0⟩, ⟨0, 0, 0, 0, 0⟩, ⟨0, 0, 0, 0, 0⟩⟩).entry l)

theorem queryEc_config_all : ∀ v : Fin 40,
    queryEc config (v.val + 1) .L = .ok (standardEntry (v.val + 1) .L) ∧
    queryEc config (v.val + 1) .M = .ok (standardEntry (v.val + 1) .M) ∧
    queryEc config (v.val + 1) .Q = .ok (standardEntry (v.val + 1) .Q) ∧
    queryEc config (v.val + 1) .H = .ok (standardEntry (v.val + 1) .H) := by
  decide +kernel

theorem queryEc_config {v : Nat} (h1 : 1 ≤ v) (h2 : v ≤ 40) (l : Level) :
    queryEc config v l = .ok (standardEntry v l) := by
  have h := queryEc_config_all ⟨v - 1, by omega⟩
  rw [show v - 1 + 1 = v by omega] at h
  cases l
  · exact h.1
  · exact h.2.1
  · exact h.2.2.1
  · exact h.2.2.2

theorem queryLenbits_config_all : ∀ v : Fin 40,
    queryLenbits config (v.val + 1) = .ok (if v.val + 1 ≤ 9 then 8 else 16) := by
  decide +kernel

theorem queryLenbits_config {v : Nat} (h1 : 1 ≤ v) (h2 : v ≤ 40) :
    queryLenbits config v = .ok (if v ≤ 9 then 8 else 16) := by
  have h := queryLenbits_config_all ⟨v - 1, by omega⟩
  rwa [show v - 1 + 1 = v by omega] at h

theorem queryRembits_config_all : ∀ v : Fin 40,
    queryRembits config (v.val + 1) = .ok (rembitsRows.getD v.val 0) := by
  decide +kernel

theorem queryRembits_config {v : Nat} (h1 : 1 ≤ v) (h2 : v ≤ 40) :
    queryRembits config v = .ok (rembitsRows.getD (v - 1) 0) := by
  have h := queryRembits_config_all ⟨v - 1, by omega⟩
  rwa [show v - 1 + 1 = v by omega] at h

theorem queryAlign_config_all : ∀ v : Fin 40,
    queryAlign config (v.val + 1) = .ok (alignRows.getD v.val []) := by
  decide +kernel

theorem queryAlign_config {v : Nat} (h1 : 1 ≤ v) (h2 : v ≤ 40) :
    queryAlign config v = .ok (alignRows.getD (v - 1) []) := by
  have h := queryAlign_config_all ⟨v - 1, by omega⟩
  rwa [show v - 1 + 1 = v by omega] at h

/-- The facts of section 3 of 21_static_tables.md about one version and level: the total codeword count of R104, and a
second group one codeword longer than the first. -/
theorem standardEntry_consistent_all : ∀ v : Fin 40, ∀ l ∈ [Level.L, .M, .Q, .H],
    totalCodewords (standardEntry (v.val + 1) l) = totalCodewordRows.getD v.val 0 ∧
    ((standardEntry (v.val + 1) l).b2 = 0 ∨
      (standardEntry (v.val + 1) l).d2 = (standardEntry (v.val + 1) l).d1 + 1) := by
  decide +kernel

end Sys2Proof.Laws
end

