-- ==== Sys2Proof/Laws/Patterns.lean ====
section
/-! SUPPORT. Everything a list of pattern writes can do (46_matrix_patterns.md R195): all inside, the writes in order; else
the overflow of the first one outside. -/

namespace Sys2Proof.Laws

open Sys2Proof.Machine

/-- The matrix after writes that are all inside. -/
def putsApplied (ps : List Put) (m : Matrix) : Matrix :=
  ps.foldl (fun m p => matWrite m p.col.toNat p.row.toNat p.val) m

theorem putAll_of_inside {size : Nat} {ps : List Put} (h : ∀ p ∈ ps, p.inside size = true) (m : Matrix) :
    putAll size ps m = .ok (putsApplied ps m) := by
  induction ps generalizing m with
  | nil => rfl
  | cons p ps ih =>
    have hp := h p (by simp)
    simp only [putAll, putCell, hp, if_true, ok_bind]
    exact ih (fun q hq => h q (by simp [hq])) _

theorem putAll_of_outside {size : Nat} {ps qs : List Put} {p : Put} (h : ∀ p ∈ ps, p.inside size = true)
    (hp : p.inside size = false) (m : Matrix) :
    putAll size (ps ++ p :: qs) m = .error (.placementOverflow p.region) := by
  induction ps generalizing m with
  | nil => simp [putAll, putCell, hp]
  | cons q ps ih =>
    have hq := h q (by simp)
    simp only [List.cons_append, putAll, putCell, hq, if_true, ok_bind]
    exact ih (fun q hq => h q (by simp [hq])) _

/-- Completing writes were all inside. -/
theorem putAll_eq_ok {size : Nat} {ps : List Put} {m m' : Matrix} (h : putAll size ps m = .ok m') :
    (∀ p ∈ ps, p.inside size = true) ∧ m' = putsApplied ps m := by
  induction ps generalizing m with
  | nil =>
    simp only [putAll, Except.ok.injEq] at h
    exact ⟨by simp, h.symm⟩
  | cons p ps ih =>
    simp only [putAll, putCell] at h
    split at h
    · rename_i hp
      rw [ok_bind] at h
      have := ih h
      exact ⟨by simpa [hp] using this.1, this.2⟩
    · rw [error_bind] at h
      cases h

/-- A cell no write names keeps its value. -/
theorem matRead_putsApplied_of_forall_ne {ps : List Put} {c r : Nat}
    (h : ∀ p ∈ ps, ¬(p.col.toNat = c ∧ p.row.toNat = r)) (m : Matrix) :
    matRead (putsApplied ps m) c r = matRead m c r := by
  induction ps generalizing m with
  | nil => rfl
  | cons p ps ih =>
    have hp := h p (by simp)
    rw [putsApplied, List.foldl_cons]
    rw [← putsApplied, ih (fun q hq => h q (by simp [hq])), matRead_matWrite, if_neg]
    rintro ⟨rfl, rfl⟩
    exact hp ⟨rfl, rfl⟩

/-- The last write to a cell wins. -/
theorem matRead_putsApplied_last {ps qs : List Put} {p : Put}
    (h : ∀ q ∈ qs, ¬(q.col.toNat = p.col.toNat ∧ q.row.toNat = p.row.toNat)) (m : Matrix) :
    matRead (putsApplied (ps ++ p :: qs) m) p.col.toNat p.row.toNat = p.val := by
  have : putsApplied (ps ++ p :: qs) m =
      putsApplied qs (matWrite (putsApplied ps m) p.col.toNat p.row.toNat p.val) := by
    simp [putsApplied, List.foldl_append]
  rw [this, matRead_putsApplied_of_forall_ne h, matRead_matWrite]
  simp

theorem matWf_putsApplied {m : Matrix} (h : matWf m) (ps : List Put) : matWf (putsApplied ps m) := by
  induction ps generalizing m with
  | nil => exact h
  | cons p ps ih => exact ih (matWf_matWrite h _ _ _)

/-- Every alignment centre of the standard instance lies in 6..size-7 (21_static_tables.md R104). -/
theorem alignRows_bounds_all : ∀ v : Fin 40, ∀ a ∈ alignRows.getD v.val [],
    6 ≤ a ∧ a + 7 ≤ symbolSize (v.val + 1) := by
  decide +kernel

theorem alignRows_bounds {v : Nat} (h1 : 1 ≤ v) (h2 : v ≤ 40) {a : Nat} (ha : a ∈ alignRows.getD (v - 1) []) :
    6 ≤ a ∧ a + 7 ≤ symbolSize v := by
  have h := alignRows_bounds_all ⟨v - 1, by omega⟩ a ha
  rwa [show v - 1 + 1 = v by omega] at h

/-- What `MPAT` queries under the standard instance. -/
theorem alignmentList_config {v : Nat} (h1 : 1 ≤ v) (h2 : v ≤ 40) :
    alignmentList config v = .ok (if 2 ≤ v then alignRows.getD (v - 1) [] else []) := by
  unfold alignmentList
  change (if 2 ≤ v then _ else _) = _
  split
  · exact queryAlign_config h1 h2
  · rfl

/-- With alignment centres in 6..size-7, as the standard instance has them, no write of `MPAT` leaves the matrix
(60_exceptions.md R241). -/
theorem patternPuts_inside {v : Nat} (l : Level) (mask : BitVec 3) {ls : List Nat}
    (hls : ∀ a ∈ ls, 6 ≤ a ∧ a + 7 ≤ symbolSize v) :
    ∀ p ∈ patternPuts config v l mask ls, p.inside (symbolSize v) = true := by
  have hs : symbolSize v = 21 + 4 * (v - 1) := rfl
  have hblock : ∀ q ∈ blockCells, q.1 < 8 ∧ q.2 < 8 := by decide
  have hoff : ∀ d ∈ offsets, -2 ≤ d ∧ d ≤ 2 := by decide
  intro p hp
  simp only [patternPuts, List.mem_append] at hp
  simp only [Put.inside, Bool.and_eq_true, decide_eq_true_eq]
  rcases hp with ((((((hp | hp) | hp) | hp) | hp) | hp) | hp) | hp
  · obtain ⟨q, hq, rfl⟩ := List.mem_map.1 hp
    have := hblock q hq
    simp only
    omega
  · obtain ⟨q, hq, rfl⟩ := List.mem_map.1 hp
    have := hblock q hq
    simp only
    omega
  · obtain ⟨q, hq, rfl⟩ := List.mem_map.1 hp
    have := hblock q hq
    simp only
    omega
  · rw [darkModule, List.mem_singleton] at hp
    subst hp
    simp only
    omega
  · obtain ⟨⟨cx, cy⟩, hc, hp⟩ := List.mem_flatMap.1 hp
    obtain ⟨dr, hdr, hp⟩ := List.mem_flatMap.1 hp
    obtain ⟨dc, hdc, rfl⟩ := List.mem_map.1 hp
    have hr := hoff dr hdr
    have hcc := hoff dc hdc
    obtain ⟨y, hy, hc⟩ := List.mem_flatMap.1 (List.mem_filter.1 hc).1
    obtain ⟨x, hx, hc⟩ := List.mem_map.1 hc
    simp only [Prod.mk.injEq] at hc
    have := hls x hx
    have := hls y hy
    simp only
    omega
  · obtain ⟨i, hi, hp⟩ := List.mem_flatMap.1 hp
    rw [List.mem_range'_1] at hi
    simp only [List.mem_cons, List.not_mem_nil, or_false] at hp
    rcases hp with rfl | rfl <;> simp only <;> omega
  · simp only [formatPatterns, List.mem_append] at hp
    rcases hp with hp | hp
    · obtain ⟨i, hi, rfl⟩ := List.mem_map.1 hp
      rw [List.mem_range] at hi
      simp only [formatCell1]
      split_ifs <;> simp only <;> omega
    · obtain ⟨i, hi, rfl⟩ := List.mem_map.1 hp
      rw [List.mem_range] at hi
      simp only [formatCell2]
      split_ifs <;> simp only <;> omega
  · split at hp
    · obtain ⟨i, hi, hp⟩ := List.mem_flatMap.1 hp
      rw [List.mem_range] at hi
      simp only [List.mem_cons, List.not_mem_nil, or_false] at hp
      rcases hp with rfl | rfl <;> simp only <;> omega
    · simp at hp

end Sys2Proof.Laws
end

