-- ==== Sys2Proof/Laws/PerInstr.lean ====
section
/-! SUPPORT. Statements about every command as syntax: it is well formed, and each field value of its encoding fits its
field and is 0 where the command does not use it (30_encoding.md R111, R116). -/

namespace Sys2Proof.Laws.WellFormedness

/-- The command's register numbers name registers, and the fields of its encoding fit format C. -/
def Statement (i : Instr) : Prop := i.wellFormed = true ∧ (fieldsOf i).wellFormed = true

theorem gfexp (rd rs1 : XReg) : Statement (.gfexp rd rs1) := by
  constructor <;> simp [Instr.wellFormed, fieldsOf, RawFields.wellFormed]
theorem gflog (rd rs1 : XReg) : Statement (.gflog rd rs1) := by
  constructor <;> simp [Instr.wellFormed, fieldsOf, RawFields.wellFormed]
theorem pmul (pd pa pb : PReg) : Statement (.pmul pd pa pb) := by
  constructor <;> simp [Instr.wellFormed, fieldsOf, RawFields.wellFormed]
theorem pmulm (pd pa : PReg) (rs1 : XReg) : Statement (.pmulm pd pa rs1) := by
  constructor <;> simp [Instr.wellFormed, fieldsOf, RawFields.wellFormed]
theorem rsgen (pd : PReg) (rs1 : XReg) : Statement (.rsgen pd rs1) := by
  constructor <;> simp [Instr.wellFormed, fieldsOf, RawFields.wellFormed]
theorem rsdiv (rs1 : XReg) : Statement (.rsdiv rs1) := by
  constructor <;> simp [Instr.wellFormed, fieldsOf, RawFields.wellFormed]
theorem msel (rs1 rs2 : XReg) : Statement (.msel rs1 rs2) := by
  constructor <;> simp [Instr.wellFormed, fieldsOf, RawFields.wellFormed]
theorem masm : Statement .masm := by constructor <;> rfl
theorem mint : Statement .mint := by constructor <;> rfl
theorem menc (rs1 rs2 : XReg) : Statement (.menc rs1 rs2) := by
  constructor <;> simp [Instr.wellFormed, fieldsOf, RawFields.wellFormed]
theorem bchfmt (rd rs1 rs2 : XReg) : Statement (.bchfmt rd rs1 rs2) := by
  constructor <;> simp [Instr.wellFormed, fieldsOf, RawFields.wellFormed]
theorem bchver (rd rs1 : XReg) : Statement (.bchver rd rs1) := by
  constructor <;> simp [Instr.wellFormed, fieldsOf, RawFields.wellFormed]
theorem maskb (rd rs1 rs2 : XReg) : Statement (.maskb rd rs1 rs2) := by
  constructor <;> simp [Instr.wellFormed, fieldsOf, RawFields.wellFormed]
theorem mpat : Statement .mpat := by constructor <;> rfl
theorem mdata : Statement .mdata := by constructor <;> rfl
theorem mmargin : Statement .mmargin := by constructor <;> rfl
theorem mrender : Statement .mrender := by constructor <;> rfl
theorem qrenc (rs1 rs2 : XReg) : Statement (.qrenc rs1 rs2) := by
  constructor <;> simp [Instr.wellFormed, fieldsOf, RawFields.wellFormed]

end Sys2Proof.Laws.WellFormedness
end

