-- ==== Sys2Proof/Laws/Placement.lean ====
section
/-! SUPPORT. What the loop of `MDATA` keeps (47_data_placement.md R219): the canonical form, and every cell that was set. -/

namespace Sys2Proof.Laws

open Sys2Proof.Machine

/-- A cell that was set keeps its value. -/
theorem matRead_placeBits_of_set (cfg : Config) (mask : BitVec 3) (ps : List (Nat × Nat)) (bs : List Bool) (m : Matrix)
    {c r : Nat} (h : matRead m c r ≠ .unset) : matRead (placeBits cfg mask ps bs m).1 c r = matRead m c r := by
  induction ps generalizing bs m with
  | nil => cases bs <;> rfl
  | cons p ps ih =>
    cases bs with
    | nil => rfl
    | cons b bs =>
      obtain ⟨c', r'⟩ := p
      simp only [placeBits]
      split
      · exact ih _ _ h
      · rename_i hfree
        have hne : ¬(c = c' ∧ r = r') := by
          rintro ⟨rfl, rfl⟩
          exact hfree h
        have hm : matRead (matWrite m c' r' (colour (maskBit cfg mask c' r' b))) c r = matRead m c r := by
          rw [matRead_matWrite, if_neg hne]
        rw [ih _ _ (by rwa [hm]), hm]

/-- A cell outside the coordinates visited keeps its value. -/
theorem matRead_placeBits_of_not_mem (cfg : Config) (mask : BitVec 3) (ps : List (Nat × Nat)) (bs : List Bool)
    (m : Matrix) {c r : Nat} (h : (c, r) ∉ ps) : matRead (placeBits cfg mask ps bs m).1 c r = matRead m c r := by
  induction ps generalizing bs m with
  | nil => cases bs <;> rfl
  | cons p ps ih =>
    cases bs with
    | nil => rfl
    | cons b bs =>
      obtain ⟨c', r'⟩ := p
      rw [List.mem_cons, not_or] at h
      simp only [placeBits]
      split
      · exact ih _ _ h.2
      · rw [ih _ _ h.2, matRead_matWrite, if_neg]
        rintro ⟨rfl, rfl⟩
        exact h.1 rfl

/-- Placement keeps the canonical form. -/
theorem matWf_placeBits (cfg : Config) (mask : BitVec 3) (ps : List (Nat × Nat)) (bs : List Bool) {m : Matrix}
    (h : matWf m) : matWf (placeBits cfg mask ps bs m).1 := by
  induction ps generalizing bs m with
  | nil => cases bs <;> exact h
  | cons p ps ih =>
    cases bs with
    | nil => exact h
    | cons b bs =>
      obtain ⟨c', r'⟩ := p
      simp only [placeBits]
      split
      · exact ih _ h
      · exact ih _ (matWf_matWrite h _ _ _)

/-- How many bits are left over: those beyond the free cells among the coordinates visited, for coordinates without
repeats (47_data_placement.md R219, R220). -/
theorem length_placeBits_left (cfg : Config) (mask : BitVec 3) (ps : List (Nat × Nat)) (bs : List Bool) (m : Matrix)
    (hn : ps.Nodup) : (placeBits cfg mask ps bs m).2.length =
      bs.length - (ps.filter fun p => matRead m p.1 p.2 = .unset).length := by
  induction ps generalizing bs m with
  | nil => cases bs <;> simp [placeBits]
  | cons p ps ih =>
    obtain ⟨c, r⟩ := p
    rw [List.nodup_cons] at hn
    cases bs with
    | nil => simp [placeBits]
    | cons b bs =>
      simp only [placeBits]
      split
      · rename_i hset
        rw [ih _ _ hn.2]
        simp [hset]
      · rename_i hfree
        have hfree : matRead m c r = .unset := by simpa using hfree
        rw [ih _ _ hn.2]
        have : (ps.filter fun p => matRead (matWrite m c r (colour (maskBit cfg mask c r b))) p.1 p.2 = .unset) =
            ps.filter fun p => matRead m p.1 p.2 = .unset := by
          apply List.filter_congr
          intro p hp
          have : ¬(p.1 = c ∧ p.2 = r) := by
            rintro ⟨rfl, rfl⟩
            exact hn.1 hp
          rw [matRead_matWrite, if_neg this]
        rw [this]
        simp [hfree]

end Sys2Proof.Laws
end

