-- ==== Sys2Proof/Laws/Poly.lean ====
section
/-! SUPPORT. What the map of products is (41_polynomial_engine.md R142): strictly descending x-exponents, one entry for each
x-exponent that some product has, its value the exclusive or of the products there, whatever the order of insertion. -/

namespace Sys2Proof.Laws

open Sys2Proof.Machine

/-- The exclusive or of the values of the products at x-exponent `k`. -/
def xorAt (k : Nat) (ps : List (Nat × Byte)) : Byte :=
  (ps.filter fun q => q.1 = k).foldr (fun q acc => acc ^^^ q.2) 0#8

/-- Strictly descending x-exponents. -/
abbrev Descending (acc : List (Nat × Byte)) : Prop := acc.Pairwise fun q r => r.1 < q.1

theorem keys_mergeProduct (xe : Nat) (fv : Byte) (acc : List (Nat × Byte)) (k : Nat) :
    k ∈ (mergeProduct xe fv acc).map Prod.fst ↔ k = xe ∨ k ∈ acc.map Prod.fst := by
  induction acc with
  | nil => simp [mergeProduct]
  | cons q acc ih =>
    obtain ⟨j, w⟩ := q
    simp only [mergeProduct]
    split
    · simp
    · split
      · rename_i h
        subst h
        simp
      · simp only [List.map_cons, List.mem_cons, ih]
        tauto

theorem descending_mergeProduct {xe : Nat} {fv : Byte} {acc : List (Nat × Byte)} (h : Descending acc) :
    Descending (mergeProduct xe fv acc) := by
  induction acc with
  | nil => simp [mergeProduct]
  | cons q acc ih =>
    obtain ⟨j, w⟩ := q
    rw [Descending, List.pairwise_cons] at h
    simp only [mergeProduct]
    split
    · rename_i hj
      refine List.pairwise_cons.2 ⟨?_, List.pairwise_cons.2 h⟩
      intro r hr
      rcases List.mem_cons.1 hr with rfl | hr
      · exact hj
      · have := h.1 r hr
        simp only at this ⊢
        omega
    · split
      · exact List.pairwise_cons.2 ⟨fun r hr => h.1 r hr, h.2⟩
      · refine List.pairwise_cons.2 ⟨?_, ih h.2⟩
        intro r hr
        have hk : r.1 ∈ (mergeProduct xe fv acc).map Prod.fst := List.mem_map_of_mem hr
        rw [keys_mergeProduct] at hk
        rcases hk with hk | hk
        · simp only
          omega
        · obtain ⟨r', hr', he⟩ := List.mem_map.1 hk
          have := h.1 r' hr'
          simp only at this ⊢
          omega

theorem mem_mergeProduct {xe : Nat} {fv : Byte} {acc : List (Nat × Byte)} (h : Descending acc) {k : Nat} {v : Byte}
    (hm : (k, v) ∈ mergeProduct xe fv acc) :
    if k = xe then (∃ w, (k, w) ∈ acc ∧ v = w ^^^ fv) ∨ (k ∉ acc.map Prod.fst ∧ v = fv) else (k, v) ∈ acc := by
  induction acc with
  | nil =>
    simp only [mergeProduct, List.mem_singleton, Prod.mk.injEq] at hm
    obtain ⟨rfl, rfl⟩ := hm
    simp
  | cons q acc ih =>
    obtain ⟨j, w⟩ := q
    rw [Descending, List.pairwise_cons] at h
    have hlt : ∀ i u, (i, u) ∈ acc → i < j := fun i u hi => h.1 _ hi
    simp only [mergeProduct] at hm
    split at hm
    · rename_i hj
      have hkeys : ∀ i u, (i, u) ∈ (j, w) :: acc → i < xe := by
        intro i u hi
        rcases List.mem_cons.1 hi with he | hi
        · simp only [Prod.mk.injEq] at he
          rw [he.1]
          exact hj
        · exact (hlt i u hi).trans hj
      rcases List.mem_cons.1 hm with he | ht
      · simp only [Prod.mk.injEq] at he
        obtain ⟨rfl, rfl⟩ := he
        rw [if_pos rfl]
        refine .inr ⟨?_, rfl⟩
        intro hk
        obtain ⟨⟨i, u⟩, hr, he⟩ := List.mem_map.1 hk
        have := hkeys i u hr
        simp only at he
        omega
      · rw [if_neg]
        · exact ht
        · have := hkeys k v ht
          omega
    · split at hm
      · rename_i hj
        subst hj
        rcases List.mem_cons.1 hm with he | ht
        · simp only [Prod.mk.injEq] at he
          obtain ⟨rfl, rfl⟩ := he
          rw [if_pos rfl]
          exact .inl ⟨w, by simp, rfl⟩
        · have := hlt k v ht
          rw [if_neg (by omega)]
          exact List.mem_cons_of_mem _ ht
      · rename_i hj1 hj2
        rcases List.mem_cons.1 hm with he | ht
        · simp only [Prod.mk.injEq] at he
          obtain ⟨rfl, rfl⟩ := he
          rw [if_neg hj2]
          simp
        · have := ih h.2 ht
          split at this
          · rename_i hk
            rw [if_pos hk]
            rcases this with ⟨u, hu, rfl⟩ | ⟨hu, rfl⟩
            · exact .inl ⟨u, List.mem_cons_of_mem _ hu, rfl⟩
            · refine .inr ⟨?_, rfl⟩
              simp only [List.map_cons, List.mem_cons, not_or]
              exact ⟨by omega, hu⟩
          · rename_i hk
            rw [if_neg hk]
            exact List.mem_cons_of_mem _ this

theorem descending_accumulate (ps : List (Nat × Byte)) : Descending (accumulate ps) := by
  induction ps with
  | nil => simp [accumulate]
  | cons q ps ih => exact descending_mergeProduct ih

theorem keys_accumulate (ps : List (Nat × Byte)) (k : Nat) :
    k ∈ (accumulate ps).map Prod.fst ↔ k ∈ ps.map Prod.fst := by
  induction ps with
  | nil => simp [accumulate]
  | cons q ps ih =>
    have : accumulate (q :: ps) = mergeProduct q.1 q.2 (accumulate ps) := rfl
    rw [this, keys_mergeProduct, ih]
    simp

theorem value_accumulate (ps : List (Nat × Byte)) {k : Nat} {v : Byte} (h : (k, v) ∈ accumulate ps) :
    v = xorAt k ps := by
  induction ps generalizing v with
  | nil => simp [accumulate] at h
  | cons q ps ih =>
    obtain ⟨j, w⟩ := q
    have he : accumulate ((j, w) :: ps) = mergeProduct j w (accumulate ps) := rfl
    rw [he] at h
    have := mem_mergeProduct (descending_accumulate ps) h
    split at this
    · rename_i hk
      subst hk
      rcases this with ⟨u, hu, rfl⟩ | ⟨hu, rfl⟩
      · rw [ih hu]
        simp [xorAt]
      · have h0 : xorAt k ps = 0#8 := by
          rw [keys_accumulate] at hu
          unfold xorAt
          rw [List.filter_eq_nil_iff.2]
          · rfl
          · intro r hr hrk
            exact hu (List.mem_map.2 ⟨r, hr, by simpa using hrk⟩)
        have : xorAt k ((k, v) :: ps) = xorAt k ps ^^^ v := by simp [xorAt]
        rw [this, h0]
        simp
    · rename_i hk
      rw [ih this]
      have : ¬ j = k := fun e => hk e.symm
      simp [xorAt, this]

end Sys2Proof.Laws
end

