-- ==== Sys2Proof/Tests/Slice0.lean ====
section
/-! SUPPORT. The model's own tests: ill-formed field values refused, command words decoded, one step per test on a small
state with results from 95_test_vectors.md, and a witness for the hypotheses of every statement. -/

namespace Sys2Proof.Tests

set_option Elab.async false

open Sys2Proof Sys2Proof.Machine Sys2Proof.Claims Sys2Proof.Safety

/-! ### Small states -/

/-- The state after reset with `x0`, `x1`, ... loaded. -/
def withX (vs : List Nat) : State :=
  { State.reset with x := Vector.ofFn fun i => BitVec.ofNat 32 (vs.getD i.val 0) }

/-- A term. -/
def tm (xe lg fv : Nat) : Term := { xe := xe, lg := lg, fv := BitVec.ofNat 8 fv }

/-- A state whose `p0` and `p1` hold the terms given, with `x3` loaded. -/
def withP (a b : List Term) (x3 : Nat) : State := ((withX [0, 0, 0, x3]).setPoly 0 a).setPoly 1 b

/-- A symbol of a version at level L with mask 0. -/
def versionL (v : Nat) : Sym := { ver := BitVec.ofNat 6 v, lvl := .L, mask := 0#3 }

/-- A property of the state an outcome goes on in. -/
def next (o : Host.Outcome State Fault Refusal) (p : State → Bool) : Bool :=
  match o with
  | .next t => p t
  | _ => false

/-- The words of `STATUS.ERR` and `FINFO` a host reads. -/
def errInfo (t : State) : Nat × Nat := ((errBits t.err).toNat, (finfoWord t.finfo).toNat)

/-! ### Ill-formed field values, one for each check (30_encoding.md R111) -/

theorem test_wf_opcode : RawFields.wellFormed { op := 256 } = false := by decide
theorem test_wf_rd : RawFields.wellFormed { op := 1, rd := 8 } = false := by decide
theorem test_wf_rs1 : RawFields.wellFormed { op := 1, rs1 := 8 } = false := by decide
theorem test_wf_rs2 : RawFields.wellFormed { op := 0x40, rs2 := 8 } = false := by decide
theorem test_wf_pd : RawFields.wellFormed { op := 0x10, pd := 4 } = false := by decide
theorem test_wf_pa : RawFields.wellFormed { op := 0x10, pa := 4 } = false := by decide
theorem test_wf_pb : RawFields.wellFormed { op := 0x10, pb := 4 } = false := by decide
theorem test_wf_largest :
    RawFields.wellFormed { op := 255, rd := 7, rs1 := 7, rs2 := 7, pd := 3, pa := 3, pb := 3 } = true := by decide

/-! ### Command words, field by field: zeros 31:23, PB, PA, PD, RS2, RS1, RD, OP (30_encoding.md R111, R113) -/

theorem test_decode_gfexp : decode 0b00000000000000000001110100000001#32 = .ok (.gfexp 5 3) := by decide
theorem test_decode_gflog : decode 0b00000000000000000011011000000010#32 = .ok (.gflog 6 6) := by decide
theorem test_decode_pmul : decode 0b00000000011011000000000000010000#32 = .ok (.pmul 2 1 3) := by decide
theorem test_decode_pmulm : decode 0b00000000000011000001100000010001#32 = .ok (.pmulm 2 1 3) := by decide
theorem test_decode_rsgen : decode 0b00000000000001100000100000011000#32 = .ok (.rsgen 3 1) := by decide
theorem test_decode_rsdiv : decode 0b00000000000000000010100000100000#32 = .ok (.rsdiv 5) := by decide
theorem test_decode_msel : decode 0b00000000000000011001000000110000#32 = .ok (.msel 2 6) := by decide
theorem test_decode_masm : decode 0b00000000000000000000000000110001#32 = .ok .masm := by decide
theorem test_decode_mint : decode 0b00000000000000000000000000110010#32 = .ok .mint := by decide
theorem test_decode_menc : decode 0b00000000000000001110000000110011#32 = .ok (.menc 4 3) := by decide
theorem test_decode_bchfmt : decode 0b00000000000000000100001001000000#32 = .ok (.bchfmt 2 0 1) := by decide
theorem test_decode_bchver : decode 0b00000000000000000010000101000001#32 = .ok (.bchver 1 4) := by decide
theorem test_decode_maskb : decode 0b00000000000000001000100001000010#32 = .ok (.maskb 0 1 2) := by decide
theorem test_decode_mpat : decode 0b00000000000000000000000001001000#32 = .ok .mpat := by decide
theorem test_decode_mdata : decode 0b00000000000000000000000001001001#32 = .ok .mdata := by decide
theorem test_decode_mmargin : decode 0b00000000000000000000000001001010#32 = .ok .mmargin := by decide
theorem test_decode_mrender : decode 0b00000000000000000000000001001011#32 = .ok .mrender := by decide
theorem test_decode_qrenc : decode 0b00000000000000000100000001010000#32 = .ok (.qrenc 0 1) := by decide

/-- R116: the example word of `pmulm p2, p1, x3`. -/
theorem test_encode_pmulm : encode (.pmulm 2 1 3) = 0x000C1811#32 := by decide
/-- R115: the all-zero word. -/
theorem test_decode_zero : decode 0#32 = .error .unknownOpcode := by decide
/-- R115: a 1 in bit 23, in bit 31, in an unused field. -/
theorem test_decode_unused : decode 0x00800031#32 = .error .unusedBitSet ∧ decode 0x80000001#32 = .error .unusedBitSet ∧
    decode 0x00000131#32 = .error .unusedBitSet := by decide
/-- The numbering of spec/opcode_table.json: one 32-bit word, bit 0 the least significant. -/
theorem test_tableWord : decodeTableWord 32 0x000C1811 = some (.pmulm 2 1 3) := by decide

/-! ### One step each (95_test_vectors.md sections 2 to 6) -/

theorem test_gfexp_8 : next (exec (.gfexp 1 0) (withX [8])) (fun t => t.getX 1 = 29#32) = true := by decide +kernel
theorem test_gfexp_all_ones :
    next (exec (.gfexp 1 0) (withX [0xFFFFFFFF])) (fun t => t.getX 1 = 1#32) = true := by decide +kernel
theorem test_gflog_255 : next (exec (.gflog 1 0) (withX [255])) (fun t => t.getX 1 = 175#32) = true := by decide +kernel
theorem test_gflog_256 : next (exec (.gflog 1 0) (withX [256, 77]))
    (fun t => t.getX 1 = 77#32 && errInfo t = (5, 1)) = true := by decide +kernel

/-- Section 2.4, the sums of log forms above 254. -/
theorem test_pmul_wraps : next (exec (.pmul 1 0 1) (withP [tm 3 10 7, tm 0 200 7] [tm 2 100 7, tm 0 60 7] 0))
    (fun t => t.poly 1 = [tm 5 110 103, tm 3 70 94, tm 2 45 193, tm 0 5 32]) = true := by decide +kernel
/-- Section 2.4, cancelling products leave a zero-valued term. -/
theorem test_pmul_cancels : next (exec (.pmul 2 0 0) (withP [tm 1 0 1, tm 0 0 1] [] 0))
    (fun t => t.poly 2 = [tm 2 0 1, tm 1 0 0, tm 0 0 1]) = true := by decide +kernel
theorem test_pmulm_words : next (exec (.pmulm 2 0 3) (withP [tm 2 0 1, tm 1 25 3, tm 0 1 2] [] 260))
    (fun t => Memory.slice 0#32 (t.getPoly 2).terms 0 3 = [0x00020520#32, 0x00011E60#32, 0x00000640#32]) = true := by
  decide +kernel
/-- Section 2.4, the sum is not wrapped at 32 bits. -/
theorem test_pmulm_unbounded : next (exec (.pmulm 0 0 3) (withP [tm 0 254 9] [] 0xFFFFFFFF))
    (fun t => t.poly 0 = [tm 0 254 142]) = true := by decide +kernel
theorem test_rsgen_2 : next (exec (.rsgen 0 0) (withX [2]))
    (fun t => (t.getPoly 0).len = 3 && Memory.slice 0#32 (t.getPoly 0).terms 0 3 =
      [0x00020001#32, 0x00011903#32, 0x00000102#32]) = true := by decide +kernel
/-- Section 2.3, the row for n = 10. -/
theorem test_rsgen_10 : next (exec (.rsgen 3 0) (withX [10]))
    (fun t => (t.poly 3).map Term.lg = [0, 251, 67, 46, 61, 118, 70, 64, 94, 32, 45]) = true := by decide +kernel
/-- Section 3, the trace. -/
theorem test_rsdiv_trace : next (exec (.rsdiv 0) ((withX [3]).setCw [0x12#8, 0x34#8]))
    (fun t => t.ecclen = 3 && Memory.slice 0#8 t.ecc 0 3 = [0x17#8, 0x5B#8, 0x6A#8]) = true := by decide +kernel
/-- Section 3, "HELLO" at 1-H: shorter than the degree. -/
theorem test_rsdiv_short : next (exec (.rsdiv 0) ((withX [17]).setCw
      [0x40#8, 0x54#8, 0x84#8, 0x54#8, 0xC4#8, 0xC4#8, 0xF0#8, 0xEC#8, 0x11#8]))
    (fun t => Memory.slice 0#8 t.ecc 0 4 = [0x0B#8, 0xFF#8, 0x5F#8, 0x43#8]) = true := by decide +kernel

theorem test_msel_18 : next (exec (.msel 0 1) { withX [1, 0] with dinlen := 18 })
    (fun t => symWord t.sym = 0x00020002#32) = true := by decide +kernel
/-- Section 4: from Q the search goes on to M, a weaker level. -/
theorem test_msel_weaker : next (exec (.msel 0 1) { withX [30, 2] with dinlen := 1664 })
    (fun t => symWord t.sym = 0x00020122#32) = true := by decide +kernel

/-- "HELLO" in `DIN`. -/
def hello : State :=
  { withX [1, 0] with sym := versionL 1, dinlen := 5, din := Memory.splice 0#8 [] 0 [0x48#8, 0x45#8, 0x4C#8, 0x4C#8, 0x4F#8] }

/-- The codewords of "HELLO" at 1-L (section 5). -/
def helloCw : List Byte := [0x40#8, 0x54#8, 0x84#8, 0x54#8, 0xC4#8, 0xC4#8, 0xF0#8, 0xEC#8, 0x11#8, 0xEC#8, 0x11#8, 0xEC#8,
  0x11#8, 0xEC#8, 0x11#8, 0xEC#8, 0x11#8, 0xEC#8, 0x11#8]

theorem test_masm_hello : next (exec .masm hello) (fun t => t.cwData = helloCw) = true := by decide +kernel
theorem test_masm_too_long : next (exec .masm { hello with dinlen := 18 }) (fun t => errInfo t = (5, 8) && t.cwlen = 0)
    = true := by decide +kernel
/-- Section 5: the bits of "HELLO" at 1-L end in the EC codewords 0x20, 0x84. -/
theorem test_mint_hello : next (exec .mint (hello.setCw helloCw))
    (fun t => t.bitlen = 208 && Memory.slice false t.bits 192 16 = byteBits 0x20#8 ++ byteBits 0x84#8) = true := by
  decide +kernel
theorem test_mint_wrong_count : next (exec .mint { hello with cwlen := 18 }) (fun t => errInfo t = (5, 9)) = true := by
  decide +kernel
theorem test_menc_hello : next (exec (.menc 0 1) { hello with sym := State.reset.sym })
    (fun t => symWord t.sym = 0x00020001#32 && t.cwData = helloCw && t.bitlen = 208) = true := by decide +kernel

/-- Section 2.5, all three fields name `x7`. -/
theorem test_bchfmt_same : next (exec (.bchfmt 7 7 7) (withX [0, 0, 0, 0, 0, 0, 0, 3]))
    (fun t => t.getX 7 = 0x000019D0#32) = true := by decide +kernel
theorem test_bchfmt_level_first : next (exec (.bchfmt 2 0 1) (withX [4, 8])) (fun t => errInfo t = (5, 6)) = true := by
  decide +kernel
theorem test_bchver_40 : next (exec (.bchver 1 0) (withX [40])) (fun t => t.getX 1 = 0x00028C69#32) = true := by
  decide +kernel
theorem test_bchver_64 : next (exec (.bchver 1 0) (withX [64, 5])) (fun t => t.getX 1 = 5#32 && errInfo t = (5, 11)) = true := by
  decide +kernel
theorem test_maskb_5 : next (exec (.maskb 0 1 2) { withX [0, 6, 1] with sym := { versionL 0 with mask := 5#3 } })
    (fun t => t.getX 0 = 1#32) = true := by decide +kernel
theorem test_maskb_177 : next (exec (.maskb 0 1 2) (withX [0, 177, 0])) (fun t => errInfo t = (5, 12)) = true := by
  decide +kernel

/-- 46_matrix_patterns.md R197, the drawing of version 1, level L, mask 0: the row 8 of the matrix after `MPAT`, and the dark
module. -/
theorem test_mpat_row8 : next (exec .mpat { State.reset with sym := versionL 1 })
    (fun t => t.matsize = 21 && (List.range 21).map (fun c => matRead t.mat c 8) =
      [.dark, .dark, .dark, .light, .dark, .dark, .dark, .dark, .dark, .unset, .unset, .unset, .unset,
       .dark, .dark, .light, .light, .light, .dark, .light, .light] && matRead t.mat 8 13 = .dark) = true := by
  decide +kernel
/-- R220: more bits than free cells. -/
theorem test_mdata_overflow : next (exec .mdata { State.reset with phase := .patternsPlaced, matsize := 3, bitlen := 7 })
    (fun t => errInfo t = (8, 1) && t.mat = []) = true := by decide +kernel
/-- R216, R217, R219: the first two free cells are the right and then the left one of the last row; mask 0 flips where the
coordinates sum to an even number. -/
theorem test_mdata_order :
    next (exec .mdata { State.reset with phase := .patternsPlaced, matsize := 3, bitlen := 2, bits := [(1, true)] })
    (fun t => matRead t.mat 1 2 = .light && matRead t.mat 0 2 = .light && matRead t.mat 1 1 = .unset) = true := by
  decide +kernel
/-- R222: a symbol of one dark cell framed by four light cells. -/
theorem test_mmargin_frame :
    next (exec .mmargin { State.reset with phase := .dataInserted, matsize := 1, mat := matWrite [] 0 0 .dark })
    (fun t => t.matsize = 9 && matRead t.mat 4 4 = .dark && matRead t.mat 0 0 = .light && matRead t.mat 8 8 = .light &&
      matRead t.mat 9 0 = .unset) = true := by decide +kernel
theorem test_mmargin_unset : next (exec .mmargin { State.reset with phase := .dataInserted, matsize := 1 })
    (fun t => errInfo t = (8, 2) && t.matsize = 1) = true := by decide +kernel
theorem test_mrender_bad_phase : next (exec .mrender { State.reset with phase := .marginApplied, sym := versionL 1 })
    (fun t => errInfo t = (6, 1)) = true := by decide +kernel
theorem test_qrenc_too_much : next (exec (.qrenc 0 1) { withX [40, 3] with dinlen := 1274 })
    (fun t => errInfo t = (1, 0) && t.sym = State.reset.sym) = true := by decide +kernel

/-- R31, R115: an illegal word written to `CMD` is reported, by the step that takes it. -/
theorem test_step_illegal : next (step (State.reset.withFetchWord 32 0)) (fun t => errInfo t = (4, 1) && t.pending = []) = true := by
  decide +kernel
/-- R35: a host write of version 41 to `SYM` is ignored. -/
theorem test_sym_41 : memWrite State.reset 0x00004#20 41#32 = State.reset := by decide +kernel

/-! ### Witnesses: states and operands that meet the hypotheses of each statement, clause by clause -/

/-- `operand` answers what `withX` loads. -/
def ops (s : State) : Nat × Nat × Nat := (operand s 0, operand s 1, operand s 2)

theorem witness_StepRunsTheDecodedCommand :
    decode 0x0001FF40#32 = .ok (.bchfmt 7 7 7) ∧ State.reset.pending = [] ∧ (0x00000#20 ≠ 0x00001#20) := by decide

/-- No command's word has a 1 in bit 23 or bit 31, or is 0x31 with a 1 in its unused field `RD`. -/
theorem no_command_has (i : Instr) : encode i ∉ [0x00800031#32, 0x80000001#32, 0x00000131#32] := by
  cases i with
  | gfexp a b => revert a b; decide +kernel
  | gflog a b => revert a b; decide +kernel
  | pmul a b c => revert a b c; decide +kernel
  | pmulm a b c => revert a b c; decide +kernel
  | rsgen a b => revert a b; decide +kernel
  | rsdiv a => revert a; decide +kernel
  | msel a b => revert a b; decide +kernel
  | masm => decide
  | mint => decide
  | menc a b => revert a b; decide +kernel
  | bchfmt a b c => revert a b c; decide +kernel
  | bchver a b => revert a b; decide +kernel
  | maskb a b c => revert a b c; decide +kernel
  | mpat => decide
  | mdata => decide
  | mmargin => decide
  | mrender => decide
  | qrenc a b => revert a b; decide +kernel

theorem witness_IllegalWordsAreReported : State.reset.fatal = false ∧
    (0x00000000#32).toNat % 256 = 0 ∧ (0xFFFFFFFF#32).toNat % 256 = 0xFF ∧
    (∀ i, encode i ≠ 0x00800031#32) ∧ (∀ i, encode i ≠ 0x00000131#32) := by
  refine ⟨rfl, rfl, rfl, fun i h => ?_, fun i h => ?_⟩
  · exact no_command_has i (by rw [h]; decide)
  · exact no_command_has i (by rw [h]; decide)

theorem witness_CommandCompletesOrChangesOnlyTheReport :
    { State.reset with fatal := true }.fatal = true ∧ State.reset.fatal = false := by decide

theorem witness_FatalRefusesCommandsUntilReset :
    { State.reset with fatal := true, err := .malformedLookup, pending := [.write 0x00001#20 0x31#32] }.fatal = true ∧
    ∃ t, step { State.reset with fatal := true, err := .malformedLookup, pending := [.write 0x00001#20 0x31#32] } = .next t :=
  ⟨rfl, _, rfl⟩

theorem witness_CtrlWriteResetsTheBlock : (0x00000001#32).getLsbD 0 = true ∧ (0xFFFFFFFF#32).getLsbD 0 = true ∧
    (0x00000000#32).getLsbD 0 = false ∧ (0xFFFFFFFE#32).getLsbD 0 = false := by decide

theorem witness_DecodeReadsBackEveryCommand : (Instr.qrenc 7 7).wellFormed = true ∧ (Instr.pmul 3 3 3).wellFormed = true := by
  decide

theorem witness_EveryLegalWordIsItsCommandsWord : decode 0x007E0010#32 = .ok (.pmul 3 3 3) := by decide

/-- The last address of every window and both ends of every gap of the map, clause by clause; no address of a gap is
mapped. -/
theorem witness_HostReadsReturnTheMappedValue :
    [0x007FF, 0x01FFF, 0x02FFF, 0x030FF, 0x0FFFF, 0x1FFFF].map (fun a => locate (at20 a)) =
      [.term 3 255, .din 4095, .cw 4095, .ecc 255, .bits 32767, .mat 255 255] ∧
    [0x00006, 0x00007, 0x00015, 0x0001F, 0x00024, 0x003FF, 0x00800, 0x00FFF, 0x03100, 0x07FFF, 0x20000, 0xFFFFF].all
      (fun a => locate (at20 a) = .unmapped) = true := by decide +kernel

theorem witness_HostWritesStoreAtTheMappedPlace :
    [0x00400, 0x01000, 0x02000, 0x03000, 0x08000].map (fun a => locate (at20 a)) =
      [.term 0 0, .din 0, .cw 0, .ecc 0, .bits 0] ∧
    [0x00000, 0x00002, 0x00005, 0x00012, 0x00014, 0x10000, 0x1FFFF].map (fun a => locate (at20 a)) =
      [.id, .status, .finfo, .ecclen, .matsize, .mat 0 0, .mat 255 255] := by decide +kernel

theorem witness_HostWriteLeavesEveryOtherAddressAlone :
    (0x00004#20 ≠ 0x00001#20) ∧ (0x00004#20 ≠ 0x00003#20) ∧ (0x00004#20 ≠ 0x00002#20) := by decide

theorem witness_SymWriteTakesEffectOnlyInIdle :
    (State.reset.phase = .idle ∧ State.reset.fatal = false ∧ ((40#32).extractLsb' 0 6).toNat ≤ 40) ∧
    ¬(State.reset.phase = .idle ∧ State.reset.fatal = false ∧ ((41#32).extractLsb' 0 6).toNat ≤ 40) := by decide

theorem witness_GfexpWritesThePowerOfTheGenerator : (withX [0xFFFFFFFF]).fatal = false := rfl

theorem witness_GflogWritesTheDiscreteLogarithm : (withX [0]).fatal = false ∧ operand (withX [0]) 0 = 0 ∧
    operand (withX [1]) 0 ≠ 0 ∧ operand (withX [255]) 0 ≤ 255 ∧ operand (withX [256]) 0 > 255 := by decide +kernel

theorem witness_ExponentiationGeneratesTheGroup : (254 < 255) ∧ (255#8 ≠ 0#8) := by decide

theorem witness_LogInvertsExponentiation : (1#8 ≠ 0#8) ∧ (255#8 ≠ 0#8) := by decide

theorem witness_AddingLogsMultipliesInTheField : (255#8 ≠ 0#8) ∧ (2#8 ≠ 0#8) := by decide

/-- 256 terms with x-exponents 255 to 0. -/
def manyTerms : List Term := (List.range 256).reverse.map fun k => tm k 0 1

/-- Sources not descending, descending with the greatest legal and the least illegal sum of x-exponents. -/
theorem witness_PmulMultipliesPolynomials :
    (withP [] [] 0).fatal = false ∧ ¬Descending ((withP [tm 1 0 1, tm 1 0 1] [] 0).poly 0) ∧
    Descending ((withP [tm 65535 0 1] [tm 1 0 1, tm 0 0 1] 0).poly 0) ∧
    Descending ((withP [tm 65535 0 1] [tm 1 0 1, tm 0 0 1] 0).poly 1) ∧
    exponentSums [tm 65535 0 1] [tm 1 0 1, tm 0 0 1] = [65536, 65535] ∧
    exponentSums [tm 65535 0 1] [tm 0 0 1] = [65535] := by
  unfold Descending
  decide +kernel

/-- A product of more than 256 terms and one of 256. -/
theorem witness_PmulMultipliesPolynomials_length :
    (exponentSums manyTerms [tm 1 0 1, tm 0 0 1]).dedup.length > 256 ∧
    (exponentSums manyTerms [tm 65280 0 1]).dedup.length ≤ 256 ∧
    (exponentSums manyTerms [tm 65280 0 1]).all (fun k => k ≤ 65535) = true := by
  refine ⟨?_, (List.dedup_sublist _).length_le.trans (by decide +kernel), by decide +kernel⟩
  have h : List.range 257 ⊆ (exponentSums manyTerms [tm 1 0 1, tm 0 0 1]).dedup := fun k hk => by
    have hk : k < 257 := List.mem_range.1 hk
    simp only [List.mem_dedup, exponentSums, manyTerms, tm, List.mem_flatMap, List.mem_map, List.mem_reverse, List.mem_range]
    by_cases h : k < 256
    · exact ⟨_, ⟨k, h, rfl⟩, _, .tail _ (.head _), rfl⟩
    · exact ⟨_, ⟨255, by omega, rfl⟩, _, .head _, by show 255 + 1 = k; omega⟩
  have hl := List.nodup_range.length_le_of_subset h
  rw [List.length_range] at hl
  exact hl

theorem witness_PmulmScalesEveryTerm :
    (withP [tm 2 0 1, tm 0 1 2] [] 5).fatal = false ∧ Descending ((withP [tm 2 0 1, tm 0 1 2] [] 5).poly 0) ∧
    ¬Descending ((withP [tm 0 0 1, tm 2 1 2] [] 5).poly 0) := by
  unfold Descending
  decide +kernel

theorem witness_PolynomialRegisterReadsBackItsTerms :
    (∀ t ∈ [tm 65535 255 9], t.xe ≤ 65535 ∧ t.lg ≤ 255) ∧ ((1 : PReg) ≠ 0) := by decide

theorem witness_RsgenBuildsTheGenerator : (withX [1, 254]).fatal = false ∧ ops (withX [1, 254, 255]) = (1, 254, 255) ∧
    operand (withX [0]) 0 < 1 := by decide +kernel

theorem witness_GeneratorPolynomialIsMonicAndDense : (1 ≤ 1 ∧ 1 ≤ 254) ∧ (1 ≤ 254 ∧ 254 ≤ 254) := by decide

theorem witness_GeneratorPolynomialHasTheRoots :
    (1 ≤ 253 ∧ 253 ≤ 253 ∧ 254 ≤ 253 + 1) ∧ (1 ≤ 254 ∧ 254 ≤ 254 ∧ 253 < 254) ∧ (1 ≤ 1 ∧ 1 ≤ 254 ∧ 0 < 1) := by decide

theorem witness_RsdivWritesTheEcCodewords : ops (withX [1, 254, 255]) = (1, 254, 255) ∧ operand (withX [0]) 0 = 0 ∧
    (withX [1]).cwlen = 0 ∧ 1 ≤ ((withX [1]).setCw [0#8]).cwlen ∧ ((withX [1]).setCw [0#8]).fatal = false := by decide +kernel

theorem witness_DivideGivesTheRemainder : ([0#8] ≠ []) ∧ (1 ≤ 254 ∧ 254 ≤ 254) := by decide

theorem witness_DivideIsLinear : (1 ≤ 1 ∧ 1 ≤ 254) ∧ ([1#8] ≠ []) ∧ [1#8].length = [2#8].length := by decide

/-- `DataFits`, decided. -/
def fitsB (n v : Nat) (l : Level) : Bool :=
  match config.T.ec v l, config.T.lenbits v with
  | some t, some w => n < 2 ^ w && 4 + w + 8 * n + 4 ≤ 8 * (t.b1 * t.d1 + t.b2 * t.d2)
  | _, _ => false

theorem dataFits_iff (n v : Nat) (l : Level) : DataFits n v l ↔ fitsB n v l = true := by
  unfold DataFits fitsB
  cases config.T.ec v l <;> cases config.T.lenbits v <;> simp

/-- 17 bytes fit 1-L, the first pair searched. -/
theorem firstFit_17 : FirstFit 17 1 0 .L 1 :=
  ⟨[], _, rfl, by simp, (dataFits_iff 17 1 .L).2 (by decide +kernel)⟩

/-- From level Q at version 40 on, 1664 bytes first fit 40-M. -/
theorem firstFit_1664 : FirstFit 1664 40 2 .M 40 := by
  refine ⟨[(.Q, 40)], [(.H, 40)], rfl, ?_, (dataFits_iff 1664 40 .M).2 (by decide +kernel)⟩
  intro q hq
  obtain rfl := List.mem_singleton.1 hq
  rw [dataFits_iff]
  decide +kernel

/-- From level H at version 40 on, 1274 bytes fit nothing. -/
theorem noFit_1274 : ∀ q ∈ searchOrder 40 3, ¬DataFits 1274 q.2 q.1 := by
  intro q hq
  obtain rfl := List.mem_singleton.1 hq
  rw [dataFits_iff]
  decide +kernel

theorem witness_MselChoosesTheFirstFit :
    { State.reset with phase := .patternsPlaced }.phase ≠ .idle ∧
    ops (withX [0, 41, 1]) = (0, 41, 1) ∧ ops (withX [40, 4, 3]) = (40, 4, 3) ∧ State.reset.phase = .idle ∧
    State.reset.fatal = false ∧ FirstFit 17 1 0 .L 1 ∧ FirstFit 1664 40 2 .M 40 ∧
    (∀ q ∈ searchOrder 40 3, ¬DataFits 1274 q.2 q.1) :=
  ⟨by decide, by decide +kernel, by decide +kernel, rfl, rfl, firstFit_17, firstFit_1664, noFit_1274⟩

theorem witness_MasmAssemblesTheCodewords :
    State.reset.sym.ver = 0#6 ∧ hello.sym.ver ≠ 0#6 ∧ hello.fatal = false ∧
    config.T.ec 1 .L = some { e := 7, b1 := 1, d1 := 19, b2 := 0, d2 := 0 } ∧ config.T.lenbits 1 = some 8 ∧
    DataFits 17 1 .L ∧ ¬DataFits 18 1 .L := by
  refine ⟨rfl, by decide, rfl, by decide +kernel, by decide +kernel, (dataFits_iff 17 1 .L).2 (by decide +kernel), ?_⟩
  rw [dataFits_iff]
  decide +kernel

theorem witness_MintInterleavesTheBlocks :
    State.reset.sym.ver = 0#6 ∧ (hello.setCw helloCw).sym.ver ≠ 0#6 ∧ (hello.setCw helloCw).cwlen = 1 * 19 + 0 * 0 ∧
    hello.cwlen ≠ 1 * 19 + 0 * 0 ∧ config.T.rembits 1 = some 0 ∧ config.T.rembits 2 = some 7 := by decide +kernel

/-- The outcomes of a chain of three commands: whether each completes. -/
def chain (a b c : Instr) (s : State) : List Bool :=
  match exec a s with
  | .next s1 =>
    match exec b s1 with
    | .next s2 =>
      match exec c s2 with
      | .next s3 => [decide (s1.err = .ok), decide (s2.err = .ok), decide (s3.err = .ok)]
      | _ => []
    | _ => []
  | _ => []

/-- A state in which `MRENDER` has as many bits as free cells: version 1, level L, 208 bits. -/
def ready : State := { State.reset with sym := versionL 1, bitlen := 208 }

/-- A state in which `MENC` completes and `MRENDER` then has too few free cells: a matrix that is not empty in phase Idle. -/
def crowded : State := { hello with mat := [(20, [(20, .dark)])] }

/-- Every clause of the statement is met: a part fails in some state, all complete in another. -/
theorem witness_CompositesAreTheirPartsAsOneTransaction :
    chain (.msel 0 1) .masm .mint hello = [true, true, true] ∧
    (chain (.msel 0 1) .masm .mint (withX [41, 0])).take 1 = [false] ∧
    (chain .mpat .mdata .mmargin State.reset).take 1 = [false] ∧
    (chain .mpat .mdata .mmargin { ready with bitlen := 209 }).take 2 = [true, false] ∧
    chain .mpat .mdata .mmargin { ready with bitlen := 0 } = [true, true, false] := by decide +kernel

theorem witness_CompositesAreTheirPartsAsOneTransaction_whole :
    chain .mpat .mdata .mmargin ready = [true, true, true] := by decide +kernel

theorem witness_CompositesAreTheirPartsAsOneTransaction_qrenc :
    (chain (.menc 0 1) .mrender .masm (withX [41, 0])).take 1 = [false] ∧
    (chain (.menc 0 1) .mrender .masm { hello with phase := .idle }).take 2 = [true, true] ∧
    (chain (.menc 0 1) .mrender .masm crowded).take 2 = [true, false] := by decide +kernel

theorem witness_MencCompletesWhenTheDataFits :
    ops (withX [1, 0, 40]) = (1, 0, 40) ∧ ops (withX [40, 2, 3]) = (40, 2, 3) ∧ (withX []).phase = .idle ∧
    (withX []).fatal = false ∧ FirstFit 17 1 0 .L 1 ∧ FirstFit 1664 40 2 .M 40 :=
  ⟨by decide +kernel, by decide +kernel, rfl, rfl, firstFit_17, firstFit_1664⟩

theorem witness_BchStringIsAMultipleOfTheGenerator :
    (5 ≤ 18 ∧ 31 < 2 ^ 5 ∧ 2 ^ 10 ≤ 0x537 ∧ 0x537 < 2 ^ (10 + 1)) ∧
    (18 ≤ 18 ∧ 2 ^ 18 - 1 < 2 ^ 18 ∧ 2 ^ 0 ≤ 1 ∧ 1 < 2 ^ (0 + 1)) := by decide

theorem witness_BchfmtWritesTheFormatString : (withX []).fatal = false ∧ ops (withX [3, 4, 7]) = (3, 4, 7) ∧
    operand (withX [8]) 0 > 7 := by decide +kernel

theorem witness_BchverWritesTheVersionString : (withX []).fatal = false ∧ ops (withX [63, 64]) = (63, 64, 0) := by
  decide +kernel

theorem witness_MetadataStringsAreInjective : config.Legal ∧ (∀ l l', config.T.lvlbits l = config.T.lvlbits l' → l = l') := by
  refine ⟨⟨by decide, by decide, by decide, by decide⟩, fun l l' => ?_⟩
  cases l <;> cases l' <;> decide

theorem witness_MaskbInvertsWhereThePredicateHolds : (withX []).fatal = false ∧ ops (withX [1, 176, 176]) = (1, 176, 176) ∧
    ops (withX [2, 177, 0]) = (2, 177, 0) := by decide +kernel

theorem witness_MaskingIsItsOwnInverse : ((0 : XReg) ≠ 1) ∧ ((0 : XReg) ≠ 2) ∧ ops (withX [1, 176, 176]) = (1, 176, 176) ∧
    ∃ t u, exec (.maskb 0 1 2) (withX [1, 176, 176]) = .next t ∧ exec (.maskb 0 1 2) t = .next u :=
  ⟨by decide, by decide, by decide +kernel, _, _, rfl, rfl⟩

/-- The last of the writes for version 1 has none after it, and no write names (9, 9). -/
theorem witness_MpatPlacesThePatterns : { State.reset with phase := .marginApplied }.phase ≠ .idle ∧
    State.reset.sym.ver = 0#6 ∧ (versionL 1).ver ≠ 0#6 ∧ (versionL 40).ver ≠ 0#6 ∧ (versionL 40).ver.toNat ≤ 40 ∧
    (∃ p, (patternWrites ready).getLast? = some p ∧
      patternWrites ready = (patternWrites ready).dropLast ++ p :: []) ∧
    (∀ p ∈ patternWrites ready, ¬(p.col = ((9 : Nat) : Int) ∧ p.row = ((9 : Nat) : Int))) := by
  refine ⟨by decide, by decide, by decide, by decide, by decide, ?_, by decide +kernel⟩
  have h : patternWrites ready ≠ [] := by decide +kernel
  exact ⟨_, List.getLast?_eq_some_getLast h, (List.dropLast_append_getLast h).symm⟩

/-- Cells at the bounds of the last two clauses: the inner corner of a finder block, the ends of the format cells, the first cell
beyond them, the version blocks from version 7 on, an alignment square of version 2, and a cell outside the symbol. -/
theorem witness_MpatLeavesTheCanonicalCells_cells :
    patternCell 1 7 7 = true ∧ patternCell 1 8 8 = true ∧ patternCell 1 9 8 = false ∧ patternCell 1 9 9 = false ∧
    patternCell 1 13 8 = true ∧ patternCell 1 20 20 = false ∧ patternCell 6 30 0 = false ∧ patternCell 7 34 0 = true ∧
    patternCell 7 33 0 = false ∧ patternCell 2 16 16 = true ∧ patternCell 2 15 16 = false ∧ ¬(21 < side 1) := by
  decide +kernel

/-- The states of the two statements about the cells after `MPAT`: version 1, version 7 and version 40. -/
theorem witness_MpatLeavesTheCanonicalCells : ∀ v ∈ [1, 7, 40], (beforePatterns v).fatal = false ∧
    (beforePatterns v).phase = .idle ∧ v = (beforePatterns v).sym.ver.toNat ∧ 1 ≤ v ∧ v ≤ 40 ∧
    ∃ t, exec .mpat (beforePatterns v) = .next t := by
  intro v hv
  simp only [List.mem_cons, List.not_mem_nil, or_false] at hv
  rcases hv with rfl | rfl | rfl <;> exact ⟨rfl, rfl, rfl, by decide, by decide, _, rfl⟩

/-- The only centre of version 2; a centre of version 7 on row 6; the last centre of version 40. -/
theorem witness_MpatLeavesTheAlignmentPatterns :
    config.T.align 2 = some [6, 18] ∧ config.T.align 7 = some [6, 22, 38] ∧
    config.T.align 40 = some [6, 30, 58, 86, 114, 142, 170] ∧
    (¬(18 ≤ 9 ∧ 18 ≤ 9) ∧ ¬(18 + 10 ≥ side 2 ∧ 18 ≤ 9) ∧ ¬(18 ≤ 9 ∧ 18 + 10 ≥ side 2)) ∧
    (¬(22 ≤ 9 ∧ 6 ≤ 9) ∧ ¬(22 + 10 ≥ side 7 ∧ 6 ≤ 9) ∧ ¬(22 ≤ 9 ∧ 6 + 10 ≥ side 7)) := by decide +kernel

theorem witness_FreeCellsEqualBitsUpToVersionSeven : (1 ≤ 1 ∧ 1 ≤ 7) ∧ (1 ≤ 7 ∧ 7 ≤ 7) := by decide

theorem witness_ZigzagVisitsEachCellOnce : (21 ≤ side 1 ∧ side 1 % 2 = 1) ∧ (21 ≤ side 40 ∧ side 40 % 2 = 1) := by decide

/-- A square of side 3 has six free cells: six bits fit, seven do not. -/
theorem witness_MdataFillsTheFreeCellsInOrder :
    State.reset.phase ≠ .patternsPlaced ∧ State.reset.fatal = false ∧ (freeCells [] 3).length = 6 ∧ (0, 2) ∉ (freeCells [] 3).take 1 ∧
    (freeCells [] 3)[5]? = some (0, 0) := by decide +kernel

theorem witness_MmarginFramesTheSymbol :
    State.reset.phase ≠ .dataInserted ∧ (∃ c < 1, ∃ r < 1, matRead [] c r = .unset) ∧
    (∀ c < 1, ∀ r < 1, matRead (matWrite [] 0 0 .dark) c r ≠ .unset) := by decide +kernel

/-- A state whose bits are those of version 40, level L, with every cell `Unset`. -/
def readyAtForty : State := { State.reset with sym := versionL 40, bitlen := 29648 }

/-- The hypotheses are met at both ends of the range of versions. -/
theorem witness_MrenderCompletesWhenTheBitsFillTheSymbol :
    (ready.fatal = false ∧ ready.phase = .idle ∧ (∀ c r, matRead ready.mat c r = .unset) ∧ 1 = ready.sym.ver.toNat ∧
      bitCount 1 .L = some ready.bitlen) ∧
    (readyAtForty.fatal = false ∧ readyAtForty.phase = .idle ∧ (∀ c r, matRead readyAtForty.mat c r = .unset) ∧
      40 = readyAtForty.sym.ver.toNat ∧ bitCount 40 .L = some readyAtForty.bitlen) :=
  ⟨⟨rfl, rfl, fun _ _ => rfl, rfl, by decide +kernel⟩, rfl, rfl, fun _ _ => rfl, rfl, by decide +kernel⟩

/-- The hypotheses are met by 17 bytes searched from 1-L and by 1664 bytes searched from 40-Q. -/
theorem witness_QrencCompletesWhenTheDataFits :
    ({ withX [1, 0] with dinlen := 17 }.fatal = false ∧ { withX [1, 0] with dinlen := 17 }.phase = .idle ∧
      (∀ c r, matRead { withX [1, 0] with dinlen := 17 }.mat c r = .unset) ∧
      ops { withX [1, 0] with dinlen := 17 } = (1, 0, 0) ∧ FirstFit 17 1 0 .L 1) ∧
    (ops { withX [40, 2] with dinlen := 1664 } = (40, 2, 0) ∧ FirstFit 1664 40 2 .M 40) :=
  ⟨⟨rfl, rfl, fun _ _ => rfl, by decide +kernel, firstFit_17⟩, by decide +kernel, firstFit_1664⟩

/-- The standard instance with a hole in `T.ec`, in `T.lenbits`, in `T.rembits` and in `T.align`. -/
def withHoles (ec lenbits rembits align : Bool) : Config :=
  { config with T := { config.T with
      ec := fun v l => if ec then none else config.T.ec v l
      lenbits := fun v => if lenbits then none else config.T.lenbits v
      rembits := fun v => if rembits then none else config.T.rembits v
      align := fun v => if align then none else config.T.align v } }

/-- The standard instance with one value for every key of `T.ec`, of `T.lenbits` and of `T.rembits`. -/
def withValues (ec : EcEntry) (lenbits rembits : Nat) : Config :=
  { config with T := { config.T with ec := fun _ _ => some ec, lenbits := fun _ => some lenbits, rembits := fun _ => some rembits } }

/-- The entry of 1-L. -/
def entryOneL : EcEntry := { e := 7, b1 := 1, d1 := 19, b2 := 0, d2 := 0 }

theorem ecUndefined_of_some {c : Config} {v : Nat} {l : Level} {t : EcEntry} (h : c.T.ec v l = some t) :
    EcUndefined c v l ↔ (t.e = 0 ∨ t.e > 254 ∨ t.b1 = 0 ∨ t.d1 = 0 ∨ (t.b2 > 0 ∧ t.d2 = 0) ∨
      t.b1 * t.d1 + t.b2 * t.d2 > 4096 ∨
      8 * (t.b1 * (t.d1 + t.e) + t.b2 * (t.d2 + t.e)) + ((c.T.rembits v).filter (· ≤ 7)).getD 0 > 32768) := by
  simp [EcUndefined, h]

/-- What counts as undefined: a hole, a value on the wrong side of each bound; and values at the bounds that do not. -/
theorem witness_MalformedLookupIsFatalForEveryTable_undefined :
    EcUndefined (withHoles true false false false) 1 .L ∧
    EcUndefined (withValues { entryOneL with e := 255 } 8 0) 1 .L ∧ EcUndefined (withValues { entryOneL with b2 := 1 } 8 0) 1 .L ∧
    ¬EcUndefined (withValues { entryOneL with e := 254 } 8 0) 1 .L ∧ ¬EcUndefined (withHoles false false true false) 1 .L ∧
    LenbitsUndefined (withHoles false true false false) 1 ∧ LenbitsUndefined (withValues entryOneL 0 0) 1 ∧
    LenbitsUndefined (withValues entryOneL 17 0) 1 ∧ ¬LenbitsUndefined (withValues entryOneL 16 0) 1 ∧
    RembitsUndefined (withHoles false false true false) 1 ∧ RembitsUndefined (withValues entryOneL 8 8) 1 ∧
    ¬RembitsUndefined (withValues entryOneL 8 7) 1 := by
  have one : (withHoles false false true false).T.ec 1 .L = some entryOneL := by decide +kernel
  refine ⟨fun _ h => (nomatch h), (ecUndefined_of_some rfl).2 (by decide), (ecUndefined_of_some rfl).2 (by decide),
    fun h => absurd ((ecUndefined_of_some rfl).1 h) (by decide), fun h => ?_, fun _ h => (nomatch h), ?_, ?_, fun h => ?_,
    fun _ h => (nomatch h), ?_, fun h => ?_⟩
  · exact absurd ((ecUndefined_of_some one).1 h) (by decide)
  · rintro _ ⟨⟩; decide
  · rintro _ ⟨⟩; decide
  · exact absurd (h 16 rfl) (by decide)
  · rintro _ ⟨⟩; decide
  · exact absurd (h 7 rfl) (by decide)

/-- The states of the clauses: version 1 chosen, with 19 codewords for the query of `T.rembits`; version 2 in phase Idle for that
of `T.align`; and for the search the one pair 40-H, with operands in range and data that fits. -/
theorem witness_MalformedLookupIsFatalForEveryTable :
    ready.fatal = false ∧ ready.sym.ver ≠ 0#6 ∧ ready.phase = .idle ∧ { ready with cwlen := 19 }.sym.ver.toNat = 1 ∧
    (∀ t, (withHoles false false true false).T.ec { ready with cwlen := 19 }.sym.ver.toNat .L = some t →
      { ready with cwlen := 19 }.cwlen = t.b1 * t.d1 + t.b2 * t.d2) ∧
    (withHoles false false false true).alignMinVersion ≤ (beforePatterns 2).sym.ver.toNat ∧
    (withHoles false false false true).T.align 2 = none ∧
    ops (withX [40, 3, 0]) = (40, 3, 0) ∧ (withX [40, 3]).phase = .idle ∧ searchOrder 40 3 = [] ++ (.H, 40) :: [] ∧
    FitsUnder (withHoles false false true true) (withX [40, 3]).dinlen 40 .H ∧
    FitsUnder (withHoles false false false true) (withX [40, 3]).dinlen 40 .H ∧
    (withHoles false false false true).T.rembits 40 = some 0 ∧ (withHoles false false false true).T.align 40 = none := by
  have one : config.T.ec 1 .L = some entryOneL := by decide +kernel
  have forty : config.T.ec 40 .H = some { e := 30, b1 := 20, d1 := 15, b2 := 61, d2 := 16 } := by decide +kernel
  have len : config.T.lenbits 40 = some 16 := by decide +kernel
  refine ⟨rfl, by decide, rfl, rfl, fun t h => ?_, by decide, rfl, by decide +kernel, rfl, rfl, ⟨_, _, forty, len, ?_⟩,
    ⟨_, _, forty, len, ?_⟩, by decide +kernel, rfl⟩
  · cases one.symm.trans h; rfl
  · decide
  · decide

theorem witness_PlacementOverflowIsFatal :
    (beforePatterns 2).fatal = false ∧ (beforePatterns 2).phase = .idle ∧ (beforePatterns 2).sym.ver ≠ 0#6 ∧
    config.alignMinVersion ≤ 2 ∧ { config.T with align := fun _ => some [23] }.align 2 = some [23] ∧ 23 + 2 ≥ side 2 := by
  decide +kernel

theorem witness_PhaseMovesOnlyForward : ∃ t, exec .mpat (beforePatterns 1) = .next t := ⟨_, rfl⟩

theorem witness_FinishedSymbolIsNeverMutated : { State.reset with phase := .marginApplied }.phase = .marginApplied ∧
    ∃ t, exec .mpat { State.reset with phase := .marginApplied } = .next t := ⟨rfl, _, rfl⟩

theorem witness_CommandsWriteOnlyTheRegistersTheyName : (∃ t, exec (.gfexp 1 0) (withX [8]) = .next t) ∧
    destX (.gfexp 1 0) ≠ some 0 ∧ destP (.gfexp 1 0) ≠ some 3 := ⟨⟨_, rfl⟩, by decide, by decide⟩

theorem witness_CommandsWriteOnlyTheBuffersTheirRulesName : (∃ t, exec (.rsdiv 0) ((withX [1]).setCw [1#8]) = .next t) ∧
    writesCw (.rsdiv 0) = false ∧ writesBits (.rsdiv 0) = false ∧ writesEcc .masm = false := ⟨⟨_, rfl⟩, rfl, rfl, rfl⟩

theorem witness_CommandsWriteSymAndMatrixOnlyWhereTheirRulesSay : (∃ t, exec .masm hello = .next t) ∧
    writesSym .masm = false ∧ writesMatrix .masm = false := ⟨⟨_, rfl⟩, rfl, rfl⟩

/-- Two states that agree on the inputs of the encoder and on no other register. -/
theorem witness_EncoderIsAPureFunctionOfItsInputs :
    operand (withX [1, 0]) 0 = operand (withX [9, 9, 1, 0]) 2 ∧ operand (withX [1, 0]) 1 = operand (withX [9, 9, 1, 0]) 3 ∧
    (withX [1, 0]).dinData = (withX [9, 9, 1, 0]).dinData ∧ (withX [1, 0]).sym.mask = (withX [9, 9, 1, 0]).sym.mask ∧
    (withX [1, 0]).phase = .idle ∧ (withX [1, 0]).mat = [] ∧ (withX [1, 0]).fatal = false ∧
    (∃ t, exec (.qrenc 0 1) (withX [1, 0]) = .next t) ∧ ∃ t, exec (.qrenc 2 3) (withX [9, 9, 1, 0]) = .next t :=
  ⟨by decide +kernel, by decide +kernel, rfl, rfl, rfl, rfl, rfl, ⟨_, rfl⟩, ⟨_, rfl⟩⟩

/-- A state with data, a pending command and a symbol of one phase on meets the invariant: version 1 with one cell set. -/
def underWay : State :=
  { hello with phase := .patternsPlaced, matsize := 21, mat := matWrite [] 20 20 .dark, pending := [.write 0x00001#20 0x49#32] }

theorem witness_StepKeepsTheInvariant : Inv underWay := by decide +kernel

theorem witness_StepKeepsTheMatrixInStepWithThePhase : Inv underWay ∧ ∃ t, step underWay = .next t :=
  ⟨witness_StepKeepsTheInvariant, _, rfl⟩

theorem witness_StepKeepsTheReportConsistent :
    ReportInv underWay ∧ ReportInv { State.reset with fatal := true, err := .malformedLookup, finfo := { what := 2#8 } } ∧
    ∃ t, step underWay = .next t := ⟨by decide +kernel, by decide +kernel, _, rfl⟩

/-- Memory after reset has the canonical form. -/
theorem reset_memories_wf : Memory.wf 0#8 State.reset.din ∧ Memory.wf 0#8 State.reset.cw ∧ Memory.wf 0#8 State.reset.ecc ∧
    Memory.wf false State.reset.bits ∧ matWf State.reset.mat ∧ ∀ i, Memory.wf 0#32 (State.reset.getPoly i).terms := by
  decide

end Sys2Proof.Tests
end

/-! Proofs for 10_state.md: what each command's body writes, what the transaction makes of it, and the obligations on the
phase (R37) and on host writes to `SYM` (R34, R35). -/

namespace Sys2Proof.Proofs

open Sys2Proof Sys2Proof.Machine Sys2Proof.Laws

/-! ### What the body of a command writes

One inversion lemma per body: a body that answers `u` is one named update of the state before. -/

theorem gflogBody_eq_ok {rd rs1 : XReg} {s u : State} (h : gflogBody rd rs1 s = .ok u) : ∃ v, u = s.setX rd v := by
  obtain ⟨b, -, hu⟩ := bind_ok.1 h
  cases hu
  exact ⟨_, rfl⟩

theorem pmulBody_eq_ok {pd pa pb : PReg} {s u : State} (h : pmulBody pd pa pb s = .ok u) :
    ∃ ts, u = s.setPoly pd ts := by
  obtain ⟨a, -, h⟩ := bind_ok.1 h
  obtain ⟨b, -, h⟩ := bind_ok.1 h
  obtain ⟨r, -, hu⟩ := bind_ok.1 h
  cases hu
  exact ⟨_, rfl⟩

theorem pmulmBody_eq_ok {pd pa : PReg} {rs1 : XReg} {s u : State} (h : pmulmBody pd pa rs1 s = .ok u) :
    ∃ ts, u = s.setPoly pd ts := by
  obtain ⟨a, -, hu⟩ := bind_ok.1 h
  cases hu
  exact ⟨_, rfl⟩

theorem rsgenBody_eq_ok {pd : PReg} {rs1 : XReg} {s u : State} (h : rsgenBody pd rs1 s = .ok u) :
    ∃ ts, u = s.setPoly pd ts := by
  obtain ⟨n, -, hu⟩ := bind_ok.1 h
  cases hu
  exact ⟨_, rfl⟩

theorem rsdivBody_eq_ok {c : Config} {rs1 : XReg} {s u : State} (h : rsdivBody c rs1 s = .ok u) :
    ∃ vs, u = s.setEcc vs := by
  obtain ⟨r, -, h⟩ := bind_ok.1 h
  obtain ⟨-, -, hu⟩ := bind_ok.1 h
  cases hu
  exact ⟨_, rfl⟩

theorem mselBody_eq_ok {c : Config} {rs1 rs2 : XReg} {s u : State} (h : mselBody c rs1 rs2 s = .ok u) :
    s.phase = .idle ∧ ∃ v l, u = s.setVersionLevel v l := by
  obtain ⟨_, hph, h⟩ := bind_ok.1 h
  obtain ⟨mv, -, h⟩ := bind_ok.1 h
  obtain ⟨ml, -, h⟩ := bind_ok.1 h
  obtain ⟨⟨l, v⟩, -, hu⟩ := bind_ok.1 h
  cases hu
  exact ⟨needPhase_eq_ok.1 hph, _, _, rfl⟩

theorem masmBody_eq_ok {c : Config} {s u : State} (h : masmBody c s = .ok u) : ∃ vs, u = s.setCw vs := by
  obtain ⟨v, -, h⟩ := bind_ok.1 h
  obtain ⟨t, -, h⟩ := bind_ok.1 h
  obtain ⟨w, -, h⟩ := bind_ok.1 h
  obtain ⟨-, -, hu⟩ := bind_ok.1 h
  cases hu
  exact ⟨_, rfl⟩

theorem mintBody_eq_ok {c : Config} {s u : State} (h : mintBody c s = .ok u) : ∃ bs, u = s.setBits bs := by
  obtain ⟨v, -, h⟩ := bind_ok.1 h
  obtain ⟨t, -, h⟩ := bind_ok.1 h
  obtain ⟨-, -, h⟩ := bind_ok.1 h
  obtain ⟨q, -, hu⟩ := bind_ok.1 h
  cases hu
  exact ⟨_, rfl⟩

theorem bchfmtBody_eq_ok {c : Config} {rd rs1 rs2 : XReg} {s u : State} (h : bchfmtBody c rd rs1 rs2 s = .ok u) :
    ∃ v, u = s.setX rd v := by
  obtain ⟨l, -, h⟩ := bind_ok.1 h
  obtain ⟨k, -, hu⟩ := bind_ok.1 h
  cases hu
  exact ⟨_, rfl⟩

theorem bchverBody_eq_ok {c : Config} {rd rs1 : XReg} {s u : State} (h : bchverBody c rd rs1 s = .ok u) :
    ∃ v, u = s.setX rd v := by
  obtain ⟨v, -, hu⟩ := bind_ok.1 h
  cases hu
  exact ⟨_, rfl⟩

theorem maskbBody_eq_ok {c : Config} {rd rs1 rs2 : XReg} {s u : State} (h : maskbBody c rd rs1 rs2 s = .ok u) :
    ∃ v, u = s.setX rd v := by
  obtain ⟨-, -, hu⟩ := bind_ok.1 h
  cases hu
  exact ⟨_, rfl⟩

theorem mpatBody_eq_ok {c : Config} {s u : State} (h : mpatBody c s = .ok u) :
    s.phase = .idle ∧ ∃ m n, u = s.setMatrix m n .patternsPlaced := by
  obtain ⟨_, hph, h⟩ := bind_ok.1 h
  obtain ⟨v, -, h⟩ := bind_ok.1 h
  obtain ⟨ls, -, h⟩ := bind_ok.1 h
  obtain ⟨m, -, hu⟩ := bind_ok.1 h
  cases hu
  exact ⟨needPhase_eq_ok.1 hph, _, _, rfl⟩

theorem mdataBody_eq_ok {c : Config} {s u : State} (h : mdataBody c s = .ok u) :
    s.phase = .patternsPlaced ∧ ∃ m, u = s.setMatrix m s.matsize .dataInserted := by
  obtain ⟨_, hph, h⟩ := bind_ok.1 h
  obtain ⟨-, -, hu⟩ := bind_ok.1 h
  cases hu
  exact ⟨needPhase_eq_ok.1 hph, _, rfl⟩

theorem mmarginBody_eq_ok {c : Config} {s u : State} (h : mmarginBody c s = .ok u) :
    s.phase = .dataInserted ∧ ∃ m, u = s.setMatrix m (s.matsize + 2 * c.margin) .marginApplied := by
  obtain ⟨_, hph, h⟩ := bind_ok.1 h
  obtain ⟨-, -, hu⟩ := bind_ok.1 h
  cases hu
  exact ⟨needPhase_eq_ok.1 hph, _, rfl⟩

theorem mencBody_eq_ok {c : Config} {rs1 rs2 : XReg} {s u : State} (h : mencBody c rs1 rs2 s = .ok u) :
    s.phase = .idle ∧ ∃ v l vs bs, u = ((s.setVersionLevel v l).setCw vs).setBits bs := by
  obtain ⟨s1, h1, h⟩ := bind_ok.1 h
  obtain ⟨s2, h2, h3⟩ := bind_ok.1 h
  obtain ⟨hph, v, l, rfl⟩ := mselBody_eq_ok h1
  obtain ⟨vs, rfl⟩ := masmBody_eq_ok h2
  obtain ⟨bs, rfl⟩ := mintBody_eq_ok h3
  exact ⟨hph, v, l, vs, bs, rfl⟩

theorem mrenderBody_eq_ok {c : Config} {s u : State} (h : mrenderBody c s = .ok u) :
    s.phase = .idle ∧ ∃ m n, u = s.setMatrix m n .marginApplied := by
  obtain ⟨s1, h1, h⟩ := bind_ok.1 h
  obtain ⟨s2, h2, h3⟩ := bind_ok.1 h
  obtain ⟨hph, m1, n, rfl⟩ := mpatBody_eq_ok h1
  obtain ⟨-, m2, rfl⟩ := mdataBody_eq_ok h2
  obtain ⟨-, m3, rfl⟩ := mmarginBody_eq_ok h3
  exact ⟨hph, m3, _, rfl⟩

theorem qrencBody_eq_ok {c : Config} {rs1 rs2 : XReg} {s u : State} (h : qrencBody c rs1 rs2 s = .ok u) :
    s.phase = .idle ∧
      ∃ v l vs bs m n, u = (((s.setVersionLevel v l).setCw vs).setBits bs).setMatrix m n .marginApplied := by
  obtain ⟨s1, h1, h2⟩ := bind_ok.1 h
  obtain ⟨hph, v, l, vs, bs, rfl⟩ := mencBody_eq_ok h1
  obtain ⟨-, m, n, rfl⟩ := mrenderBody_eq_ok h2
  exact ⟨hph, v, l, vs, bs, m, n, rfl⟩

/-! ### What a command can do -/

/-- The body a command runs as its transaction; `exec_eq_command` ties it to the model. -/
def bodyOf : Instr → State → Except CmdError State
  | .gfexp rd rs1 => gfexpBody rd rs1
  | .gflog rd rs1 => gflogBody rd rs1
  | .pmul pd pa pb => pmulBody pd pa pb
  | .pmulm pd pa rs1 => pmulmBody pd pa rs1
  | .rsgen pd rs1 => rsgenBody pd rs1
  | .rsdiv rs1 => rsdivBody config rs1
  | .msel rs1 rs2 => mselBody config rs1 rs2
  | .masm => masmBody config
  | .mint => mintBody config
  | .menc rs1 rs2 => mencBody config rs1 rs2
  | .bchfmt rd rs1 rs2 => bchfmtBody config rd rs1 rs2
  | .bchver rd rs1 => bchverBody config rd rs1
  | .maskb rd rs1 rs2 => maskbBody config rd rs1 rs2
  | .mpat => mpatBody config
  | .mdata => mdataBody config
  | .mmargin => mmarginBody config
  | .mrender => mrenderBody config
  | .qrenc rs1 rs2 => qrencBody config rs1 rs2

theorem exec_eq_command (i : Instr) (s : State) : exec i s = command (bodyOf i) s := by
  cases i <;> rfl

/-- The update of the state a completing command makes, by the command: which registers, buffers and attributes it writes,
and the phase it needs. `bodyOf_writes` ties it to the model. -/
def Writes (i : Instr) (s u : State) : Prop :=
  match i with
  | .gfexp rd _ | .gflog rd _ | .bchfmt rd _ _ | .bchver rd _ | .maskb rd _ _ => ∃ v, u = s.setX rd v
  | .pmul pd _ _ | .pmulm pd _ _ | .rsgen pd _ => ∃ ts, u = s.setPoly pd ts
  | .rsdiv _ => ∃ vs, u = s.setEcc vs
  | .msel _ _ => s.phase = .idle ∧ ∃ v l, u = s.setVersionLevel v l
  | .masm => ∃ vs, u = s.setCw vs
  | .mint => ∃ bs, u = s.setBits bs
  | .menc _ _ => s.phase = .idle ∧ ∃ v l vs bs, u = ((s.setVersionLevel v l).setCw vs).setBits bs
  | .mpat => s.phase = .idle ∧ ∃ m n, u = s.setMatrix m n .patternsPlaced
  | .mdata => s.phase = .patternsPlaced ∧ ∃ m, u = s.setMatrix m s.matsize .dataInserted
  | .mmargin => s.phase = .dataInserted ∧ ∃ m, u = s.setMatrix m (s.matsize + 2 * config.margin) .marginApplied
  | .mrender => s.phase = .idle ∧ ∃ m n, u = s.setMatrix m n .marginApplied
  | .qrenc _ _ => s.phase = .idle ∧
      ∃ v l vs bs m n, u = (((s.setVersionLevel v l).setCw vs).setBits bs).setMatrix m n .marginApplied

theorem bodyOf_writes {i : Instr} {s u : State} (h : bodyOf i s = .ok u) : Writes i s u := by
  cases i with
  | gfexp rd rs1 => cases h; exact ⟨_, rfl⟩
  | gflog rd rs1 => exact gflogBody_eq_ok h
  | pmul pd pa pb => exact pmulBody_eq_ok h
  | pmulm pd pa rs1 => exact pmulmBody_eq_ok h
  | rsgen pd rs1 => exact rsgenBody_eq_ok h
  | rsdiv rs1 => exact rsdivBody_eq_ok h
  | msel rs1 rs2 => exact mselBody_eq_ok h
  | masm => exact masmBody_eq_ok h
  | mint => exact mintBody_eq_ok h
  | menc rs1 rs2 => exact mencBody_eq_ok h
  | bchfmt rd rs1 rs2 => exact bchfmtBody_eq_ok h
  | bchver rd rs1 => exact bchverBody_eq_ok h
  | maskb rd rs1 rs2 => exact maskbBody_eq_ok h
  | mpat => exact mpatBody_eq_ok h
  | mdata => exact mdataBody_eq_ok h
  | mmargin => exact mmarginBody_eq_ok h
  | mrender => exact mrenderBody_eq_ok h
  | qrenc rs1 rs2 => exact qrencBody_eq_ok h

/-- Everything a command can do: nothing under `FATAL`; complete, with the writes of its rule; or report one error. -/
theorem exec_cases {i : Instr} {s t : State} (h : exec i s = .next t) :
    t = s ∨ (∃ u, Writes i s u ∧ t = u.complete) ∨ ∃ e, t = s.report e := by
  rw [exec_eq_command] at h
  rcases command_cases h with ⟨-, rfl⟩ | ⟨-, u, hu, rfl⟩ | ⟨-, e, -, rfl⟩
  · exact .inl rfl
  · exact .inr (.inl ⟨u, bodyOf_writes hu, rfl⟩)
  · exact .inr (.inr ⟨e, rfl⟩)

/-! ### The phase (10_state.md R37) -/

/-- The transitions of `STATUS.PHASE` a command can make, the phase kept included. -/
def PhaseMove (i : Instr) (p q : Phase) : Prop :=
  q = p ∨ (i = .mpat ∧ p = .idle ∧ q = .patternsPlaced) ∨ (i = .mdata ∧ p = .patternsPlaced ∧ q = .dataInserted) ∨
    (i = .mmargin ∧ p = .dataInserted ∧ q = .marginApplied) ∨
    ((i = .mrender ∨ ∃ rs1 rs2, i = .qrenc rs1 rs2) ∧ p = .idle ∧ q = .marginApplied)

theorem Writes.phaseMove {i : Instr} {s u : State} (h : Writes i s u) : PhaseMove i s.phase u.phase := by
  cases i with
  | gfexp | gflog | bchfmt | bchver | maskb => obtain ⟨v, rfl⟩ := h; exact .inl rfl
  | pmul | pmulm | rsgen => obtain ⟨ts, rfl⟩ := h; exact .inl rfl
  | rsdiv | masm | mint => obtain ⟨vs, rfl⟩ := h; exact .inl rfl
  | msel => obtain ⟨-, v, l, rfl⟩ := h; exact .inl rfl
  | menc => obtain ⟨-, v, l, vs, bs, rfl⟩ := h; exact .inl rfl
  | mpat => obtain ⟨hp, m, n, rfl⟩ := h; exact .inr (.inl ⟨rfl, hp, rfl⟩)
  | mdata => obtain ⟨hp, m, rfl⟩ := h; exact .inr (.inr (.inl ⟨rfl, hp, rfl⟩))
  | mmargin => obtain ⟨hp, m, rfl⟩ := h; exact .inr (.inr (.inr (.inl ⟨rfl, hp, rfl⟩)))
  | mrender => obtain ⟨hp, m, n, rfl⟩ := h; exact .inr (.inr (.inr (.inr ⟨.inl rfl, hp, rfl⟩)))
  | qrenc rs1 rs2 =>
    obtain ⟨hp, v, l, vs, bs, m, n, rfl⟩ := h
    exact .inr (.inr (.inr (.inr ⟨.inr ⟨rs1, rs2, rfl⟩, hp, rfl⟩)))

theorem exec_phaseMove {i : Instr} {s t : State} (h : exec i s = .next t) : PhaseMove i s.phase t.phase := by
  rcases exec_cases h with rfl | ⟨u, hu, rfl⟩ | ⟨e, rfl⟩
  · exact .inl rfl
  · exact hu.phaseMove
  · exact .inl rfl

/-! ### Host writes -/

/-- `CTRL` is at word address 0x00003 and nowhere else (10_state.md R29, 20_memory.md R64). -/
theorem locate_eq_ctrl {a : Addr} : locate a = .ctrl ↔ a = 0x00003#20 := by
  constructor
  · intro h
    apply BitVec.eq_of_toNat_eq
    by_contra hne
    refine absurd h ?_
    unfold locate
    simp only [if_neg (show ¬ a.toNat = 3 from hne)]
    repeat' apply ite_ne
    all_goals exact fun e => Location.noConfusion e
  · rintro rfl
    decide

theorem writeSym_of_accepted {s : State} {w : Word}
    (h : s.phase = .idle ∧ s.fatal = false ∧ (w.extractLsb' 0 6).toNat ≤ 40) :
    writeSym s w = { s with sym := { ver := w.extractLsb' 0 6
                                     lvl := levelOfBits (w.extractLsb' 8 2)
                                     mask := w.extractLsb' 12 3 } } := if_pos h

theorem writeSym_of_not_accepted {s : State} {w : Word}
    (h : ¬(s.phase = .idle ∧ s.fatal = false ∧ (w.extractLsb' 0 6).toNat ≤ 40)) : writeSym s w = s := if_neg h

@[simp] theorem writeSym_phase (s : State) (w : Word) : (writeSym s w).phase = s.phase := by
  unfold writeSym
  split <;> rfl

@[simp] theorem setPolyLen_phase (s : State) (i : PReg) (n : Nat) : (setPolyLen s i n).phase = s.phase := rfl

@[simp] theorem setPolyTerm_phase (s : State) (i : PReg) (k : Nat) (w : Word) :
    (setPolyTerm s i k w).phase = s.phase := rfl

theorem memWrite_ctrl {s : State} {a : Addr} {v : Word} (h : locate a = .ctrl) :
    memWrite s a v = if v.getLsbD 0 then resetBlock s else s := by
  simp only [memWrite, h]

/-- `SYM` is at word address 0x00004 (10_state.md R29). -/
theorem memWrite_sym (s : State) (w : Word) : memWrite s 0x00004#20 w = writeSym s w := rfl

theorem memRead_sym (s : State) : memRead s 0x00004#20 = symWord s.sym := rfl

/-- Only a write to `CTRL` can change the phase: the others are ignored or write registers, buffers or `SYM`. -/
theorem memWrite_phase {s : State} {a : Addr} {v : Word} (h : locate a ≠ .ctrl) :
    (memWrite s a v).phase = s.phase := by
  cases hl : locate a with
  | ctrl => exact absurd hl h
  | dinlen | cwlen | bitlen | plen =>
    simp only [memWrite, hl]
    split <;> rfl
  | id | cmd | status | finfo | ecclen | matsize | mat | unmapped => simp only [memWrite, hl]
  | sym | x | term | din | cw | ecc | bits => simp [memWrite, hl]

/-- Settles O51: a completing command makes the transition of its rule (`Writes.phaseMove`), a refused or failing one makes
none, and from the host's side only the reset write of `CTRL` reaches the phase. -/
theorem phaseMovesOnlyForward : Obligations.PhaseMovesOnlyForward := by
  refine ⟨fun i s t h => exec_phaseMove h, fun s a v => ?_⟩
  by_cases hc : locate a = .ctrl
  · rw [memWrite_ctrl hc]
    split
    · next hv => exact .inr ⟨locate_eq_ctrl.1 hc, hv, rfl⟩
    · exact .inl rfl
  · exact .inl (memWrite_phase hc)

/-! ### `SYM` (10_state.md R33 to R35) -/

theorem levelCode_levelOfBits : ∀ b : BitVec 2, BitVec.ofNat 2 (levelCode (levelOfBits b)) = b := by decide

/-- The bits of the word of `SYM`, by the field they stand in (10_state.md R33, R34). -/
theorem symWord_getLsbD (y : Sym) {i : Nat} (hi : i < 32) :
    (symWord y).getLsbD i =
      if i < 6 then y.ver.getLsbD i
      else if 8 ≤ i ∧ i < 10 then (BitVec.ofNat 2 (levelCode y.lvl)).getLsbD (i - 8)
      else if 12 ≤ i ∧ i < 15 then y.mask.getLsbD (i - 12)
      else decide (i = 17) := by
  simp only [symWord, BitVec.getLsbD_append]
  interval_cases i <;> rfl

theorem symWord_of_fields (w : Word) :
    symWord { ver := w.extractLsb' 0 6, lvl := levelOfBits (w.extractLsb' 8 2), mask := w.extractLsb' 12 3 } =
      (w &&& 0x0000733F#32) ||| 0x00020000#32 := by
  refine BitVec.eq_of_getLsbD_eq fun i hi => ?_
  rw [symWord_getLsbD _ hi, levelCode_levelOfBits]
  interval_cases i <;> simp

theorem symWord_mode (y : Sym) : (symWord y).extractLsb' 16 2 = 2#2 := by
  refine BitVec.eq_of_getLsbD_eq fun i hi => ?_
  rw [BitVec.getLsbD_extractLsb', symWord_getLsbD y (by omega)]
  interval_cases i <;> rfl

theorem symWord_reserved (y : Sym) : symWord y &&& 0xFFFC8CC0#32 = 0#32 := by
  refine BitVec.eq_of_getLsbD_eq fun i hi => ?_
  rw [BitVec.getLsbD_and, symWord_getLsbD y hi]
  interval_cases i <;> simp

/-- Settles O13: the write is `writeSym`, accepted or ignored whole, and the word read back is compared with the written one
field by field. -/
theorem symWriteTakesEffectOnlyInIdle : Obligations.SymWriteTakesEffectOnlyInIdle := by
  intro s w
  rw [memWrite_sym, memRead_sym]
  refine ⟨fun h => ?_, writeSym_of_not_accepted, symWord_mode _, symWord_reserved _⟩
  rw [writeSym_of_accepted h]
  exact ⟨symWord_of_fields w, rfl⟩

end Sys2Proof.Proofs

/-! Proofs for 20_memory.md: where the address map of R64 puts each register and window, and what a host read returns there
(R62). -/

namespace Sys2Proof.Proofs

open Sys2Proof Sys2Proof.Machine Sys2Proof.Laws Sys2Proof.Claims

/-! ### The address map (20_memory.md R64)

One lemma per range of addresses; the single addresses evaluate. -/

theorem toNat_at20 {a : Nat} (h : a < 0x100000) : (at20 a).toNat = a := Nat.mod_eq_of_lt h

theorem locate_at20_x (i : XReg) : locate (at20 (0x00008 + i.val)) = .x i := by
  have hi := i.isLt
  simp (disch := omega) only [locate, toNat_at20, if_neg, if_pos, Nat.add_sub_cancel_left, Fin.ofNat_val_eq_self]

theorem locate_at20_plen (i : PReg) : locate (at20 (0x00020 + i.val)) = .plen i := by
  have hi := i.isLt
  simp (disch := omega) only [locate, toNat_at20, if_neg, if_pos, Nat.add_sub_cancel_left, Fin.ofNat_val_eq_self]

theorem locate_at20_term (i : PReg) {k : Nat} (hk : k < 256) :
    locate (at20 (0x00400 + 0x100 * i.val + k)) = .term i k := by
  have hi := i.isLt
  have hreg : (0x00400 + 0x100 * i.val + k - 0x00400) / 0x100 = i.val := by omega
  have hterm : (0x00400 + 0x100 * i.val + k - 0x00400) % 0x100 = k := by omega
  simp (disch := omega) only [locate, toNat_at20, if_neg, if_pos, hreg, hterm, Fin.ofNat_val_eq_self]

theorem locate_at20_din {k : Nat} (hk : k < 4096) : locate (at20 (0x01000 + k)) = .din k := by
  simp (disch := omega) only [locate, toNat_at20, if_neg, if_pos, Nat.add_sub_cancel_left]

theorem locate_at20_cw {k : Nat} (hk : k < 4096) : locate (at20 (0x02000 + k)) = .cw k := by
  simp (disch := omega) only [locate, toNat_at20, if_neg, if_pos, Nat.add_sub_cancel_left]

theorem locate_at20_ecc {k : Nat} (hk : k < 256) : locate (at20 (0x03000 + k)) = .ecc k := by
  simp (disch := omega) only [locate, toNat_at20, if_neg, if_pos, Nat.add_sub_cancel_left]

theorem locate_at20_bits {k : Nat} (hk : k < 32768) : locate (at20 (0x08000 + k)) = .bits k := by
  simp (disch := omega) only [locate, toNat_at20, if_neg, if_pos, Nat.add_sub_cancel_left]

theorem locate_at20_mat {c r : Nat} (hc : c < 256) (hr : r < 256) :
    locate (at20 (0x10000 + 0x100 * r + c)) = .mat c r := by
  have hcol : (0x10000 + 0x100 * r + c - 0x10000) % 0x100 = c := by omega
  have hrow : (0x10000 + 0x100 * r + c - 0x10000) / 0x100 = r := by omega
  simp (disch := omega) only [locate, toNat_at20, if_neg, if_pos, hcol, hrow]

theorem locate_at20_unmapped {a : Nat}
    (h : (0x00006 ≤ a ∧ a < 0x00008) ∨ (0x00015 ≤ a ∧ a < 0x00020) ∨ (0x00024 ≤ a ∧ a < 0x00400) ∨
      (0x00800 ≤ a ∧ a < 0x01000) ∨ (0x03100 ≤ a ∧ a < 0x08000) ∨ (0x20000 ≤ a ∧ a < 0x100000)) :
    locate (at20 a) = .unmapped := by
  simp (disch := omega) only [locate, toNat_at20, if_neg]

/-! ### Host reads (20_memory.md R62) -/

theorem setWidth_ofBool_eq_ofNat : ∀ b : Bool, (BitVec.ofBool b).setWidth 32 = BitVec.ofNat 32 b.toNat := by decide

/-- Settles O10: a read returns what its location holds, and the map puts the location where the rule says: by evaluation
for a single address, by the lemma of its range for the others. -/
theorem hostReadsReturnTheMappedValue : Obligations.HostReadsReturnTheMappedValue := by
  intro s
  refine ⟨rfl, rfl, rfl, rfl, rfl, rfl, fun i => ?x, rfl, rfl, rfl, rfl, rfl, fun i => ?plen, fun i k hk => ?term,
    fun k hk => ?din, fun k hk => ?cw, fun k hk => ?ecc, fun k hk => ?bits, fun c hc r hr => ?mat, fun a ha => ?unmapped⟩
  case x => simp only [memRead, locate_at20_x]
  case plen => simp only [memRead, locate_at20_plen]
  case term => simp only [memRead, locate_at20_term i hk]
  case din => simp only [memRead, locate_at20_din hk]
  case cw => simp only [memRead, locate_at20_cw hk]
  case ecc => simp only [memRead, locate_at20_ecc hk]
  case bits => simp only [memRead, locate_at20_bits hk, setWidth_ofBool_eq_ofNat]
  case mat => simp only [memRead, locate_at20_mat hc hr]
  case unmapped => simp only [memRead, locate_at20_unmapped ha]

end Sys2Proof.Proofs

/-! Proofs for 40_field_arithmetic.md: the tables `EXP` and `LOG` invert each other (R133), and what `GFEXP` and `GFLOG`
write (R134, R135). -/

namespace Sys2Proof.Proofs

open Sys2Proof Sys2Proof.Machine Sys2Proof.Laws Sys2Proof.Claims

/-! ### `LOG` against `EXP` (40_field_arithmetic.md R133)

The two tables are data of 255 and 256 entries; one pass over each says that it inverts the other. Everything about other
exponents follows from the period 255. -/

theorem gflog_le_254 : ∀ v : Byte, gflog v ≤ 254 := by decide +kernel

theorem gfexp_gflog : ∀ v : Byte, v ≠ 0#8 → gfexp (gflog v) = v := by decide +kernel

theorem gflog_gfexp_of_lt : ∀ e < 255, gflog (gfexp e) = e := by decide +kernel

@[simp] theorem gfexp_mod_255 (e : Nat) : gfexp (e % 255) = gfexp e :=
  congrArg (tableByte expTable) (Nat.mod_mod e 255)

theorem gflog_gfexp (e : Nat) : gflog (gfexp e) = e % 255 :=
  calc gflog (gfexp e) = gflog (gfexp (e % 255)) := by rw [gfexp_mod_255]
    _ = e % 255 := gflog_gfexp_of_lt _ (Nat.mod_lt e (by decide))

theorem gflog_zero : gflog 0#8 = 0 := by decide +kernel

theorem gfexp_zero : gfexp 0 = 1#8 := by decide +kernel

theorem gflog_one : gflog 1#8 = 0 := by
  rw [← gfexp_zero, gflog_gfexp]

/-- The log form in the document's terms: `exponent_galois` of it is the value (R131, R133). -/
theorem gfexpRecursion_gflog {v : Byte} (h : v ≠ 0#8) : gfexpRecursion (gflog v) = v.toNat := by
  have hlt : gflog v < 255 := Nat.lt_succ_of_le (gflog_le_254 v)
  calc gfexpRecursion (gflog v) = gfexpRecursion (gflog v % 255) := by rw [Nat.mod_eq_of_lt hlt]
    _ = (gfexp (gflog v)).toNat := (gfexp_eq_recursion _).symm
    _ = v.toNat := by rw [gfexp_gflog v h]

/-- Settles O18: the passes over the two tables, and the period for the exponents from 255 on. -/
theorem logInvertsExponentiation : Obligations.LogInvertsExponentiation := by
  refine ⟨gflog_zero, gflog_one, gflog_le_254, gfexp_gflog, ?_, gflog_gfexp⟩
  rw [gflog_zero, gfexp_zero]

/-! ### `GFEXP` and `GFLOG` (40_field_arithmetic.md R134, R135) -/

/-- The word `GFEXP` writes, by the recursion of R131 instead of the table. -/
theorem gfexp_setWidth_32 (e : Nat) : (gfexp e).setWidth 32 = BitVec.ofNat 32 (gfexpRecursion (e % 255)) := by
  rw [← gfexp_eq_recursion, BitVec.ofNat_toNat]

theorem gflogBody_of_le {rd rs1 : XReg} {s : State} (h : operand s rs1 ≤ 255) :
    gflogBody rd rs1 s = .ok (s.setX rd (BitVec.ofNat 32 (gflog (BitVec.ofNat 8 (operand s rs1))))) :=
  bind_ok.2 ⟨_, fieldOperand_eq_ok.2 ⟨h, rfl⟩, rfl⟩

theorem fieldOperand_of_gt {s : State} {r : XReg} (h : operand s r > 255) :
    fieldOperand s r = .error (.badOperand 1) := if_pos h

theorem gflogBody_of_gt {rd rs1 : XReg} {s : State} (h : operand s rs1 > 255) :
    gflogBody rd rs1 s = .error (.badOperand 1) :=
  bind_error.2 (.inl (fieldOperand_of_gt h))

/-- Settles O15: `GFEXP` has no failing check, and the table is the recursion. -/
theorem gfexpWritesThePowerOfTheGenerator : Obligations.GfexpWritesThePowerOfTheGenerator := by
  intro s rd rs1 hf
  rw [exec_eq_command, ← gfexp_setWidth_32]
  exact command_of_ok hf rfl

/-- Settles O16: an operand of at most 255 is a byte, whose log form is the `e`; a larger one fails the check. -/
theorem gflogWritesTheDiscreteLogarithm : Obligations.GflogWritesTheDiscreteLogarithm := by
  intro s rd rs1 hf
  rw [exec_eq_command]
  refine ⟨fun hle => ?_, fun hgt => command_of_error hf (gflogBody_of_gt hgt)⟩
  have hbyte : (BitVec.ofNat 8 (operand s rs1)).toNat = operand s rs1 := Nat.mod_eq_of_lt (Nat.lt_succ_of_le hle)
  refine ⟨gflog (BitVec.ofNat 8 (operand s rs1)), Nat.lt_succ_of_le (gflog_le_254 _),
    command_of_ok hf (gflogBody_of_le hle), fun h0 => ?zero, fun hne => ?nonzero⟩
  case zero => rw [h0, gflog_zero]
  case nonzero =>
    have hv : BitVec.ofNat 8 (operand s rs1) ≠ 0#8 := fun h => hne (by rw [← hbyte, h]; rfl)
    rw [gfexpRecursion_gflog hv, hbyte]

end Sys2Proof.Proofs

/-! Proofs for 41_polynomial_engine.md: the terms of a product (R142), and what `PMUL` and `PMULM` write (R143, R145). -/

namespace Sys2Proof.Proofs

open Sys2Proof Sys2Proof.Machine Sys2Proof.Claims
open Sys2Proof.Laws hiding Descending

/-! ### The operand check (41_polynomial_engine.md R141) -/

/-- Comparing neighbours, as the check does, is enough for all pairs to descend. -/
theorem wellFormedTerms_iff (ts : List Term) : wellFormedTerms ts = true ↔ Descending ts := by
  rw [Descending, ← List.isChain_iff_pairwise]
  induction ts with
  | nil => simp [wellFormedTerms]
  | cons a ts ih =>
    cases ts with
    | nil => simp [wellFormedTerms]
    | cons b rest => simpa [wellFormedTerms] using fun _ => ih

theorem polyOperand_of_descending {s : State} {i : PReg} (h : Descending (s.poly i)) :
    polyOperand s i = .ok (s.poly i) :=
  polyOperand_eq_ok.2 ⟨(wellFormedTerms_iff _).2 h, rfl⟩

theorem polyOperand_of_not_descending {s : State} {i : PReg} (h : ¬Descending (s.poly i)) :
    polyOperand s i = .error (.badOperand 2) :=
  if_neg (mt (wellFormedTerms_iff _).1 h)

/-! ### The terms of a product (41_polynomial_engine.md R142)

`Laws` says what the map of products is; here the same is said of the terms, against the pairs of source terms. -/

theorem fst_products (a b : List Term) : (products a b).map Prod.fst = exponentSums a b := by
  simp [products, exponentSums, List.map_flatMap, Function.comp_def]

theorem xorAt_eq_foldl (k : Nat) (ps : List (Nat × Byte)) :
    xorAt k ps = ((ps.filter fun q => q.1 = k).map Prod.snd).foldl (· ^^^ ·) 0#8 := by
  rw [List.foldl_eq_foldr, List.foldr_map, xorAt]
  exact List.foldr_ext _ _ _ fun q _ acc => BitVec.xor_comm acc q.2

theorem xorAt_products (a b : List Term) (k : Nat) : xorAt k (products a b) = pairSum a b k := by
  rw [xorAt_eq_foldl, pairSum]
  simp [products, List.filter_flatMap, List.map_flatMap, List.filter_map, Function.comp_def]

theorem xe_productTerms (a b : List Term) :
    (productTerms a b).map Term.xe = (accumulate (products a b)).map Prod.fst := by
  simp [productTerms, renormalise, Function.comp_def]

theorem descending_productTerms (a b : List Term) : Descending (productTerms a b) := by
  rw [Descending, xe_productTerms]
  exact List.pairwise_map.2 (descending_accumulate _)

theorem mem_xe_productTerms (a b : List Term) (k : Nat) :
    k ∈ (productTerms a b).map Term.xe ↔ k ∈ exponentSums a b := by
  rw [xe_productTerms, keys_accumulate, fst_products]

theorem fv_lg_of_mem_productTerms {a b : List Term} {t : Term} (h : t ∈ productTerms a b) :
    t.fv = pairSum a b t.xe ∧ t.lg = gflog t.fv := by
  obtain ⟨q, hq, rfl⟩ := List.mem_map.1 h
  exact ⟨(value_accumulate _ hq).trans (xorAt_products a b q.1), rfl⟩

/-- One term for each distinct sum of x-exponents: both lists have the same elements, each once. -/
theorem length_productTerms (a b : List Term) :
    (productTerms a b).length = (exponentSums a b).dedup.length := by
  have hnodup : ((productTerms a b).map Term.xe).Nodup := (descending_productTerms a b).imp fun h => ne_of_gt h
  have hperm : List.Perm ((productTerms a b).map Term.xe) (exponentSums a b).dedup :=
    (List.perm_ext_iff_of_nodup hnodup (List.nodup_dedup _)).2 fun k => by
      rw [mem_xe_productTerms, List.mem_dedup]
  simpa using hperm.length_eq

/-! ### `multiply` (41_polynomial_engine.md R142) -/

theorem all_products_le_iff (a b : List Term) (n : Nat) :
    ((products a b).all fun q => q.1 ≤ n) = true ↔ ∀ k ∈ exponentSums a b, k ≤ n := by
  rw [← fst_products]
  simp

theorem multiply_of_sum_gt {a b : List Term} (h : ∃ k ∈ exponentSums a b, k > 65535) :
    multiply a b = .error (.bufferOverflow 1) := by
  obtain ⟨k, hk, hgt⟩ := h
  have hall : ((products a b).all fun q => q.1 ≤ 65535) = false := by
    rw [← Bool.not_eq_true, all_products_le_iff]
    exact fun hle => absurd (hle k hk) (Nat.not_le_of_gt hgt)
  exact bind_error.2 (.inl (check_eq_error.2 ⟨hall, rfl⟩))

theorem multiply_of_length_gt {a b : List Term} (hsum : ∀ k ∈ exponentSums a b, k ≤ 65535)
    (hlen : (exponentSums a b).dedup.length > 256) : multiply a b = .error (.bufferOverflow 2) := by
  have hlong : decide ((productTerms a b).length ≤ 256) = false := by
    rw [length_productTerms]
    exact decide_eq_false (Nat.not_le_of_gt hlen)
  exact bind_error.2 (.inr ⟨(), check_eq_ok.2 ((all_products_le_iff a b _).2 hsum),
    bind_error.2 (.inl (check_eq_error.2 ⟨hlong, rfl⟩))⟩)

theorem multiply_of_fits {a b : List Term} (hsum : ∀ k ∈ exponentSums a b, k ≤ 65535)
    (hlen : (exponentSums a b).dedup.length ≤ 256) : multiply a b = .ok (productTerms a b) := by
  have hshort : decide ((productTerms a b).length ≤ 256) = true := by
    rw [length_productTerms]
    exact decide_eq_true hlen
  exact bind_ok.2 ⟨(), check_eq_ok.2 ((all_products_le_iff a b _).2 hsum),
    bind_ok.2 ⟨(), check_eq_ok.2 hshort, rfl⟩⟩

/-! ### `PMUL` (41_polynomial_engine.md R143) -/

theorem pmulBody_of_not_descending {pd pa pb : PReg} {s : State}
    (h : ¬(Descending (s.poly pa) ∧ Descending (s.poly pb))) : pmulBody pd pa pb s = .error (.badOperand 2) := by
  by_cases ha : Descending (s.poly pa)
  · have hb : ¬Descending (s.poly pb) := fun hb => h ⟨ha, hb⟩
    exact bind_error.2 (.inr ⟨_, polyOperand_of_descending ha, bind_error.2 (.inl (polyOperand_of_not_descending hb))⟩)
  · exact bind_error.2 (.inl (polyOperand_of_not_descending ha))

theorem pmulBody_of_descending {pa pb : PReg} {s : State} (ha : Descending (s.poly pa)) (hb : Descending (s.poly pb))
    (pd : PReg) :
    pmulBody pd pa pb s = multiply (s.poly pa) (s.poly pb) >>= fun r => .ok (s.setPoly pd r) := by
  rw [pmulBody, polyOperand_of_descending ha, polyOperand_of_descending hb]
  rfl

/-- Settles O20: the checks in their order, then `multiply`; the result is `productTerms`, whose terms are counted and
valued by the pairs of source terms. -/
theorem pmulMultipliesPolynomials : Obligations.PmulMultipliesPolynomials := by
  intro s pd pa pb hf
  rw [exec_eq_command]
  refine ⟨fun h => command_of_error hf (pmulBody_of_not_descending h), fun ⟨ha, hb⟩ => ?_⟩
  have hbody := pmulBody_of_descending ha hb pd
  refine ⟨fun hgt => ?sum, fun hsum => ⟨fun hgt => ?length, fun hlen => ?fits⟩⟩
  case sum =>
    rw [multiply_of_sum_gt hgt] at hbody
    exact command_of_error hf hbody
  case length =>
    rw [multiply_of_length_gt hsum hgt] at hbody
    exact command_of_error hf hbody
  case fits =>
    rw [multiply_of_fits hsum hlen] at hbody
    exact ⟨productTerms (s.poly pa) (s.poly pb), command_of_ok hf hbody, descending_productTerms _ _,
      fun k => List.mem_map.symm.trans (mem_xe_productTerms _ _ k), fun t ht => fv_lg_of_mem_productTerms ht⟩

/-! ### `PMULM` (41_polynomial_engine.md R144, R145) -/

theorem mergeProduct_of_gt {xe : Nat} {acc : List (Nat × Byte)} (h : ∀ q ∈ acc, q.1 < xe) (fv : Byte) :
    mergeProduct xe fv acc = (xe, fv) :: acc := by
  cases acc with
  | nil => rfl
  | cons q acc => exact if_pos (h q (.head _))

/-- Products that already descend are the map: each is inserted at its front. -/
theorem accumulate_of_descending {ps : List (Nat × Byte)} (h : Laws.Descending ps) : accumulate ps = ps := by
  induction ps with
  | nil => rfl
  | cons q ps ih =>
    obtain ⟨hlt, htail⟩ := List.pairwise_cons.1 h
    calc accumulate (q :: ps) = mergeProduct q.1 q.2 (accumulate ps) := rfl
      _ = mergeProduct q.1 q.2 ps := by rw [ih htail]
      _ = q :: ps := mergeProduct_of_gt hlt q.2

theorem products_monomial (a : List Term) (n : Nat) (v : Byte) :
    products a [{ xe := 0, lg := n, fv := v }] = a.map fun t => (t.xe, gfexp (t.lg + n)) :=
  List.map_eq_flatMap.symm

/-- R144: no two products of a well-formed polynomial and a monomial of degree 0 meet. -/
theorem multiplyByMonomial_of_descending {a : List Term} (h : Descending a) (n : Nat) :
    multiplyByMonomial a n =
      a.map fun t => { xe := t.xe, lg := (t.lg + n) % 255, fv := gfexp (t.lg + n) } := by
  have hdesc : Laws.Descending (a.map fun t => (t.xe, gfexp (t.lg + n))) :=
    List.pairwise_map.2 (List.pairwise_map.1 h)
  rw [multiplyByMonomial, productTerms, products_monomial, accumulate_of_descending hdesc]
  simp [renormalise, gflog_gfexp]

/-- Settles O21: the check of the source, then `multiplyByMonomial` with the whole register as the log shift. -/
theorem pmulmScalesEveryTerm : Obligations.PmulmScalesEveryTerm := by
  intro s pd pa rs1 hf
  rw [exec_eq_command]
  refine ⟨fun h => ?ok, fun h => command_of_error hf (bind_error.2 (.inl (polyOperand_of_not_descending h)))⟩
  case ok =>
    rw [← multiplyByMonomial_of_descending h]
    exact command_of_ok hf (bind_ok.2 ⟨_, polyOperand_of_descending h, rfl⟩)

end Sys2Proof.Proofs

/-! Proofs for 42_generator_builder.md: the x-exponents of the generator polynomial (R150, R152), and what `RSGEN` writes
(R151). -/

namespace Sys2Proof.Proofs

open Sys2Proof Sys2Proof.Machine Sys2Proof.Claims
open Sys2Proof.Laws hiding Descending

/-! ### The x-exponents of the generator polynomial (42_generator_builder.md R150, R152) -/

theorem generatorPolynomial_one : generatorPolynomial 1 = generatorFactor 0 := rfl

/-- One pass of R150's loop. -/
theorem generatorPolynomial_succ {n : Nat} (h : 1 ≤ n) :
    generatorPolynomial (n + 1) = productTerms (generatorPolynomial n) (generatorFactor n) := by
  obtain ⟨m, rfl⟩ := Nat.exists_eq_add_of_le' h
  simp [generatorPolynomial, List.range'_concat, Nat.add_comm 1]

theorem mem_exponentSums_generatorFactor (a : List Term) (i k : Nat) :
    k ∈ exponentSums a (generatorFactor i) ↔ ∃ e ∈ a.map Term.xe, k = e + 1 ∨ k = e := by
  simp [exponentSums, generatorFactor]

/-- A factor extends the exponents `n..0` by one at the top; which exponents a product has is independent of its
coefficients, so no bound on `n` is needed. -/
theorem xe_productTerms_generatorFactor {a : List Term} {n : Nat} (h : a.map Term.xe = (List.range (n + 1)).reverse)
    (i : Nat) : (productTerms a (generatorFactor i)).map Term.xe = (List.range (n + 2)).reverse := by
  have hrange : (List.range (n + 2)).reverse.Pairwise (· > ·) := List.pairwise_reverse.2 List.pairwise_lt_range
  refine (descending_productTerms a _).eq_of_mem_iff hrange fun k => ?_
  rw [mem_xe_productTerms, mem_exponentSums_generatorFactor, h]
  simp only [List.mem_reverse, List.mem_range]
  constructor
  · rintro ⟨e, he, rfl | rfl⟩ <;> omega
  · intro hk
    exact ⟨min k n, by omega, by omega⟩

theorem xe_generatorPolynomial {n : Nat} (h : 1 ≤ n) :
    (generatorPolynomial n).map Term.xe = (List.range (n + 1)).reverse := by
  induction n, h using Nat.le_induction with
  | base => rfl
  | succ n hn ih =>
    rw [generatorPolynomial_succ hn]
    exact xe_productTerms_generatorFactor ih n

theorem length_generatorPolynomial {n : Nat} (h : 1 ≤ n) : (generatorPolynomial n).length = n + 1 := by
  simpa using congrArg List.length (xe_generatorPolynomial h)

/-! ### `RSGEN` (42_generator_builder.md R151) -/

theorem degreeOperand_of_out_of_range {s : State} {r : XReg} (h : operand s r < 1 ∨ operand s r > 254) :
    degreeOperand s r = .error (.badOperand 3) := if_pos h

theorem rsgenBody_of_in_range {rs1 : XReg} {s : State} (h : 1 ≤ operand s rs1 ∧ operand s rs1 ≤ 254) (pd : PReg) :
    rsgenBody pd rs1 s = .ok (s.setPoly pd (generatorPolynomial (operand s rs1))) :=
  bind_ok.2 ⟨_, degreeOperand_eq_ok.2 ⟨h.1, h.2, rfl⟩, rfl⟩

theorem rsgenBody_of_out_of_range {rs1 : XReg} {s : State} (h : operand s rs1 < 1 ∨ operand s rs1 > 254) (pd : PReg) :
    rsgenBody pd rs1 s = .error (.badOperand 3) :=
  bind_error.2 (.inl (degreeOperand_of_out_of_range h))

/-- Settles O23: a degree in range passes the one check, and the polynomial has a term at each x-exponent from the degree
down to 0; any other degree fails the check. -/
theorem rsgenBuildsTheGenerator : Obligations.RsgenBuildsTheGenerator := by
  intro s pd rs1 hf
  rw [exec_eq_command]
  refine ⟨fun h => ?ok, fun h => command_of_error hf (rsgenBody_of_out_of_range h pd)⟩
  case ok =>
    exact ⟨_, command_of_ok hf (rsgenBody_of_in_range h pd), length_generatorPolynomial h.1, rfl⟩

end Sys2Proof.Proofs

/-! The product of GF(256) for 40_field_arithmetic.md R136: it respects exclusive or in both arguments, and adding log forms
computes it. -/

namespace Sys2Proof.Proofs

open Sys2Proof Sys2Proof.Machine Sys2Proof.Claims
open Sys2Proof.Laws hiding Descending

/-! ### The product respects exclusive or -/

theorem ite_xor_distrib (p q : Bool) (x y c : Nat) :
    (if p ^^ q then x ^^^ y ^^^ c else x ^^^ y) = (if p then x ^^^ c else x) ^^^ (if q then y ^^^ c else y) := by
  have hcancel : x ^^^ c ^^^ (y ^^^ c) = x ^^^ y := by
    rw [Nat.xor_comm y, ← Nat.xor_assoc, Nat.xor_xor_cancel_right]
  cases p <;> cases q <;> simp [hcancel] <;> ac_rfl

theorem gf2Product_xor_left (p q g : Nat) : gf2Product (p ^^^ q) g = gf2Product p g ^^^ gf2Product q g := by
  refine List.foldl_hom₂ _ (· ^^^ ·) _ _ _ 0 0 fun x y j => ?_
  rw [Nat.testBit_xor]
  exact (ite_xor_distrib ..).symm

theorem gf2Product_xor_right (q v w : Nat) : gf2Product q (v ^^^ w) = gf2Product q v ^^^ gf2Product q w := by
  refine List.foldl_hom₂ _ (· ^^^ ·) _ _ _ 0 0 fun x y j => ?_
  rw [Nat.shiftLeft_xor_distrib]
  split
  · ac_rfl
  · rfl

theorem reduce11D_xor (v w : Nat) : reduce11D (v ^^^ w) = reduce11D v ^^^ reduce11D w := by
  refine List.foldl_hom₂ _ (· ^^^ ·) _ _ _ v w fun x y j => ?_
  rw [Nat.testBit_xor]
  exact (ite_xor_distrib ..).symm

theorem fieldProduct_xor_left (a b v : Byte) : fieldProduct (a ^^^ b) v = fieldProduct a v ^^^ fieldProduct b v := by
  simp only [fieldProduct, BitVec.toNat_xor, gf2Product_xor_left, reduce11D_xor, BitVec.ofNat_xor]

theorem fieldProduct_xor_right (a v w : Byte) : fieldProduct a (v ^^^ w) = fieldProduct a v ^^^ fieldProduct a w := by
  simp only [fieldProduct, BitVec.toNat_xor, gf2Product_xor_right, reduce11D_xor, BitVec.ofNat_xor]

@[simp] theorem fieldProduct_zero_left (v : Byte) : fieldProduct 0#8 v = 0#8 := by
  simpa using fieldProduct_xor_left 0#8 0#8 v

@[simp] theorem fieldProduct_zero_right (a : Byte) : fieldProduct a 0#8 = 0#8 := by
  simpa using fieldProduct_xor_right a 0#8 0#8

@[simp] theorem fieldProduct_one_left : ∀ v, fieldProduct 1#8 v = v := by decide +kernel

@[simp] theorem fieldProduct_one_right : ∀ v, fieldProduct v 1#8 = v := by decide +kernel

/-! ### Doubling

Two functions that respect exclusive or agree on every byte when they agree on the eight powers of 2. -/

theorem exists_xor_twoPow_lt : ∀ v : Byte, v ≠ 0#8 → ∃ i < 8, (v ^^^ BitVec.twoPow 8 i).toNat < v.toNat := by
  decide +kernel

theorem eq_of_xor_of_twoPow {f g : Byte → Byte} (hf : ∀ v w, f (v ^^^ w) = f v ^^^ f w)
    (hg : ∀ v w, g (v ^^^ w) = g v ^^^ g w) (h : ∀ i < 8, f (BitVec.twoPow 8 i) = g (BitVec.twoPow 8 i)) (v : Byte) :
    f v = g v := by
  induction hn : v.toNat using Nat.strong_induction_on generalizing v with
  | _ n ih =>
    subst hn
    by_cases hv : v = 0#8
    · have hf0 : f 0#8 = 0#8 := by simpa using hf 0#8 0#8
      have hg0 : g 0#8 = 0#8 := by simpa using hg 0#8 0#8
      rw [hv, hf0, hg0]
    · obtain ⟨i, hi, hlt⟩ := exists_xor_twoPow_lt v hv
      have hsplit : v = v ^^^ BitVec.twoPow 8 i ^^^ BitVec.twoPow 8 i := by simp
      rw [hsplit, hf, hg, ih _ hlt _ rfl, h i hi]

theorem fieldProduct_two_of_twoPow : ∀ i < 8, ∀ j < 8,
    fieldProduct (fieldProduct 2#8 (BitVec.twoPow 8 i)) (BitVec.twoPow 8 j) =
      fieldProduct 2#8 (fieldProduct (BitVec.twoPow 8 i) (BitVec.twoPow 8 j)) := by decide +kernel

theorem fieldProduct_two_assoc (a v : Byte) :
    fieldProduct (fieldProduct 2#8 a) v = fieldProduct 2#8 (fieldProduct a v) := by
  refine eq_of_xor_of_twoPow (f := fun a => fieldProduct (fieldProduct 2#8 a) v)
    (g := fun a => fieldProduct 2#8 (fieldProduct a v)) (fun b c => ?_) (fun b c => ?_) (fun i hi => ?_) a
  · rw [fieldProduct_xor_right, fieldProduct_xor_left]
  · rw [fieldProduct_xor_left, fieldProduct_xor_right]
  · refine eq_of_xor_of_twoPow (fieldProduct_xor_right _) (g := fun v => fieldProduct 2#8 (fieldProduct _ v))
      (fun v w => ?_) (fieldProduct_two_of_twoPow i hi) v
    rw [fieldProduct_xor_right, fieldProduct_xor_right]

/-! ### Adding log forms (40_field_arithmetic.md R136) -/

theorem gfexp_succ_of_lt : ∀ e < 255, gfexp (e + 1) = fieldProduct 2#8 (gfexp e) := by decide +kernel

theorem gfexp_succ (e : Nat) : gfexp (e + 1) = fieldProduct 2#8 (gfexp e) :=
  calc gfexp (e + 1) = gfexp ((e % 255 + 1) % 255) := by rw [Nat.mod_add_mod, gfexp_mod_255]
    _ = fieldProduct 2#8 (gfexp (e % 255)) := by
      rw [gfexp_mod_255, gfexp_succ_of_lt _ (Nat.mod_lt e (by decide))]
    _ = fieldProduct 2#8 (gfexp e) := by rw [gfexp_mod_255]

/-- Both sides double when `e` grows by 1. -/
theorem gfexp_gflog_add {v : Byte} (hv : v ≠ 0#8) (e : Nat) : gfexp (gflog v + e) = fieldProduct (gfexp e) v := by
  induction e with
  | zero => rw [Nat.add_zero, gfexp_gflog v hv, gfexp_zero, fieldProduct_one_left]
  | succ e ih => rw [← Nat.add_assoc, gfexp_succ, ih, gfexp_succ, fieldProduct_two_assoc]

theorem gfexp_gflog_add_gflog {a b : Byte} (ha : a ≠ 0#8) (hb : b ≠ 0#8) :
    gfexp (gflog a + gflog b) = fieldProduct b a := by
  rw [gfexp_gflog_add ha, gfexp_gflog b hb]

theorem fieldProduct_gfexp_add (m n : Nat) (v : Byte) :
    fieldProduct (gfexp m) (fieldProduct (gfexp n) v) = fieldProduct (gfexp (m + n)) v := by
  induction m with
  | zero => rw [gfexp_zero, fieldProduct_one_left, Nat.zero_add]
  | succ m ih => rw [gfexp_succ, fieldProduct_two_assoc, ih, Nat.succ_add, gfexp_succ, fieldProduct_two_assoc]

end Sys2Proof.Proofs

/-! The coefficients of the generator polynomial (42_generator_builder.md R150, R152): the leading one is 1 and none is 0, so
the log forms of its terms multiply as its coefficients do. -/

namespace Sys2Proof.Proofs

open Sys2Proof Sys2Proof.Machine Sys2Proof.Claims
open Sys2Proof.Laws hiding Descending

/-! ### The product of the factors `x + α^i` -/

/-- The coefficient of `x^j` in `(x + α^0) ⋯ (x + α^(n-1))` over GF(256); `generatorPolynomial_eq` ties it to the model. -/
def rootProductCoefficient : Nat → Nat → Byte
  | 0, 0 => 1#8
  | 0, _ + 1 => 0#8
  | n + 1, 0 => fieldProduct (gfexp n) (rootProductCoefficient n 0)
  | n + 1, j + 1 => rootProductCoefficient n j ^^^ fieldProduct (gfexp n) (rootProductCoefficient n (j + 1))

theorem rootProductCoefficient_of_lt {n j : Nat} (h : n < j) : rootProductCoefficient n j = 0#8 := by
  obtain ⟨i, rfl⟩ := Nat.exists_eq_add_of_le' (Nat.one_le_of_lt h)
  induction n generalizing i with
  | zero => rfl
  | succ n ih =>
    obtain ⟨k, rfl⟩ := Nat.exists_eq_add_of_le' (Nat.one_le_of_lt (Nat.lt_of_succ_lt_succ h))
    rw [rootProductCoefficient, ih k (by omega), ih (k + 1) (by omega), fieldProduct_zero_right, BitVec.xor_zero]

theorem rootProductCoefficient_self (n : Nat) : rootProductCoefficient n n = 1#8 := by
  induction n with
  | zero => rfl
  | succ n ih =>
    rw [rootProductCoefficient, ih, rootProductCoefficient_of_lt (Nat.lt_succ_self n), fieldProduct_zero_right,
      BitVec.xor_zero]

/-- `(α^k + α^(n+1)) a = (α^(n+k) + α^n) b`: how the coefficients `a` of `x^(k-1)` and `b` of `x^k` are related in the
product of `n` factors. -/
def Neighbours (n k : Nat) (a b : Byte) : Prop :=
  fieldProduct (gfexp k) a ^^^ fieldProduct (gfexp (n + 1)) a =
    fieldProduct (gfexp (n + k)) b ^^^ fieldProduct (gfexp n) b

theorem xor_eq_of_xor_eq {p q r t u w y z : Byte} (h : p ^^^ q = r ^^^ t) (h' : u ^^^ w = y ^^^ z) :
    p ^^^ r ^^^ (q ^^^ w) = u ^^^ y ^^^ (t ^^^ z) :=
  calc p ^^^ r ^^^ (q ^^^ w) = p ^^^ q ^^^ r ^^^ w := by ac_rfl
    _ = r ^^^ t ^^^ r ^^^ w := by rw [h]
    _ = r ^^^ r ^^^ (t ^^^ w) := by ac_rfl
    _ = u ^^^ u ^^^ (t ^^^ w) := by simp only [BitVec.xor_self]
    _ = u ^^^ w ^^^ u ^^^ t := by ac_rfl
    _ = y ^^^ z ^^^ u ^^^ t := by rw [h']
    _ = u ^^^ y ^^^ (t ^^^ z) := by ac_rfl

/-- One more factor `x + α^n`: the new relation is `α` times that of `a` and `b` with `α^(n+1)` times that of `b` and `d`. -/
theorem Neighbours.step {n k : Nat} {a b d : Byte} (hab : Neighbours n k a b) (hbd : Neighbours n (k + 1) b d) :
    Neighbours (n + 1) (k + 1) (a ^^^ fieldProduct (gfexp n) b) (b ^^^ fieldProduct (gfexp n) d) := by
  have hab' := congrArg (fieldProduct (gfexp 1)) hab
  have hbd' := congrArg (fieldProduct (gfexp (n + 1))) hbd
  rw [Neighbours]
  simp only [fieldProduct_xor_right, fieldProduct_gfexp_add] at hab' hbd' ⊢
  simpa only [Nat.add_assoc, Nat.add_comm, Nat.add_left_comm] using xor_eq_of_xor_eq hab' hbd'

theorem rootProductCoefficient_neighbours (n j : Nat) :
    Neighbours n (j + 1) (rootProductCoefficient n j) (rootProductCoefficient n (j + 1)) := by
  induction n generalizing j with
  | zero => cases j <;> simp [Neighbours, rootProductCoefficient]
  | succ n ih =>
    cases j with
    | zero =>
      have hbelow : Neighbours n 0 0#8 (rootProductCoefficient n 0) := by simp [Neighbours]
      simpa [rootProductCoefficient] using hbelow.step (ih 0)
    | succ j => exact (ih j).step (ih (j + 1))

/-- The order of `α` is 255, so `α^(n+j+1) ≠ α^n` for `j < n ≤ 254`, and from the leading coefficient down none is 0. -/
theorem rootProductCoefficient_ne_zero {n j : Nat} (hj : j ≤ n) (hn : n ≤ 254) : rootProductCoefficient n j ≠ 0#8 := by
  induction hj using Nat.decreasingInduction with
  | self =>
    rw [rootProductCoefficient_self]
    decide
  | of_succ j hj ih =>
    intro h0
    have hpowers := rootProductCoefficient_neighbours n j
    rw [Neighbours, h0, fieldProduct_zero_right, fieldProduct_zero_right, BitVec.xor_self, eq_comm,
      BitVec.xor_eq_zero_iff, ← gfexp_gflog_add ih, ← gfexp_gflog_add ih] at hpowers
    have hlogs := congrArg gflog hpowers
    rw [gflog_gfexp, gflog_gfexp] at hlogs
    omega

/-! ### One pass of R150's loop -/

/-- The terms of the polynomial with the coefficients `c (m-1)`, ..., `c 0`; `generatorPolynomial_eq` ties it to the model. -/
def denseTerms (c : Nat → Byte) : Nat → List Term
  | 0 => []
  | m + 1 => { xe := m, lg := gflog (c m), fv := c m } :: denseTerms c m

theorem denseTerms_eq_map (c : Nat → Byte) (m : Nat) :
    denseTerms c m = (List.range m).reverse.map fun j => { xe := j, lg := gflog (c j), fv := c j } := by
  induction m with
  | zero => rfl
  | succ m ih => simp [denseTerms, ih, List.range_succ]

theorem mem_denseTerms {c : Nat → Byte} {m : Nat} {t : Term} (h : t ∈ denseTerms c m) :
    ∃ j < m, t = { xe := j, lg := gflog (c j), fv := c j } := by
  rw [denseTerms_eq_map] at h
  simpa [eq_comm] using h

theorem xorAt_cons (k : Nat) (q : Nat × Byte) (ps : List (Nat × Byte)) :
    xorAt k (q :: ps) = xorAt k ps ^^^ if q.1 = k then q.2 else 0#8 := by
  by_cases h : q.1 = k <;> simp [xorAt, h]

theorem xorAt_products_generatorFactor_cons (t : Term) (a : List Term) (i k : Nat) :
    xorAt k (products (t :: a) (generatorFactor i)) =
      xorAt k (products a (generatorFactor i)) ^^^ (if t.xe = k then gfexp (t.lg + i) else 0#8) ^^^
        if t.xe + 1 = k then gfexp t.lg else 0#8 := by
  change xorAt k ((t.xe + 1, gfexp t.lg) :: (t.xe, gfexp (t.lg + i)) :: products a (generatorFactor i)) = _
  rw [xorAt_cons, xorAt_cons]

theorem pairSum_generatorFactor_zero (c : Nat → Byte) (m i : Nat) :
    pairSum (denseTerms c m) (generatorFactor i) 0 = if 0 < m then gfexp (gflog (c 0) + i) else 0#8 := by
  rw [← xorAt_products]
  induction m with
  | zero => rfl
  | succ m ih =>
    rw [denseTerms, xorAt_products_generatorFactor_cons, ih]
    cases m <;> simp

theorem pairSum_generatorFactor_succ (c : Nat → Byte) (m i k : Nat) :
    pairSum (denseTerms c m) (generatorFactor i) (k + 1) =
      (if k < m then gfexp (gflog (c k)) else 0#8) ^^^ if k + 1 < m then gfexp (gflog (c (k + 1)) + i) else 0#8 := by
  rw [← xorAt_products]
  induction m with
  | zero => simp [denseTerms, products, xorAt]
  | succ m ih =>
    rw [denseTerms, xorAt_products_generatorFactor_cons, ih]
    obtain hlt | rfl | rfl | hgt : m < k ∨ m = k ∨ m = k + 1 ∨ k + 1 < m := by omega
    · simp (disch := omega) only [if_neg, BitVec.xor_zero]
    · simp
    · simp
    · simp (disch := omega) only [if_pos, if_neg, BitVec.xor_zero]

/-- R142: a product is given by its x-exponents and the sums over the pairs of terms. -/
theorem productTerms_eq_map (a b : List Term) :
    productTerms a b = ((productTerms a b).map Term.xe).map fun k =>
      { xe := k, lg := gflog (pairSum a b k), fv := pairSum a b k } := by
  rw [List.map_map]
  refine (List.map_id _).symm.trans (List.map_congr_left fun t ht => ?_)
  obtain ⟨hfv, hlg⟩ := fv_lg_of_mem_productTerms ht
  simp only [Function.comp, id, ← hfv, ← hlg]

/-- Log forms stand for the coefficients here because none of these is 0. -/
theorem pairSum_rootProduct {n k : Nat} (hn : n ≤ 254) (hk : k < n + 2) :
    pairSum (denseTerms (rootProductCoefficient n) (n + 1)) (generatorFactor n) k = rootProductCoefficient (n + 1) k := by
  cases k with
  | zero =>
    rw [pairSum_generatorFactor_zero, if_pos (Nat.succ_pos n),
      gfexp_gflog_add (rootProductCoefficient_ne_zero (Nat.zero_le n) hn), rootProductCoefficient]
  | succ k =>
    rw [pairSum_generatorFactor_succ, if_pos (by omega),
      gfexp_gflog _ (rootProductCoefficient_ne_zero (by omega) hn), rootProductCoefficient]
    split
    · rw [gfexp_gflog_add (rootProductCoefficient_ne_zero (by omega) hn)]
    · rw [rootProductCoefficient_of_lt (j := k + 1) (by omega), fieldProduct_zero_right]

/-! ### The generator polynomial (42_generator_builder.md R150, R152) -/

theorem generatorPolynomial_eq {n : Nat} (h : 1 ≤ n) (hn : n ≤ 254) :
    generatorPolynomial n = denseTerms (rootProductCoefficient n) (n + 1) := by
  induction n, h using Nat.le_induction with
  | base => decide +kernel
  | succ n h ih =>
    rw [generatorPolynomial_succ h, productTerms_eq_map, ← generatorPolynomial_succ h,
      xe_generatorPolynomial (Nat.succ_pos n), ih (by omega), denseTerms_eq_map _ (n + 1 + 1)]
    refine List.map_congr_left fun k hk => ?_
    rw [pairSum_rootProduct (by omega) (List.mem_range.1 (List.mem_reverse.1 hk))]

theorem fv_lg_of_mem_generatorPolynomial {n : Nat} (h : 1 ≤ n) (hn : n ≤ 254) {t : Term}
    (ht : t ∈ generatorPolynomial n) : t.fv ≠ 0#8 ∧ t.lg = gflog t.fv := by
  rw [generatorPolynomial_eq h hn] at ht
  obtain ⟨j, hj, rfl⟩ := mem_denseTerms ht
  exact ⟨rootProductCoefficient_ne_zero (Nat.le_of_lt_succ hj) hn, rfl⟩

theorem descending_generatorPolynomial {n : Nat} (h : 1 ≤ n) : Descending (generatorPolynomial n) := by
  rw [Descending, xe_generatorPolynomial h]
  exact List.pairwise_reverse.2 List.pairwise_lt_range

theorem generatorCoefficients_eq_cons {n : Nat} (h : 1 ≤ n) (hn : n ≤ 254) :
    generatorCoefficients n = 1#8 :: (generatorCoefficients n).tail := by
  rw [generatorCoefficients, generatorPolynomial_eq h hn, denseTerms, List.map_cons, List.tail_cons,
    rootProductCoefficient_self]

theorem length_tail_generatorCoefficients {n : Nat} (h : 1 ≤ n) : (generatorCoefficients n).tail.length = n := by
  rw [List.length_tail, generatorCoefficients, List.length_map, length_generatorPolynomial h, Nat.add_sub_cancel]

/-- R144: scaling by the log form of an element multiplies every coefficient by it. -/
theorem fv_multiplyByMonomial_generatorPolynomial {n : Nat} (h : 1 ≤ n) (hn : n ≤ 254) {b : Byte} (hb : b ≠ 0#8) :
    (multiplyByMonomial (generatorPolynomial n) (gflog b)).map Term.fv =
      (generatorCoefficients n).map (fieldProduct b) := by
  rw [multiplyByMonomial_of_descending (descending_generatorPolynomial h), generatorCoefficients, List.map_map,
    List.map_map]
  refine List.map_congr_left fun t ht => ?_
  obtain ⟨hfv, hlg⟩ := fv_lg_of_mem_generatorPolynomial h hn ht
  rw [Function.comp, Function.comp, hlg, gfexp_gflog_add_gflog hfv hb]

end Sys2Proof.Proofs

/-! Proofs for 43_rs_encoder.md: `divide` gives the remainder (R155, R157, R159), and what `RSDIV` writes (R156). -/

namespace Sys2Proof.Proofs

open Sys2Proof Sys2Proof.Machine Sys2Proof.Claims
open Sys2Proof.Laws hiding Descending

/-! ### The product of a quotient and the generator, by the quotient's leading coefficient -/

theorem foldl_xor_init (x : Byte) (f : Nat → Byte) (l : List Nat) :
    l.foldl (fun acc j => acc ^^^ f j) x = x ^^^ l.foldl (fun acc j => acc ^^^ f j) 0#8 := by
  induction l generalizing x with
  | nil => simp
  | cons j l ih => rw [List.foldl_cons, List.foldl_cons, ih, ih (0#8 ^^^ f j), BitVec.zero_xor, BitVec.xor_assoc]

theorem convolutionAt_nil (g : List Byte) (p : Nat) : convolutionAt [] g p = 0#8 := by
  simp [convolutionAt]

theorem convolutionAt_cons_zero (b : Byte) (q g : List Byte) :
    convolutionAt (b :: q) g 0 = fieldProduct b (g.getD 0 0#8) := BitVec.zero_xor

theorem convolutionAt_cons_succ (b : Byte) (q g : List Byte) (p : Nat) :
    convolutionAt (b :: q) g (p + 1) = fieldProduct b (g.getD (p + 1) 0#8) ^^^ convolutionAt q g p := by
  rw [convolutionAt, List.range_succ_eq_map, List.foldl_cons, List.foldl_map, foldl_xor_init, BitVec.zero_xor]
  simp [convolutionAt]

/-! ### Exclusive or into the leading coefficients (43_rs_encoder.md R157) -/

theorem length_xorLeading {fs bs : List Byte} (h : fs.length ≤ bs.length) : (xorLeading fs bs).length = bs.length := by
  induction fs generalizing bs with
  | nil => rfl
  | cons f fs ih =>
    cases bs with
    | nil => simp at h
    | cons b bs => simp [xorLeading, ih (Nat.le_of_succ_le_succ h)]

theorem getD_xorLeading {fs bs : List Byte} (h : fs.length ≤ bs.length) (p : Nat) :
    (xorLeading fs bs).getD p 0#8 = bs.getD p 0#8 ^^^ fs.getD p 0#8 := by
  induction fs generalizing bs p with
  | nil => simp [xorLeading]
  | cons f fs ih =>
    cases bs with
    | nil => simp at h
    | cons b bs =>
      cases p with
      | zero => rfl
      | succ p => exact ih (Nat.le_of_succ_le_succ h) p

theorem xorLeading_map_fieldProduct_zero {fs bs : List Byte} (h : fs.length ≤ bs.length) :
    xorLeading (fs.map (fieldProduct 0#8)) bs = bs := by
  induction fs generalizing bs with
  | nil => rfl
  | cons f fs ih =>
    cases bs with
    | nil => simp at h
    | cons b bs => simp [xorLeading, ih (Nat.le_of_succ_le_succ h)]

theorem getD_map_tail_generatorCoefficients {r : Nat} (h : 1 ≤ r) (hr : r ≤ 254) (b : Byte) (p : Nat) :
    ((generatorCoefficients r).tail.map (fieldProduct b)).getD p 0#8 =
      fieldProduct b ((generatorCoefficients r).getD (p + 1) 0#8) := by
  have hmap := List.getD_map (l := (generatorCoefficients r).tail) (d := 0#8) (n := p) (fieldProduct b)
  rw [fieldProduct_zero_right] at hmap
  rw [hmap, generatorCoefficients_eq_cons h hr]
  rfl

/-! ### One pass (43_rs_encoder.md R157, R158) -/

theorem dividePass_of_length_le {r : Nat} {rem : List Byte} (h : rem.length ≤ r) (g : List Term) :
    dividePass g r rem = rem := by
  cases rem with
  | nil => rfl
  | cons b rest =>
    have hlt : rest.length < r := h
    simp [dividePass, stripLeading, hlt, Nat.not_le_of_gt hlt]

theorem dividePass_zero_cons {r : Nat} {rest : List Byte} (h : r ≤ rest.length) (g : List Term) :
    dividePass g r (0#8 :: rest) = dividePass g r rest := by
  simp [dividePass, stripLeading, h]

/-- The generator is monic, so the pass cancels the leading coefficient. -/
theorem dividePass_cons_of_ne_zero {r : Nat} (h : 1 ≤ r) (hr : r ≤ 254) {b : Byte} (hb : b ≠ 0#8) {rest : List Byte}
    (hrest : r ≤ rest.length) :
    dividePass (generatorPolynomial r) r (b :: rest) =
      0#8 :: xorLeading ((generatorCoefficients r).tail.map (fieldProduct b)) rest := by
  have hstrip : stripLeading r (b :: rest) = b :: rest := by simp [stripLeading, hb]
  simp only [dividePass, hstrip]
  rw [if_neg (Nat.not_lt_of_ge hrest), fv_multiplyByMonomial_generatorPolynomial h hr hb,
    generatorCoefficients_eq_cons h hr]
  simp [xorLeading]

/-! ### The passes together -/

theorem dividePasses_of_length_le {r : Nat} {rem : List Byte} (h : rem.length ≤ r) (g : List Term) (n : Nat) :
    dividePasses g r n rem = rem := by
  induction n with
  | zero => rfl
  | succ n ih => rw [dividePasses, dividePass_of_length_le h, ih]

theorem dividePasses_zero_cons {r n : Nat} {rest : List Byte} (h : r ≤ rest.length) (hn : 0 < n) (g : List Term) :
    dividePasses g r n (0#8 :: rest) = dividePasses g r n rest := by
  obtain ⟨m, rfl⟩ := Nat.exists_eq_add_of_le' hn
  rw [dividePasses, dividePass_zero_cons h, dividePasses]

/-- Whatever the leading coefficient `b`, the passes take `b` times the generator away from the remainder and go on below it:
a zero costs no pass, any other `b` one. -/
theorem dividePasses_cons {r k n : Nat} (h : 1 ≤ r) (hr : r ≤ 254) (b : Byte) {rest : List Byte}
    (hrest : r ≤ rest.length) (hn : k + 1 < n) :
    ∃ m, k < m ∧ dividePasses (generatorPolynomial r) r n (b :: rest) =
      dividePasses (generatorPolynomial r) r m
        (xorLeading ((generatorCoefficients r).tail.map (fieldProduct b)) rest) := by
  have htail : (generatorCoefficients r).tail.length ≤ rest.length := by rwa [length_tail_generatorCoefficients h]
  by_cases hb : b = 0#8
  · refine ⟨n, by omega, ?_⟩
    rw [hb, xorLeading_map_fieldProduct_zero htail, dividePasses_zero_cons hrest (by omega)]
  · obtain ⟨m, rfl⟩ := Nat.exists_eq_add_of_le' (Nat.one_le_of_lt hn)
    refine ⟨m, by omega, ?_⟩
    rw [dividePasses, dividePass_cons_of_ne_zero h hr hb hrest, dividePasses_zero_cons _ (by omega)]
    rwa [length_xorLeading (by rwa [List.length_map])]

/-- By induction on the number `k` of coefficients above the remainder's: the quotient's are the leading coefficients met. -/
theorem dividePasses_quotient {r k n : Nat} (h : 1 ≤ r) (hr : r ≤ 254) {w : List Byte} (hw : w.length = k + r)
    (hn : k < n) :
    (dividePasses (generatorPolynomial r) r n w).length = r ∧ ∃ q : List Byte, q.length = k ∧
      ∀ p, w.getD p 0#8 = convolutionAt q (generatorCoefficients r) p ^^^
        (List.replicate k 0#8 ++ dividePasses (generatorPolynomial r) r n w).getD p 0#8 := by
  induction k generalizing n w with
  | zero =>
    rw [Nat.zero_add] at hw
    rw [dividePasses_of_length_le hw.le]
    exact ⟨hw, [], rfl, fun p => by rw [convolutionAt_nil, BitVec.zero_xor]; rfl⟩
  | succ k ih =>
    obtain ⟨b, rest, rfl⟩ := List.exists_cons_of_length_eq_add_one (hw.trans (Nat.add_right_comm k 1 r))
    have hrest : rest.length = k + r := by rw [List.length_cons] at hw; omega
    have hlen : ((generatorCoefficients r).tail.map (fieldProduct b)).length ≤ rest.length := by
      rw [List.length_map, length_tail_generatorCoefficients h, hrest]
      exact Nat.le_add_left r k
    obtain ⟨m, hm, hpass⟩ := dividePasses_cons h hr b (hrest ▸ Nat.le_add_left r k) hn
    obtain ⟨hrem, q, hq, hsum⟩ := ih ((length_xorLeading hlen).trans hrest) hm
    rw [hpass]
    refine ⟨hrem, b :: q, by rw [List.length_cons, hq], fun p => ?_⟩
    cases p with
    | zero =>
      rw [convolutionAt_cons_zero, generatorCoefficients_eq_cons h hr]
      simp [List.replicate_succ]
    | succ p =>
      have hp := hsum p
      rw [getD_xorLeading hlen, getD_map_tail_generatorCoefficients h hr] at hp
      rw [convolutionAt_cons_succ, BitVec.xor_assoc, List.replicate_succ, List.cons_append, List.getD_cons_succ,
        List.getD_cons_succ, ← hp, BitVec.xor_comm, BitVec.xor_assoc, BitVec.xor_self, BitVec.xor_zero]

/-! ### `divide` (43_rs_encoder.md R155, R159) -/

/-- What `divide` is made of, before the extra step of R159. -/
theorem dividePasses_message {r : Nat} (h : 1 ≤ r) (hr : r ≤ 254) (msg : List Byte) :
    (dividePasses (generatorPolynomial r) r (msg.length + 1) (msg ++ List.replicate r 0#8)).length = r ∧
      ∃ q : List Byte, q.length = msg.length ∧
        ∀ p, (msg ++ List.replicate r 0#8).getD p 0#8 = convolutionAt q (generatorCoefficients r) p ^^^
          (List.replicate msg.length 0#8 ++
            dividePasses (generatorPolynomial r) r (msg.length + 1) (msg ++ List.replicate r 0#8)).getD p 0#8 :=
  dividePasses_quotient h hr (by rw [List.length_append, List.length_replicate]) (Nat.lt_succ_self _)

theorem fitTo_length (vs : List Byte) : fitTo vs.length vs = vs :=
  List.ext_getElem (by simp [fitTo]) fun i _ hi => by simp [fitTo, hi]

/-- R159, log 3: the extra step finds nothing to cancel. -/
theorem divide_config {r : Nat} (h : 1 ≤ r) (hr : r ≤ 254) (msg : List Byte) :
    divide config msg r =
      dividePasses (generatorPolynomial r) r (msg.length + 1) (msg ++ List.replicate r 0#8) := by
  obtain ⟨hrem, -⟩ := dividePasses_message h hr msg
  rw [divide]
  split
  · rw [dividePass_of_length_le hrem.le]
    exact (congrArg (fitTo · _) hrem.symm).trans (fitTo_length _)
  · rfl

theorem length_divide_config {r : Nat} (h : 1 ≤ r) (hr : r ≤ 254) (msg : List Byte) :
    (divide config msg r).length = r := by
  rw [divide_config h hr]
  exact (dividePasses_message h hr msg).1

theorem getD_append_eq_xor (msg rem : List Byte) (r p : Nat) :
    (msg ++ rem).getD p 0#8 =
      (msg ++ List.replicate r 0#8).getD p 0#8 ^^^ (List.replicate msg.length 0#8 ++ rem).getD p 0#8 := by
  rcases Nat.lt_or_ge p msg.length with hp | hp
  · rw [List.getD_append _ _ _ _ hp, List.getD_append _ _ _ _ hp, List.getD_append _ _ _ _ (by simpa using hp)]
    simp
  · rw [List.getD_append_right _ _ _ _ hp, List.getD_append_right _ _ _ _ hp,
      List.getD_append_right _ _ _ _ (by simpa using hp)]
    simp

/-- Settles O27: by `dividePasses_quotient` the shifted message is quotient times generator with the remainder added below,
and the remainder added once more leaves the multiple of the generator. -/
theorem divideGivesTheRemainder : Obligations.DivideGivesTheRemainder := by
  intro msg r _ h hr
  obtain ⟨-, q, hq, hsum⟩ := dividePasses_message h hr msg
  refine ⟨length_divide_config h hr msg, q, hq, fun p _ => ?_⟩
  rw [getD_append_eq_xor _ _ r, hsum, ← divide_config h hr, BitVec.xor_assoc, BitVec.xor_self, BitVec.xor_zero]

/-! ### `RSDIV` (43_rs_encoder.md R156) -/

theorem rsdivBody_of_out_of_range {rs1 : XReg} {s : State} (h : operand s rs1 < 1 ∨ operand s rs1 > 254) (c : Config) :
    rsdivBody c rs1 s = .error (.badOperand 3) :=
  bind_error.2 (.inl (degreeOperand_of_out_of_range h))

theorem rsdivBody_of_in_range {rs1 : XReg} {s : State} (h : 1 ≤ operand s rs1 ∧ operand s rs1 ≤ 254) (c : Config) :
    rsdivBody c rs1 s =
      if s.cwlen = 0 then .error (.badOperand 4) else .ok (s.setEcc (divide c s.cwData (operand s rs1))) := by
  rw [rsdivBody, degreeOperand_eq_ok.2 ⟨h.1, h.2, rfl⟩, ok_bind]
  by_cases hcw : s.cwlen = 0
  · rw [if_pos hcw, check_eq_error.2 ⟨decide_eq_false (by omega), rfl⟩, error_bind]
  · rw [if_neg hcw, check_eq_ok (u := ()).2 (decide_eq_true (Nat.one_le_iff_ne_zero.2 hcw)), ok_bind]

/-- Settles O26: the two checks in their order, then `divide`, whose result has as many elements as the degree. -/
theorem rsdivWritesTheEcCodewords : Obligations.RsdivWritesTheEcCodewords := by
  intro s rs1 hf
  rw [exec_eq_command]
  refine ⟨fun h => command_of_error hf (rsdivBody_of_out_of_range h _), fun h => ?_⟩
  have hbody := rsdivBody_of_in_range h config
  refine ⟨fun hcw => ?empty, fun hcw => ?message⟩
  case empty => exact command_of_error hf (hbody.trans (if_pos hcw))
  case message =>
    exact ⟨_, command_of_ok hf (hbody.trans (if_neg (Nat.ne_of_gt hcw))), length_divide_config h.1 h.2 _, rfl⟩

end Sys2Proof.Proofs

/-! Proofs for 45_bch_metadata.md: the passes of R185 leave the remainder, so the string `bch` is the data followed by check
bits and a multiple of the generator. -/

namespace Sys2Proof.Proofs

open Sys2Proof Sys2Proof.Machine Sys2Proof.Claims

/-! ### One pass clears the top bit -/

theorem lt_two_pow_of_testBit_eq_false {x n : Nat} (h : x < 2 ^ (n + 1)) (hbit : x.testBit n = false) : x < 2 ^ n :=
  Nat.lt_of_not_le fun hle =>
    Bool.false_ne_true (hbit.symm.trans (Nat.testBit_of_two_pow_le_and_two_pow_add_one_gt hle h))

/-- The generator aligned to bit `m+j` has the same top bit as the value. -/
theorem xor_shiftLeft_lt {g m j v : Nat} (hg : 2 ^ m ≤ g) (hg' : g < 2 ^ (m + 1)) (hv : v < 2 ^ (m + j + 1))
    (hbit : v.testBit (m + j) = true) : v ^^^ (g <<< j) < 2 ^ (m + j) := by
  have halign : g <<< j < 2 ^ (m + j + 1) := Nat.add_right_comm m 1 j ▸ Nat.shiftLeft_lt hg'
  have htop : (g <<< j).testBit (m + j) = true := by
    simpa using Nat.testBit_of_two_pow_le_and_two_pow_add_one_gt hg hg'
  exact lt_two_pow_of_testBit_eq_false (Nat.xor_lt_two_pow hv halign) (by rw [Nat.testBit_xor, hbit, htop]; rfl)

/-! ### The passes together (45_bch_metadata.md R185) -/

theorem bchReduce_lt {g m : Nat} (hg : 2 ^ m ≤ g) (hg' : g < 2 ^ (m + 1)) {k v : Nat} (hv : v < 2 ^ (m + k)) :
    bchReduce g m k v < 2 ^ m := by
  induction k generalizing v with
  | zero => exact hv
  | succ k ih =>
    rw [bchReduce]
    split
    case isTrue hbit => exact ih (xor_shiftLeft_lt hg hg' hv hbit)
    case isFalse hbit => exact ih (lt_two_pow_of_testBit_eq_false hv (Bool.eq_false_of_not_eq_true hbit))

theorem gf2Product_zero (g : Nat) : gf2Product 0 g = 0 := by
  simpa using gf2Product_xor_left 0 0 g

/-- The sum of `gf2Product` over any number `n` of bits of the multiplier, which here has the one bit `k`. -/
theorem foldl_range_two_pow (g k n : Nat) :
    (List.range n).foldl (fun acc j => if (2 ^ k).testBit j then acc ^^^ (g <<< j) else acc) 0 =
      if k < n then g <<< k else 0 := by
  induction n with
  | zero => rfl
  | succ n ih =>
    rw [List.range_succ, List.foldl_concat, ih, Nat.testBit_two_pow]
    rcases Nat.lt_trichotomy k n with h | rfl | h
    · simp [h, Nat.lt_succ_of_lt h, Nat.ne_of_lt h]
    · simp
    · simp [Nat.not_lt_of_gt h, Nat.not_lt.2 (Nat.succ_le_of_lt h), Nat.ne_of_gt h]

theorem gf2Product_two_pow {k : Nat} (hk : k < 18) (g : Nat) : gf2Product (2 ^ k) g = g <<< k :=
  (foldl_range_two_pow g k 18).trans (if_pos hk)

/-- The quotient has the bit `j` exactly when the pass for bit `m+j` finds a 1. The bound on `k` is the one `gf2Product` has
for its multiplier. -/
theorem exists_bchReduce_eq_xor (g m : Nat) {k : Nat} (hk : k ≤ 18) (v : Nat) :
    ∃ q, q < 2 ^ k ∧ bchReduce g m k v = v ^^^ gf2Product q g := by
  induction k generalizing v with
  | zero => exact ⟨0, Nat.one_pos, by rw [gf2Product_zero, Nat.xor_zero, bchReduce]⟩
  | succ k ih =>
    have hpow : 2 ^ k < 2 ^ (k + 1) := Nat.pow_lt_pow_succ Nat.one_lt_two
    rw [bchReduce]
    split
    case isTrue =>
      obtain ⟨q, hq, heq⟩ := ih (Nat.le_of_succ_le hk) (v ^^^ (g <<< k))
      refine ⟨2 ^ k ^^^ q, Nat.xor_lt_two_pow hpow (hq.trans hpow), ?_⟩
      rw [heq, gf2Product_xor_left, gf2Product_two_pow hk, Nat.xor_assoc]
    case isFalse =>
      obtain ⟨q, hq, heq⟩ := ih (Nat.le_of_succ_le hk) v
      exact ⟨q, hq.trans hpow, heq⟩

/-! ### The string `bch` (45_bch_metadata.md R185) -/

section

variable {d k g m : Nat} (hd : d < 2 ^ k) (hg : 2 ^ m ≤ g) (hg' : g < 2 ^ (m + 1))
include hd hg hg'

theorem checkBits_lt : bchReduce g m k (d <<< m) < 2 ^ m :=
  bchReduce_lt hg hg' (Nat.add_comm k m ▸ Nat.shiftLeft_lt hd)

theorem bch_lt : bch d k g m < 2 ^ (k + m) :=
  Nat.xor_lt_two_pow (Nat.shiftLeft_lt hd)
    ((checkBits_lt hd hg hg').trans_le (Nat.pow_le_pow_right Nat.two_pos (Nat.le_add_left m k)))

theorem bch_shiftRight : bch d k g m >>> m = d := by
  rw [bch, Nat.shiftRight_xor_distrib, Nat.shiftLeft_shiftRight, Nat.shiftRight_eq_zero _ _ (checkBits_lt hd hg hg'),
    Nat.xor_zero]

end

theorem exists_bch_eq_gf2Product (d g m : Nat) {k : Nat} (hk : k ≤ 18) :
    ∃ q, q < 2 ^ k ∧ bch d k g m = gf2Product q g := by
  obtain ⟨q, hq, heq⟩ := exists_bchReduce_eq_xor g m hk (d <<< m)
  exact ⟨q, hq, by rw [bch, heq, Nat.xor_xor_cancel_left]⟩

/-- Settles O33: the check bits are `m` bits wide, so they leave the data on top; they are the shifted data with a multiple
of the generator added, so the data added once more leaves that multiple. -/
theorem bchStringIsAMultipleOfTheGenerator : Obligations.BchStringIsAMultipleOfTheGenerator := by
  intro d k g m hk hd hg hg'
  exact ⟨bch_lt hd hg hg', bch_shiftRight hd hg hg', exists_bch_eq_gf2Product d g m hk⟩

end Sys2Proof.Proofs

/-! Proofs for 47_data_placement.md: masking twice gives the bit back, and so does `MASKB` issued twice (R217, R218). -/

namespace Sys2Proof.Proofs

open Sys2Proof Sys2Proof.Machine Sys2Proof.Laws Sys2Proof.Claims

/-! ### The masked bit (47_data_placement.md R218) -/

section

variable {c : Config} {k : BitVec 3} {col row : Nat}

theorem maskBit_of_eq (h : c.T.maskpred k col row = c.maskFlipWhen) (b : Bool) : maskBit c k col row b = !b := if_pos h

theorem maskBit_of_ne (h : c.T.maskpred k col row ≠ c.maskFlipWhen) (b : Bool) : maskBit c k col row b = b := if_neg h

@[simp] theorem maskBit_maskBit (c : Config) (k : BitVec 3) (col row : Nat) (b : Bool) :
    maskBit c k col row (maskBit c k col row b) = b := by
  by_cases h : c.T.maskpred k col row = c.maskFlipWhen
  · rw [maskBit_of_eq h, maskBit_of_eq h, Bool.not_not]
  · rw [maskBit_of_ne h, maskBit_of_ne h]

theorem maskBit_eq_not_iff (b : Bool) : maskBit c k col row b = !b ↔ c.T.maskpred k col row = c.maskFlipWhen := by
  refine ⟨fun hnot => ?_, fun h => maskBit_of_eq h b⟩
  by_contra h
  rw [maskBit_of_ne h] at hnot
  exact Bool.self_ne_not b hnot

end

/-! ### `MASKB` (47_data_placement.md R217) -/

/-- The word of a register that holds one bit. -/
def bitWord (b : Bool) : Word := BitVec.ofNat 32 b.toNat

theorem toNat_bitWord (b : Bool) : (bitWord b).toNat = b.toNat := by cases b <;> rfl

theorem exists_getX_eq_bitWord {s : State} {r : XReg} (h : operand s r ≤ 1) : ∃ b, s.getX r = bitWord b := by
  rcases Nat.le_one_iff_eq_zero_or_eq_one.1 h with h | h
  · exact ⟨false, BitVec.eq_of_toNat_eq h⟩
  · exact ⟨true, BitVec.eq_of_toNat_eq h⟩

theorem exec_maskb_of_bitWord {s : State} {rd rs1 rs2 : XReg} {b : Bool} (hf : s.fatal = false)
    (h1 : operand s rs1 ≤ 176) (h2 : operand s rs2 ≤ 176) (hb : s.getX rd = bitWord b) :
    exec (.maskb rd rs1 rs2) s =
      .next (s.setX rd (bitWord (maskBit config s.sym.mask (operand s rs1) (operand s rs2) b))).complete := by
  have hd : scalarOperand s rd = b.toNat := (congrArg BitVec.toNat hb).trans (toNat_bitWord b)
  have hbit : decide (scalarOperand s rd = 1) = b := by rw [hd]; cases b <;> rfl
  have hrange : (scalarOperand s rs1 ≤ 176 && scalarOperand s rs2 ≤ 176 && scalarOperand s rd ≤ 1) = true := by
    simpa [hd, b.toNat_le] using (⟨h1, h2⟩ : scalarOperand s rs1 ≤ 176 ∧ scalarOperand s rs2 ≤ 176)
  rw [exec_eq_command]
  refine command_of_ok hf (bind_ok.2 ⟨(), check_eq_ok.2 hrange, ?_⟩)
  rw [hbit]
  rfl

theorem operand_complete_setX_of_ne {i r : XReg} (h : i ≠ r) (s : State) (v : Word) :
    operand (s.setX i v).complete r = operand s r := by
  rw [operand, State.complete_getX, State.getX_setX, if_neg h.symm, operand]

/-- On a destination that is no source, the second `MASKB` reads the same column, row and mask id, and the masked bit. -/
theorem getX_maskb_maskb {s t u : State} {rd rs1 rs2 : XReg} (hf : s.fatal = false) (hne1 : rd ≠ rs1) (hne2 : rd ≠ rs2)
    (h1 : operand s rs1 ≤ 176) (h2 : operand s rs2 ≤ 176) (hd : operand s rd ≤ 1)
    (ht : exec (.maskb rd rs1 rs2) s = .next t) (hu : exec (.maskb rd rs1 rs2) t = .next u) :
    u.getX rd = s.getX rd := by
  obtain ⟨b, hb⟩ := exists_getX_eq_bitWord hd
  obtain ⟨m, hm⟩ : ∃ m, maskBit config s.sym.mask (operand s rs1) (operand s rs2) b = m := ⟨_, rfl⟩
  rw [exec_maskb_of_bitWord hf h1 h2 hb, hm] at ht
  obtain rfl := Host.Outcome.next.inj ht
  have ht1 := operand_complete_setX_of_ne hne1 s
  have ht2 := operand_complete_setX_of_ne hne2 s
  have hsecond := exec_maskb_of_bitWord (s := (s.setX rd (bitWord m)).complete) hf ((ht1 _).trans_le h1)
    ((ht2 _).trans_le h2) (State.getX_setX_same s rd (bitWord m))
  obtain rfl := Host.Outcome.next.inj (hsecond.symm.trans hu)
  rw [State.complete_getX, State.getX_setX_same, ht1, ht2, State.complete_sym, State.setX_sym, ← hm, maskBit_maskBit, hb]

/-- Settles O38: inverting twice or not at all gives the bit back, and `MASKB` leaves its sources and the mask id alone. -/
theorem maskingIsItsOwnInverse : Obligations.MaskingIsItsOwnInverse := by
  refine ⟨rfl, fun c k col row b => ?bit, fun s t u rd rs1 rs2 => getX_maskb_maskb⟩
  case bit => exact ⟨maskBit_maskBit c k col row b, maskBit_eq_not_iff b⟩

end Sys2Proof.Proofs

/-! Proofs for 47_data_placement.md: the coordinate at each place of the zig-zag sequence, and which cells it visits
(R216). -/

namespace Sys2Proof.Proofs

open Sys2Proof Sys2Proof.Machine Sys2Proof.Claims

/-! ### The places of a list of parts of one length -/

section

variable {α β : Type} {f : α → List β} {n : Nat}

theorem getElem?_flatMap_of_length (hf : ∀ a, (f a).length = n) (l : List α) (i : Nat) {j : Nat} (hj : j < n) :
    (l.flatMap f)[n * i + j]? = l[i]?.bind fun a => (f a)[j]? := by
  induction l generalizing i with
  | nil => simp
  | cons a l ih =>
    rw [List.flatMap_cons]
    cases i with
    | zero =>
      rw [Nat.mul_zero, Nat.zero_add, List.getElem?_append_left ((hf a).symm ▸ hj)]
      rfl
    | succ i =>
      have hsub : n * (i + 1) + j - (f a).length = n * i + j := by rw [hf, Nat.mul_succ]; omega
      rw [List.getElem?_append_right (by rw [hf, Nat.mul_succ]; omega), hsub, ih, List.getElem?_cons_succ]

theorem length_flatMap_of_length (hf : ∀ a, (f a).length = n) (l : List α) : (l.flatMap f).length = n * l.length := by
  simp [List.length_flatMap, hf, Nat.mul_comm]

end

/-! ### The cells of one pair of columns (47_data_placement.md R216) -/

/-- The two cells of a row, the right one first. -/
def rowCells (size k r : Nat) : List (Nat × Nat) := [(pairLeft size k + 1, r), (pairLeft size k, r)]

def pairCells (size k : Nat) : List (Nat × Nat) := (pairRows size k).flatMap (rowCells size k)

theorem zigzag_eq_flatMap (size : Nat) : zigzag size = (List.range ((size - 1) / 2)).flatMap (pairCells size) := rfl

@[simp] theorem length_rowCells (size k r : Nat) : (rowCells size k r).length = 2 := rfl

@[simp] theorem length_pairRows (size k : Nat) : (pairRows size k).length = size := by
  unfold pairRows
  split <;> simp

@[simp] theorem mem_pairRows {size k r : Nat} : r ∈ pairRows size k ↔ r < size := by
  unfold pairRows
  split <;> simp

theorem getElem?_pairRows {size i : Nat} (k : Nat) (h : i < size) :
    (pairRows size k)[i]? = some (if k % 2 = 0 then size - 1 - i else i) := by
  unfold pairRows
  split
  · rw [List.getElem?_reverse (by simpa using h), List.length_range, List.getElem?_range (by omega)]
  · rw [List.getElem?_range h]

@[simp] theorem length_pairCells (size k : Nat) : (pairCells size k).length = 2 * size := by
  rw [pairCells, length_flatMap_of_length (length_rowCells size k), length_pairRows]

theorem getElem?_zigzag {size k i e : Nat} (hk : k < (size - 1) / 2) (hi : i < size) (he : e < 2) :
    (zigzag size)[2 * (k * size + i) + e]? = (rowCells size k (if k % 2 = 0 then size - 1 - i else i))[e]? := by
  have hplace : 2 * (k * size + i) + e = 2 * size * k + (2 * i + e) := by ring
  rw [zigzag_eq_flatMap, hplace, getElem?_flatMap_of_length (length_pairCells size) _ _ (by omega),
    List.getElem?_range hk, Option.bind_some, pairCells, getElem?_flatMap_of_length (length_rowCells size k) _ _ he,
    getElem?_pairRows k hi, Option.bind_some]

/-! ### The columns of the pairs, for an odd side -/

/-- The rule's column is the model's: the pairs to the right of column 6 begin at an odd column, the three to its left at an
even one. -/
theorem pairLeft_eq_leftColumn {size k : Nat} (hsize : 7 ≤ size) (hodd : size % 2 = 1) (hk : k < (size - 1) / 2) :
    pairLeft size k = leftColumn size k := by
  unfold pairLeft leftColumn
  split <;> split <;> omega

/-- Column 6 is in no pair and every other column of the symbol is in one. -/
theorem exists_pair_iff {size : Nat} (hsize : 7 ≤ size) (hodd : size % 2 = 1) (c : Nat) :
    (∃ k < (size - 1) / 2, c = leftColumn size k + 1 ∨ c = leftColumn size k) ↔ c < size ∧ c ≠ 6 := by
  unfold leftColumn
  constructor
  · rintro ⟨k, hk, hc⟩
    split at hc <;> omega
  · rintro ⟨hc, hne⟩
    by_cases h : c < 6
    · exact ⟨(size - 2 - c) / 2, by omega, by rw [if_neg (by omega)]; omega⟩
    · exact ⟨(size - 1 - c) / 2, by omega, by rw [if_pos (by omega)]; omega⟩

/-! ### The whole sequence -/

theorem mem_zigzag_iff {size : Nat} (hsize : 7 ≤ size) (hodd : size % 2 = 1) (c r : Nat) :
    (c, r) ∈ zigzag size ↔ c < size ∧ r < size ∧ c ≠ 6 := by
  have hpair : ∀ k, (c, r) ∈ pairCells size k ↔ r < size ∧ (c = pairLeft size k + 1 ∨ c = pairLeft size k) := by
    intro k
    simp only [pairCells, rowCells, List.mem_flatMap, mem_pairRows, List.mem_cons, List.not_mem_nil, or_false,
      Prod.mk.injEq]
    constructor
    · rintro ⟨r', hr, ⟨hc, rfl⟩ | ⟨hc, rfl⟩⟩
      · exact ⟨hr, .inl hc⟩
      · exact ⟨hr, .inr hc⟩
    · rintro ⟨hr, hc⟩
      exact ⟨r, hr, hc.imp (⟨·, rfl⟩) (⟨·, rfl⟩)⟩
  calc (c, r) ∈ zigzag size
    _ ↔ ∃ k < (size - 1) / 2, r < size ∧ (c = leftColumn size k + 1 ∨ c = leftColumn size k) := by
        simp only [zigzag_eq_flatMap, List.mem_flatMap, List.mem_range, hpair]
        refine exists_congr fun k => and_congr_right fun hk => ?_
        rw [pairLeft_eq_leftColumn hsize hodd hk]
    _ ↔ r < size ∧ c < size ∧ c ≠ 6 := by
        rw [← exists_pair_iff hsize hodd c]
        exact ⟨fun ⟨k, hk, hr, hc⟩ => ⟨hr, k, hk, hc⟩, fun ⟨hr, k, hk, hc⟩ => ⟨k, hk, hr, hc⟩⟩
    _ ↔ c < size ∧ r < size ∧ c ≠ 6 := and_left_comm

theorem length_zigzag {size : Nat} (hodd : size % 2 = 1) : (zigzag size).length = size * (size - 1) := by
  have hhalf : 2 * ((size - 1) / 2) = size - 1 := by omega
  rw [zigzag_eq_flatMap, length_flatMap_of_length (length_pairCells size), List.length_range, Nat.mul_right_comm, hhalf,
    Nat.mul_comm]

/-- The sequence is as long as the set of its cells is large, so no cell comes twice. -/
theorem nodup_zigzag {size : Nat} (hsize : 7 ≤ size) (hodd : size % 2 = 1) : (zigzag size).Nodup := by
  have hcells : (zigzag size).toFinset = (Finset.range size).erase 6 ×ˢ Finset.range size := by
    ext ⟨c, r⟩
    simp only [List.mem_toFinset, mem_zigzag_iff hsize hodd, Finset.mem_product, Finset.mem_erase, Finset.mem_range]
    tauto
  have hcard : (zigzag size).toFinset.card = (zigzag size).length := by
    rw [hcells, Finset.card_product, Finset.card_erase_of_mem (Finset.mem_range.2 hsize), Finset.card_range,
      length_zigzag hodd, Nat.mul_comm]
  exact Multiset.coe_nodup.1 (Multiset.toFinset_card_eq_card_iff_nodup.1 hcard)

/-- Settles O43: the places by the two lengths, of a row's cells and of a pair's; the cells by the columns of the pairs; and
no repeats by counting. -/
theorem zigzagVisitsEachCellOnce : Obligations.ZigzagVisitsEachCellOnce := by
  intro size h21 hodd
  have hsize : 7 ≤ size := by omega
  refine ⟨fun k hk i hi => ?places, nodup_zigzag hsize hodd, length_zigzag hodd, mem_zigzag_iff hsize hodd⟩
  case places =>
    rw [← pairLeft_eq_leftColumn hsize hodd hk]
    exact ⟨getElem?_zigzag hk hi Nat.zero_lt_two, getElem?_zigzag hk hi Nat.one_lt_two⟩

end Sys2Proof.Proofs

/-! Proofs for 70_reset_and_hazards.md: the state after reset (R260). -/

namespace Sys2Proof.Proofs

open Sys2Proof Sys2Proof.Machine Sys2Proof.Laws

/-! ### The registers and the matrix after reset (70_reset_and_hazards.md R260) -/

@[simp] theorem getX_reset (i : XReg) : State.reset.getX i = 0#32 := Vector.getElem_replicate i.isLt

@[simp] theorem getPoly_reset (i : PReg) : State.reset.getPoly i = { len := 0, terms := [] } :=
  Vector.getElem_replicate i.isLt

@[simp] theorem matRead_nil (c r : Nat) : matRead [] c r = .unset := rfl

/-- The words a host reads at `ID`, `CMD` and `CTRL` do not depend on the state (10_state.md R30 to R32). -/
theorem memRead_id_cmd_ctrl (s : State) :
    memRead s 0x00000#20 = idWord ∧ memRead s 0x00001#20 = 0#32 ∧ memRead s 0x00003#20 = 0#32 := by
  obtain ⟨hid, hcmd, -, hctrl, -⟩ := hostReadsReturnTheMappedValue s
  exact ⟨hid, hcmd, hctrl⟩

/-- Settles O1: the register files repeat one value, the storage arrays and the matrix list no element, so every index reads
as the reset contents; the control words evaluate, and `ID`, `CMD` and `CTRL` read the same in every state. -/
theorem resetLeavesEveryPieceAtItsValue : Obligations.ResetLeavesEveryPieceAtItsValue := by
  refine ⟨getX_reset, fun i => ?polynomials, rfl, rfl, rfl, rfl, read_nil _, rfl, read_nil _, rfl, read_nil _, rfl,
    read_nil _, rfl, fun c r => ?cells, memRead_id_cmd_ctrl State.reset⟩
  case polynomials =>
    rw [getPoly_reset]
    exact ⟨rfl, read_nil _⟩
  case cells => exact congrArg cellCode (matRead_nil c r)

end Sys2Proof.Proofs

/-! Proofs for 30_encoding.md: the decoder and the encoder invert each other (R110, R116), and what the step does with a word
that is no command (R115). -/

namespace Sys2Proof.Proofs

open Sys2Proof Sys2Proof.Machine Sys2Proof.Laws Sys2Proof.Claims

/-! ### Encoding, then decoding -/

/-- Settles O8: by the command; each has at most three register numbers, and the decoder is run on the word of every choice
of them. -/
theorem decodeReadsBackEveryCommand : Obligations.DecodeReadsBackEveryCommand := by
  intro i _
  cases i with
  | gfexp rd rs1 => revert rd rs1; decide +kernel
  | gflog rd rs1 => revert rd rs1; decide +kernel
  | pmul pd pa pb => revert pd pa pb; decide +kernel
  | pmulm pd pa rs1 => revert pd pa rs1; decide +kernel
  | rsgen pd rs1 => revert pd rs1; decide +kernel
  | rsdiv rs1 => revert rs1; decide +kernel
  | msel rs1 rs2 => revert rs1 rs2; decide +kernel
  | masm | mint | mpat | mdata | mmargin | mrender => decide
  | menc rs1 rs2 => revert rs1 rs2; decide +kernel
  | bchfmt rd rs1 rs2 => revert rd rs1 rs2; decide +kernel
  | bchver rd rs1 => revert rd rs1; decide +kernel
  | maskb rd rs1 rs2 => revert rd rs1 rs2; decide +kernel
  | qrenc rs1 rs2 => revert rs1 rs2; decide +kernel

/-! ### The bits of a field (30_encoding.md R111) -/

/-- A number moved to the place of its field. -/
def placed (n pos : Nat) : Word := BitVec.ofNat 32 (n <<< pos)

theorem packFields_eq_placed (f : RawFields) : packFields f =
    placed f.op 0 ||| placed f.rd 8 ||| placed f.rs1 11 ||| placed f.rs2 14 ||| placed f.pd 17 ||| placed f.pa 19 |||
      placed f.pb 21 := by
  simp [packFields, placed, BitVec.ofNat_or]

@[simp] theorem placed_zero (pos : Nat) : placed 0 pos = 0#32 := by simp [placed]

theorem placed_extractLsb' (w : Word) (pos len : Nat) :
    placed (w.extractLsb' pos len).toNat pos = w &&& BitVec.ofNat 32 ((2 ^ len - 1) <<< pos) := by
  refine BitVec.eq_of_getLsbD_eq fun i hi => ?_
  simp only [placed, BitVec.getLsbD_ofNat, BitVec.getLsbD_and, Nat.testBit_shiftLeft, BitVec.testBit_toNat,
    BitVec.getLsbD_extractLsb', Nat.testBit_two_pow_sub_one, hi, decide_true, Bool.true_and]
  by_cases h : pos ≤ i
  · simp [h, Bool.and_comm]
  · simp [h]

@[simp] theorem placed_fieldRd (w : Word) : placed (fieldRd w).val 8 = w &&& 0x00000700#32 := placed_extractLsb' w 8 3
@[simp] theorem placed_fieldRs1 (w : Word) : placed (fieldRs1 w).val 11 = w &&& 0x00003800#32 := placed_extractLsb' w 11 3
@[simp] theorem placed_fieldRs2 (w : Word) : placed (fieldRs2 w).val 14 = w &&& 0x0001C000#32 := placed_extractLsb' w 14 3
@[simp] theorem placed_fieldPd (w : Word) : placed (fieldPd w).val 17 = w &&& 0x00060000#32 := placed_extractLsb' w 17 2
@[simp] theorem placed_fieldPa (w : Word) : placed (fieldPa w).val 19 = w &&& 0x00180000#32 := placed_extractLsb' w 19 2
@[simp] theorem placed_fieldPb (w : Word) : placed (fieldPb w).val 21 = w &&& 0x00600000#32 := placed_extractLsb' w 21 2

/-! ### Decoding, then encoding -/

/-- What the decoder accepts: a row of the map that the word agrees with in every bit of the row's mask. -/
theorem decode_eq_ok {w : Word} {i : Instr} (h : decode w = .ok i) :
    ∃ r ∈ opcodeMap, w &&& r.mask = r.pattern ∧ r.build w = i := by
  unfold decode at h
  split at h
  · cases h
  · next r hr =>
    split at h
    · next hw => exact ⟨r, List.mem_of_find?_eq_some hr, hw, Except.ok.inj h⟩
    · cases h

/-- A row's command is encoded by its pattern and the bits its mask leaves open: those of the fields it uses. -/
theorem encode_build {r : OpcodeRow} (hr : r ∈ opcodeMap) (w : Word) :
    encode (r.build w) = r.pattern ||| (w &&& ~~~r.mask) := by
  revert r
  simp only [opcodeMap, List.forall_mem_cons, List.not_mem_nil, false_implies, implies_true, and_true]
  simp only [encode, packFields_eq_placed, fieldsOf, placed_zero, placed_fieldRd, placed_fieldRs1, placed_fieldRs2,
    placed_fieldPd, placed_fieldPa, placed_fieldPb, BitVec.or_zero, BitVec.or_assoc, ← BitVec.and_or_distrib_left]
  simp [placed]

/-- Settles O9: inside the mask of its row the word is the pattern, outside it the fields the command was built from. -/
theorem everyLegalWordIsItsCommandsWord : Obligations.EveryLegalWordIsItsCommandsWord := by
  intro w i h
  obtain ⟨r, hr, hw, rfl⟩ := decode_eq_ok h
  calc encode (r.build w) = r.pattern ||| (w &&& ~~~r.mask) := encode_build hr w
    _ = (w &&& r.mask) ||| (w &&& ~~~r.mask) := by rw [hw]
    _ = w := by rw [← BitVec.and_or_distrib_left, BitVec.or_not_self, BitVec.and_allOnes]

end Sys2Proof.Proofs

/-! Proofs for 60_exceptions.md, 10_state.md sections 6 and 20_memory.md section 2: what one step does with a host access
(R31, R32, R61), how a command ends (R238), what `FATAL` refuses (R39, R248), and the consistent report (R39, R40). -/

namespace Sys2Proof.Proofs

open Sys2Proof Sys2Proof.Machine Sys2Proof.Laws Sys2Proof.Claims Sys2Proof.Safety

/-! ### One step, by the access it takes (20_memory.md R61, R70) -/

theorem step_write_cmd (s : State) (w : Word) (rest : List HostAccess) :
    step { s with pending := .write 0x00001#20 w :: rest } = commandWord w { s with pending := rest } := by
  simp only [step, stepPending, hostAccess]
  exact if_pos (locate_eq_cmd.2 rfl)

theorem step_write_of_ne {a : Addr} (h : a ≠ 0x00001#20) (s : State) (v : Word) (rest : List HostAccess) :
    step { s with pending := .write a v :: rest } = .next (memWrite { s with pending := rest } a v) :=
  if_neg (mt locate_eq_cmd.1 h)

theorem commandWord_of_ok {w : Word} {i : Instr} (h : decode w = .ok i) (s : State) : commandWord w s = exec i s := by
  simp only [commandWord, h]

theorem commandWord_of_error {w : Word} {e : DecodeError} (h : decode w = .error e) (s : State) :
    commandWord w s = command (fun _ => .error (illegalError e)) s := by
  simp only [commandWord, h]

/-- A command word is one transaction, whatever the word: that of its command, or the report of an illegal word. -/
theorem exists_commandWord_eq_command (w : Word) : ∃ body, ∀ s, commandWord w s = command body s := by
  cases h : decode w with
  | ok i => exact ⟨bodyOf i, fun s => (commandWord_of_ok h s).trans (exec_eq_command i s)⟩
  | error e => exact ⟨_, commandWord_of_error h⟩

/-- Settles O2: the decoder's answer selects the command; the other accesses are the equations of `step`. -/
theorem stepRunsTheDecodedCommand : Obligations.StepRunsTheDecodedCommand := by
  refine ⟨fun s w rest i h => ?command, fun s => (memRead_id_cmd_ctrl s).2.1, fun s h => ?idle, fun s a rest => rfl,
    fun s a v rest h => step_write_of_ne h s v rest⟩
  case command => rw [step_write_cmd, commandWord_of_ok h]
  case idle => simp only [step, stepPending, h]

/-! ### Words that are no command (30_encoding.md R115) -/

theorem opcodes_opcodeMap : opcodeMap.map (fun r => r.opcode.toNat) =
    [0x01, 0x02, 0x10, 0x11, 0x18, 0x20, 0x30, 0x31, 0x32, 0x33, 0x40, 0x41, 0x42, 0x48, 0x49, 0x4A, 0x4B, 0x50] := by
  decide

theorem toNat_fieldOp (w : Word) : (fieldOp w).toNat = w.toNat % 256 := by simp [fieldOp]

theorem decode_eq_unknownOpcode_iff (w : Word) :
    decode w = .error .unknownOpcode ↔ w.toNat % 256 ∉ opcodeMap.map fun r => r.opcode.toNat := by
  have hfind : opcodeMap.find? (fun r => r.opcode == fieldOp w) = none ↔
      w.toNat % 256 ∉ opcodeMap.map fun r => r.opcode.toNat := by
    simp only [List.find?_eq_none, beq_iff_eq, List.mem_map, not_exists, not_and, ← toNat_fieldOp, BitVec.toNat_inj]
  rw [← hfind]
  unfold decode
  split
  · next h => simp [h]
  · next r h =>
    rw [h]
    split <;> simp

theorem step_write_illegal {s : State} {w : Word} {e : DecodeError} (hf : s.fatal = false) (h : decode w = .error e)
    (rest : List HostAccess) :
    step { s with pending := .write 0x00001#20 w :: rest } =
      .next (({ s with pending := rest } : State).report (illegalError e)) := by
  rw [step_write_cmd, commandWord_of_error h]
  exact command_of_error hf rfl

/-- The report of an error that is not fatal. -/
theorem report_of_not_fatal (s : State) {e : CmdError} (he : errorFatal e = false) :
    s.report e = { s with err := errorCode e, finfo := errorInfo e } := by
  simp only [State.report, he, Bool.or_false]

/-- Settles O3: the low byte decides between the two errors, and a word with a legal one that the decoder accepts is the
word of its command. -/
theorem illegalWordsAreReported : Obligations.IllegalWordsAreReported := by
  intro s w rest hf
  rw [← opcodes_opcodeMap]
  refine ⟨fun hop => ?unknown, fun hop hno => ?unused⟩
  case unknown =>
    rw [step_write_illegal hf ((decode_eq_unknownOpcode_iff w).2 hop)]
    exact congrArg _ (report_of_not_fatal _ rfl)
  case unused =>
    have hdec : decode w = .error .unusedBitSet := by
      cases hd : decode w with
      | ok i => exact absurd (everyLegalWordIsItsCommandsWord w i hd) (hno i)
      | error e =>
        cases e with
        | unknownOpcode => exact absurd hop ((decode_eq_unknownOpcode_iff w).1 hd)
        | unusedBitSet => rfl
    rw [step_write_illegal hf hdec]
    exact congrArg _ (report_of_not_fatal _ rfl)

/-- Settles O7: the decoder run on the fourteen words. -/
theorem sampleWordsDecode : Obligations.SampleWordsDecode := by
  unfold Obligations.SampleWordsDecode
  decide

/-! ### How a command ends (60_exceptions.md R238) -/

theorem errorCode_ne_ok (e : CmdError) : errorCode e ≠ .ok := by cases e <;> exact ErrCode.noConfusion

theorem errorFatal_iff (e : CmdError) :
    errorFatal e = true ↔ errorCode e = .placementOverflow ∨ errorCode e = .malformedLookup := by
  cases e <;> simp [errorFatal, errorCode]

/-- What every command keeps: `DIN`, `SYM.MASK`, `FATAL` while it completes, and the host's accesses and replies. -/
structure Frame (s u : State) : Prop where
  fatal : u.fatal = s.fatal
  din : u.din = s.din
  dinlen : u.dinlen = s.dinlen
  mask : u.sym.mask = s.sym.mask
  pending : u.pending = s.pending
  replies : u.replies = s.replies

theorem Writes.frame {i : Instr} {s u : State} (h : Writes i s u) : Frame s u := by
  cases i with
  | gfexp | gflog | bchfmt | bchver | maskb => obtain ⟨v, rfl⟩ := h; exact ⟨rfl, rfl, rfl, rfl, rfl, rfl⟩
  | pmul | pmulm | rsgen => obtain ⟨ts, rfl⟩ := h; exact ⟨rfl, rfl, rfl, rfl, rfl, rfl⟩
  | rsdiv | masm | mint => obtain ⟨vs, rfl⟩ := h; exact ⟨rfl, rfl, rfl, rfl, rfl, rfl⟩
  | msel => obtain ⟨-, v, l, rfl⟩ := h; exact ⟨rfl, rfl, rfl, rfl, rfl, rfl⟩
  | menc => obtain ⟨-, v, l, vs, bs, rfl⟩ := h; exact ⟨rfl, rfl, rfl, rfl, rfl, rfl⟩
  | mpat | mrender => obtain ⟨-, m, n, rfl⟩ := h; exact ⟨rfl, rfl, rfl, rfl, rfl, rfl⟩
  | mdata | mmargin => obtain ⟨-, m, rfl⟩ := h; exact ⟨rfl, rfl, rfl, rfl, rfl, rfl⟩
  | qrenc => obtain ⟨-, v, l, vs, bs, m, n, rfl⟩ := h; exact ⟨rfl, rfl, rfl, rfl, rfl, rfl⟩

/-- Settles O4: the three ways a command ends. -/
theorem commandCompletesOrChangesOnlyTheReport : Obligations.CommandCompletesOrChangesOnlyTheReport := by
  intro i s
  obtain ⟨t, ht⟩ := command_next (bodyOf i) s
  refine ⟨t, (exec_eq_command i s).trans ht, fun hf => ?refused, fun hf => ?runs⟩
  case refused =>
    rw [command_of_fatal hf] at ht
    exact (Host.Outcome.next.inj ht).symm
  case runs =>
    rcases command_cases ht with ⟨hfatal, -⟩ | ⟨-, u, hu, rfl⟩ | ⟨-, e, -, rfl⟩
    · rw [hf] at hfatal
      cases hfatal
    · exact .inl ⟨rfl, rfl, (bodyOf_writes hu).frame.fatal.trans hf⟩
    · refine .inr ⟨errorCode_ne_ok e, rfl, ?_⟩
      rw [State.report_fatal, hf, Bool.false_or]
      exact errorFatal_iff e

/-! ### Under `FATAL` (10_state.md R39, 60_exceptions.md R248) -/

/-- A host write to any address but `CTRL` keeps the report; under `FATAL` it keeps `SYM` as well. -/
theorem memWrite_report {s : State} {a : Addr} {v : Word} (h : locate a ≠ .ctrl) :
    (memWrite s a v).fatal = s.fatal ∧ (memWrite s a v).err = s.err ∧ (memWrite s a v).finfo = s.finfo ∧
      (s.fatal = true → (memWrite s a v).sym = s.sym) := by
  cases hl : locate a with
  | ctrl => exact absurd hl h
  | sym =>
    simp only [memWrite, hl, writeSym]
    split
    · next hok => exact ⟨rfl, rfl, rfl, fun hf => absurd hf (by rw [hok.2.1]; decide)⟩
    · exact ⟨rfl, rfl, rfl, fun _ => rfl⟩
  | dinlen | cwlen | bitlen | plen =>
    simp only [memWrite, hl]
    split <;> exact ⟨rfl, rfl, rfl, fun _ => rfl⟩
  | id | cmd | status | finfo | ecclen | matsize | mat | unmapped | x | din | cw | ecc | bits => simp [memWrite, hl]
  | term => simp [memWrite, hl, setPolyTerm]

/-- Settles O5: the transaction refuses every command word, and the host reaches the report through `CTRL` only. -/
theorem fatalRefusesCommandsUntilReset : Obligations.FatalRefusesCommandsUntilReset := by
  have hrefused : ∀ (s : State) (w : Word), s.fatal = true → commandWord w s = .next s := fun s w hf => by
    obtain ⟨body, hbody⟩ := exists_commandWord_eq_command w
    rw [hbody, command_of_fatal hf]
  refine ⟨fun s w rest hf => (step_write_cmd s w rest).trans (hrefused _ w hf), fun s t hf ht => ?_⟩
  rcases step_cases s with ⟨-, hs⟩ | ⟨a, rest, -, hs⟩ | ⟨a, v, rest, -, -, hs⟩ | ⟨a, v, rest, hp, -, hs⟩
  · obtain rfl := Host.Outcome.next.inj (hs.symm.trans ht)
    exact .inl ⟨hf, rfl, rfl, rfl⟩
  · obtain rfl := Host.Outcome.next.inj (hs.symm.trans ht)
    exact .inl ⟨hf, rfl, rfl, rfl⟩
  · obtain rfl := Host.Outcome.next.inj ((hs.trans (hrefused _ v hf)).symm.trans ht)
    exact .inl ⟨hf, rfl, rfl, rfl⟩
  · obtain rfl := Host.Outcome.next.inj (hs.symm.trans ht)
    by_cases hc : locate a = .ctrl
    · rw [memWrite_ctrl hc]
      split
      · next hv => exact .inr ⟨v, rest, by rw [hp, locate_eq_ctrl.1 hc], hv⟩
      · exact .inl ⟨hf, rfl, rfl, rfl⟩
    · obtain ⟨hfatal, herr, hinfo, hsym⟩ := memWrite_report (s := { s with pending := rest }) (v := v) hc
      exact .inl ⟨hfatal.trans hf, herr, hinfo, hsym hf⟩

/-! ### The reset write (10_state.md R32, 70_reset_and_hazards.md R261) -/

/-- Settles O6: `CTRL` is at 0x00003, and the write is `resetBlock` or nothing by bit 0. -/
theorem ctrlWriteResetsTheBlock : Obligations.CtrlWriteResetsTheBlock := by
  intro s v rest
  have hstep : step { s with pending := .write 0x00003#20 v :: rest } =
      .next (if v.getLsbD 0 then resetBlock { s with pending := rest } else { s with pending := rest }) := by
    rw [step_write_of_ne (by decide), memWrite_ctrl (locate_eq_ctrl.2 rfl)]
  refine ⟨fun hv => ?_, fun hv => ?_, (memRead_id_cmd_ctrl s).2.2⟩
  · rw [hstep, if_pos hv]
    rfl
  · rw [hstep, if_neg (by rw [hv]; decide)]

/-! ### The report stays consistent (10_state.md R39, R40) -/

theorem command_reportInv {body : State → Except CmdError State} {s t : State} (hframe : ∀ u, body s = .ok u → u.fatal = s.fatal)
    (hs : ReportInv s) (h : command body s = .next t) : ReportInv t := by
  rcases command_cases h with ⟨-, rfl⟩ | ⟨hf, u, hu, rfl⟩ | ⟨hf, e, -, rfl⟩
  · exact hs
  · simpa [ReportInv] using (hframe u hu).trans hf
  · refine ⟨?_, fun he => absurd he (errorCode_ne_ok e)⟩
    rw [State.report_fatal, hf, Bool.false_or]
    exact errorFatal_iff e

theorem reset_reportInv : ReportInv State.reset := by decide

theorem memWrite_reportInv {s : State} (hs : ReportInv s) (a : Addr) (v : Word) : ReportInv (memWrite s a v) := by
  by_cases hc : locate a = .ctrl
  · rw [memWrite_ctrl hc]
    split
    · exact reset_reportInv
    · exact hs
  · obtain ⟨hfatal, herr, hinfo, -⟩ := memWrite_report (s := s) (v := v) hc
    rwa [ReportInv, hfatal, herr, hinfo]

theorem commandWord_reportInv {s t : State} (hs : ReportInv s) {w : Word} (h : commandWord w s = .next t) : ReportInv t := by
  cases hd : decode w with
  | ok i =>
    rw [commandWord_of_ok hd, exec_eq_command] at h
    exact command_reportInv (fun u hu => (bodyOf_writes hu).frame.fatal) hs h
  | error e =>
    rw [commandWord_of_error hd] at h
    exact command_reportInv (fun u hu => by cases hu) hs h

/-- Settles O59: by what the step does with the next access. -/
theorem stepKeepsTheReportConsistent : Obligations.StepKeepsTheReportConsistent := by
  intro s t hs ht
  rcases step_cases s with ⟨-, hstep⟩ | ⟨a, rest, -, hstep⟩ | ⟨a, v, rest, -, -, hstep⟩ | ⟨a, v, rest, -, -, hstep⟩ <;>
    rw [hstep] at ht
  · cases ht
    exact hs
  · cases ht
    exact hs
  · exact commandWord_reportInv (s := { s with pending := rest }) hs ht
  · cases ht
    exact memWrite_reportInv (s := { s with pending := rest }) hs a v

end Sys2Proof.Proofs

/-! Proofs for 20_memory.md: what a host write stores (R63), and that it reaches no other address (R61). -/

namespace Sys2Proof.Proofs

open Sys2Proof Sys2Proof.Machine Sys2Proof.Laws Sys2Proof.Claims

/-! ### What a host write stores (20_memory.md R63) -/

theorem extractLsb'_zero_eight (v : Word) : v.extractLsb' 0 8 = v.setWidth 8 := by
  refine BitVec.eq_of_toNat_eq ?_
  simp

theorem locate_at20_mat_of_range {a : Nat} (h : 0x10000 ≤ a) (h' : a < 0x20000) : ∃ c r, locate (at20 a) = .mat c r := by
  have hsplit : a = 0x10000 + 0x100 * ((a - 0x10000) / 0x100) + (a - 0x10000) % 0x100 := by omega
  exact ⟨_, _, hsplit ▸ locate_at20_mat (Nat.mod_lt _ (by decide)) (by omega)⟩

/-- Settles O11: the map puts the location where the rule says, and the write is the update of that location. -/
theorem hostWritesStoreAtTheMappedPlace : Obligations.HostWritesStoreAtTheMappedPlace := by
  intro s v
  refine ⟨fun i => ?x, fun i k hk => ?term, fun k hk => ?din, fun k hk => ?cw, fun k hk => ?ecc, fun k hk => ?bits, rfl,
    rfl, rfl, fun i => ?plen, fun a ha => ?ignored⟩
  case x => simp only [memWrite, locate_at20_x]
  case term => simp only [memWrite, locate_at20_term i hk, setPolyTerm]
  case din => simp only [memWrite, locate_at20_din hk, extractLsb'_zero_eight]
  case cw => simp only [memWrite, locate_at20_cw hk, extractLsb'_zero_eight]
  case ecc => simp only [memWrite, locate_at20_ecc hk, extractLsb'_zero_eight]
  case bits => simp only [memWrite, locate_at20_bits hk]
  case plen => simp only [memWrite, locate_at20_plen, setPolyLen]
  case ignored =>
    rcases ha with rfl | rfl | rfl | rfl | rfl | ⟨h, h'⟩ | hgap
    · rfl
    · rfl
    · rfl
    · rfl
    · rfl
    · obtain ⟨c, r, hmat⟩ := locate_at20_mat_of_range h h'
      simp only [memWrite, hmat]
    · simp only [memWrite, locate_at20_unmapped hgap]

/-! ### Two addresses of one location (20_memory.md R64) -/

/-- The word address of a location that has one; `addressOf_locate` ties it to the map. -/
def addressOf : Location → Nat
  | .id => 0x00000
  | .cmd => 0x00001
  | .status => 0x00002
  | .ctrl => 0x00003
  | .sym => 0x00004
  | .finfo => 0x00005
  | .x i => 0x00008 + i.val
  | .dinlen => 0x00010
  | .cwlen => 0x00011
  | .ecclen => 0x00012
  | .bitlen => 0x00013
  | .matsize => 0x00014
  | .plen i => 0x00020 + i.val
  | .term i k => 0x00400 + 0x100 * i.val + k
  | .din k => 0x01000 + k
  | .cw k => 0x02000 + k
  | .ecc k => 0x03000 + k
  | .bits k => 0x08000 + k
  | .mat col row => 0x10000 + 0x100 * row + col
  | .unmapped => 0x100000

theorem ite_of {α : Type} {P : α → Prop} {p : Prop} [Decidable p] {x y : α} (hx : p → P x) (hy : P y) :
    P (if p then x else y) := by
  split
  · next h => exact hx h
  · exact hy

/-- The address is the one of the location, where that has one. -/
def AtAddress (a : Nat) : Location → Prop
  | .unmapped => True
  | l => addressOf l = a

theorem atAddress_locate (a : Addr) : AtAddress a.toNat (locate a) := by
  unfold locate
  simp only
  repeat' refine ite_of (P := AtAddress a.toNat) (fun h => ?_) ?_
  all_goals simp only [AtAddress, addressOf, Fin.val_ofNat] <;> omega

theorem addressOf_locate {a : Addr} (h : locate a ≠ .unmapped) : addressOf (locate a) = a.toNat := by
  have hat := atAddress_locate a
  cases hl : locate a with
  | unmapped => exact absurd hl h
  | _ => rw [hl] at hat; exact hat

theorem locate_injective {a b : Addr} (h : locate a ≠ .unmapped) (hab : locate a = locate b) : a = b := by
  refine BitVec.eq_of_toNat_eq ?_
  rw [← addressOf_locate h, hab, addressOf_locate (hab ▸ h)]

/-- The number of an element lies within its array (20_memory.md R64). -/
def InWindow : Location → Prop
  | .term _ k => k < 256
  | .din k => k < 4096
  | .cw k => k < 4096
  | .ecc k => k < 256
  | .bits k => k < 32768
  | _ => True

theorem inWindow_locate (a : Addr) : InWindow (locate a) := by
  unfold locate
  simp only
  repeat' refine ite_of (P := InWindow) (fun h => ?_) ?_
  all_goals simp only [InWindow] <;> omega

/-! ### No other address (20_memory.md R61) -/

/-- What a host reads at a location; `memRead_eq` ties it to the model. -/
def readAt (s : State) : Location → Word
  | .id => idWord
  | .status => statusWord s
  | .sym => symWord s.sym
  | .finfo => finfoWord s.finfo
  | .x i => s.getX i
  | .dinlen => BitVec.ofNat 32 s.dinlen
  | .cwlen => BitVec.ofNat 32 s.cwlen
  | .ecclen => BitVec.ofNat 32 s.ecclen
  | .bitlen => BitVec.ofNat 32 s.bitlen
  | .matsize => BitVec.ofNat 32 s.matsize
  | .plen i => BitVec.ofNat 32 (s.getPoly i).len
  | .term i k => Memory.read 0#32 (s.getPoly i).terms k
  | .din k => (Memory.read 0#8 s.din k).setWidth 32
  | .cw k => (Memory.read 0#8 s.cw k).setWidth 32
  | .ecc k => (Memory.read 0#8 s.ecc k).setWidth 32
  | .bits k => (BitVec.ofBool (Memory.read false s.bits k)).setWidth 32
  | .mat col row => (cellCode (matRead s.mat col row)).setWidth 32
  | .cmd | .ctrl | .unmapped => 0#32

theorem memRead_eq (s : State) (a : Addr) : memRead s a = readAt s (locate a) := by
  unfold memRead
  cases locate a <;> rfl

theorem getPoly_set (s : State) (i j : PReg) (r : PolyReg) :
    ({ s with p := s.p.set i.val r } : State).getPoly j = if j = i then r else s.getPoly j := by
  by_cases h : j = i
  · simp [h, State.getPoly]
  · have : i.val ≠ j.val := fun e => h (Fin.ext e.symm)
    simp [State.getPoly, this, h]

theorem readAt_memWrite {s : State} {a : Addr} {v : Word} {l : Location} (hctrl : locate a ≠ .ctrl) (hl : l ≠ locate a) :
    readAt (memWrite s a v) l = readAt s l := by
  cases ha : locate a with
  | ctrl => exact absurd ha hctrl
  | id | cmd | status | finfo | ecclen | matsize | mat | unmapped => simp only [memWrite, ha]
  | sym =>
    simp only [memWrite, ha, writeSym]
    split
    · cases l with
      | sym => exact absurd ha.symm hl
      | _ => rfl
    · rfl
  | x i =>
    simp only [memWrite, ha]
    cases l with
    | x j => exact (State.getX_setX s i j v).trans (if_neg fun e => hl (by rw [ha, e]))
    | _ => rfl
  | dinlen =>
    simp only [memWrite, ha]
    split
    · cases l with
      | dinlen => exact absurd ha.symm hl
      | _ => rfl
    · rfl
  | cwlen =>
    simp only [memWrite, ha]
    split
    · cases l with
      | cwlen => exact absurd ha.symm hl
      | _ => rfl
    · rfl
  | bitlen =>
    simp only [memWrite, ha]
    split
    · cases l with
      | bitlen => exact absurd ha.symm hl
      | _ => rfl
    · rfl
  | plen i =>
    simp only [memWrite, ha, setPolyLen]
    split
    · cases l with
      | plen j =>
        have hj : j ≠ i := fun e => hl (by rw [ha, e])
        simp only [readAt, getPoly_set, if_neg hj]
      | term j k => by_cases hj : j = i <;> simp [readAt, getPoly_set, hj]
      | _ => rfl
    · rfl
  | term i k =>
    simp only [memWrite, ha, setPolyTerm]
    cases l with
    | plen j => by_cases hj : j = i <;> simp [readAt, getPoly_set, hj]
    | term j m =>
      by_cases hj : j = i
      · subst hj
        have hm : m ≠ k := fun e => hl (by rw [ha, e])
        simp [readAt, getPoly_set, read_write, hm]
      · simp [readAt, getPoly_set, hj]
    | _ => rfl
  | din k =>
    simp only [memWrite, ha]
    cases l with
    | din m =>
      have hm : m ≠ k := fun e => hl (by rw [ha, e])
      simp only [readAt, read_write_other _ _ _ hm]
    | _ => rfl
  | cw k =>
    simp only [memWrite, ha]
    cases l with
    | cw m =>
      have hm : m ≠ k := fun e => hl (by rw [ha, e])
      simp only [readAt, read_write_other _ _ _ hm]
    | _ => rfl
  | ecc k =>
    simp only [memWrite, ha]
    cases l with
    | ecc m =>
      have hm : m ≠ k := fun e => hl (by rw [ha, e])
      simp only [readAt, read_write_other _ _ _ hm]
    | _ => rfl
  | bits k =>
    simp only [memWrite, ha]
    cases l with
    | bits m =>
      have hm : m ≠ k := fun e => hl (by rw [ha, e])
      simp only [readAt, read_write_other _ _ _ hm]
    | _ => rfl

/-- Settles O12: different addresses name different locations, and a write reaches its own location only; two unmapped
addresses store nothing. -/
theorem hostWriteLeavesEveryOtherAddressAlone : Obligations.HostWriteLeavesEveryOtherAddressAlone := by
  intro s a b v _ hctrl hne
  rw [memRead_eq, memRead_eq]
  by_cases h : locate b = locate a
  · have hun : locate a = .unmapped := by
      by_contra hmapped
      exact hne (locate_injective hmapped h.symm)
    simp only [memWrite, hun]
  · exact readAt_memWrite (mt locate_eq_ctrl.1 hctrl) h

/-! ### The words of `STATUS` and `FINFO` (10_state.md R36, R40) -/

/-- The bits of the word of `STATUS`, by the field they stand in. -/
theorem statusWord_getLsbD (s : State) {i : Nat} (hi : i < 32) :
    (statusWord s).getLsbD i =
      if i < 2 then (phaseCode s.phase).getLsbD i
      else if 4 ≤ i ∧ i < 8 then (errBits s.err).getLsbD (i - 4)
      else decide (i = 8) && s.fatal := by
  simp only [statusWord, BitVec.getLsbD_append]
  interval_cases i <;> simp

/-- The bits of the word of `FINFO`, by the field they stand in. -/
theorem finfoWord_getLsbD (f : Finfo) {i : Nat} (hi : i < 32) :
    (finfoWord f).getLsbD i =
      if i < 8 then f.what.getLsbD i
      else if 8 ≤ i ∧ i < 14 then f.kver.getLsbD (i - 8)
      else if 16 ≤ i ∧ i < 18 then f.klvl.getLsbD (i - 16)
      else false := by
  simp only [finfoWord, BitVec.getLsbD_append]
  interval_cases i <;> simp

/-- Settles O14: the two words bit by bit. -/
theorem statusAndFinfoFieldsStandInPlace : Obligations.StatusAndFinfoFieldsStandInPlace := by
  intro s
  refine ⟨?phase, ?err, ?fatal, ?status, ?what, ?kver, ?klvl, ?finfo⟩
  case fatal => rw [statusWord_getLsbD s (by decide)]; simp
  case status =>
    refine BitVec.eq_of_getLsbD_eq fun i hi => ?_
    rw [BitVec.getLsbD_and, statusWord_getLsbD s hi]
    interval_cases i <;> simp
  case finfo =>
    refine BitVec.eq_of_getLsbD_eq fun i hi => ?_
    rw [BitVec.getLsbD_and, finfoWord_getLsbD _ hi]
    interval_cases i <;> simp
  case phase | err =>
    refine BitVec.eq_of_getLsbD_eq fun i hi => ?_
    rw [BitVec.getLsbD_extractLsb', statusWord_getLsbD s (by omega)]
    interval_cases i <;> simp
  case what | kver | klvl =>
    refine BitVec.eq_of_getLsbD_eq fun i hi => ?_
    rw [BitVec.getLsbD_extractLsb', finfoWord_getLsbD _ (by omega)]
    interval_cases i <;> simp

end Sys2Proof.Proofs

/-! Proofs for 10_state.md section 9 and 20_memory.md R65: which registers, buffers and parts of the symbol a command can
write, and that a finished symbol stays (47_data_placement.md R223). -/

namespace Sys2Proof.Proofs

open Sys2Proof Sys2Proof.Machine Sys2Proof.Laws Sys2Proof.Claims

/-! ### Reading past what was spliced in (20_memory.md R65) -/

theorem read_splice_of_ge {α : Type} [DecidableEq α] (d : α) (m : Memory α) {vs : List α} {k : Nat} (h : vs.length ≤ k) :
    Memory.read d (Memory.splice d m 0 vs) k = Memory.read d m k := by
  rw [read_splice, if_neg (by omega)]

/-! ### A frame of the writes is a frame of the command -/

/-- What the writes of a rule keep, and the report does not touch, the command keeps. -/
theorem exec_keeps {P : State → State → Prop} {i : Instr} {s t : State} (hrefl : P s s)
    (hreport : ∀ u e, P s u → P s (failedAs u e))
    (hwrites : ∀ u, Writes i s u → P s u) (h : exec i s = .next t) : P s t := by
  rcases exec_cases h with rfl | ⟨u, hu, rfl⟩ | ⟨e, rfl⟩
  · exact hrefl
  · exact hreport u u.complete (hwrites u hu)
  · exact hreport s (s.report e) hrefl

/-! ### Registers (10_state.md R22, R24, R48) -/

structure KeepsOtherRegisters (i : Instr) (s t : State) : Prop where
  x : ∀ r, destX i ≠ some r → t.getX r = s.getX r
  p : ∀ q, destP i ≠ some q → t.getPoly q = s.getPoly q
  terms : ∀ q, ∀ k ≥ (t.getPoly q).len,
    Memory.read 0#32 (t.getPoly q).terms k = Memory.read 0#32 (s.getPoly q).terms k

theorem keepsOtherRegisters_of_eq {i : Instr} {s t : State} (hx : t.x = s.x) (hp : t.p = s.p) :
    KeepsOtherRegisters i s t := by
  have hpoly : ∀ q, t.getPoly q = s.getPoly q := fun q => by simp only [State.getPoly, hp]
  exact ⟨fun r _ => by simp only [State.getX, hx], fun q _ => hpoly q, fun q k _ => by rw [hpoly]⟩

theorem keepsOtherRegisters_setX {i : Instr} {rd : XReg} (hd : destX i = some rd) (s : State) (v : Word) :
    KeepsOtherRegisters i s (s.setX rd v) :=
  ⟨fun r hr => by rw [State.getX_setX, if_neg]; rintro rfl; exact hr hd, fun _ _ => rfl, fun _ _ _ => rfl⟩

theorem keepsOtherRegisters_setPoly {i : Instr} {pd : PReg} (hd : destP i = some pd) (s : State) (ts : List Term) :
    KeepsOtherRegisters i s (s.setPoly pd ts) := by
  refine ⟨fun _ _ => rfl, fun q hq => ?_, fun q k hk => ?_⟩
  · rw [State.getPoly_setPoly, if_neg]
    rintro rfl
    exact hq hd
  · rw [State.getPoly_setPoly] at hk ⊢
    split at hk
    · next hq =>
      subst hq
      rw [if_pos rfl]
      exact read_splice_of_ge _ _ (by simpa using hk)
    · next hq => rw [if_neg hq]

theorem Writes.keepsOtherRegisters {i : Instr} {s u : State} (h : Writes i s u) : KeepsOtherRegisters i s u := by
  cases i with
  | gfexp | gflog | bchfmt | bchver | maskb => obtain ⟨v, rfl⟩ := h; exact keepsOtherRegisters_setX rfl s v
  | pmul | pmulm | rsgen => obtain ⟨ts, rfl⟩ := h; exact keepsOtherRegisters_setPoly rfl s ts
  | rsdiv | masm | mint => obtain ⟨vs, rfl⟩ := h; exact keepsOtherRegisters_of_eq rfl rfl
  | msel => obtain ⟨-, v, l, rfl⟩ := h; exact keepsOtherRegisters_of_eq rfl rfl
  | menc => obtain ⟨-, v, l, vs, bs, rfl⟩ := h; exact keepsOtherRegisters_of_eq rfl rfl
  | mpat | mrender => obtain ⟨-, m, n, rfl⟩ := h; exact keepsOtherRegisters_of_eq rfl rfl
  | mdata | mmargin => obtain ⟨-, m, rfl⟩ := h; exact keepsOtherRegisters_of_eq rfl rfl
  | qrenc => obtain ⟨-, v, l, vs, bs, m, n, rfl⟩ := h; exact keepsOtherRegisters_of_eq rfl rfl

/-- Settles O53: the writes of each rule name one destination at most, and the report is no register. -/
theorem commandsWriteOnlyTheRegistersTheyName : Obligations.CommandsWriteOnlyTheRegistersTheyName := by
  intro i s t h
  obtain ⟨hx, hp, hterms⟩ := exec_keeps (P := KeepsOtherRegisters i) (keepsOtherRegisters_of_eq rfl rfl)
    (fun u e hu => ⟨hu.x, hu.p, hu.terms⟩) (fun u => Writes.keepsOtherRegisters) h
  exact ⟨hx, hp, hterms⟩

/-! ### Buffers (10_state.md R41 to R44, R48) -/

structure KeepsOtherBuffers (i : Instr) (s t : State) : Prop where
  cw : writesCw i = false → t.cw = s.cw ∧ t.cwlen = s.cwlen
  bits : writesBits i = false → t.bits = s.bits ∧ t.bitlen = s.bitlen
  ecc : writesEcc i = false → t.ecc = s.ecc ∧ t.ecclen = s.ecclen
  cwTail : ∀ k ≥ t.cwlen, Memory.read 0#8 t.cw k = Memory.read 0#8 s.cw k
  bitsTail : ∀ k ≥ t.bitlen, Memory.read false t.bits k = Memory.read false s.bits k
  eccTail : ∀ k ≥ t.ecclen, Memory.read 0#8 t.ecc k = Memory.read 0#8 s.ecc k

theorem keepsOtherBuffers_of_eq {i : Instr} {s t : State} (hcw : t.cw = s.cw ∧ t.cwlen = s.cwlen)
    (hbits : t.bits = s.bits ∧ t.bitlen = s.bitlen) (hecc : t.ecc = s.ecc ∧ t.ecclen = s.ecclen) :
    KeepsOtherBuffers i s t :=
  ⟨fun _ => hcw, fun _ => hbits, fun _ => hecc, fun _ _ => by rw [hcw.1], fun _ _ => by rw [hbits.1],
    fun _ _ => by rw [hecc.1]⟩

theorem KeepsOtherBuffers.setCw {i : Instr} {s t : State} (h : KeepsOtherBuffers i s t) (hi : writesCw i = true)
    (hcw : t.cw = s.cw) (vs : List Byte) : KeepsOtherBuffers i s (t.setCw vs) :=
  ⟨fun hno => absurd (hi.symm.trans hno) (by decide), h.bits, h.ecc,
    fun k hk => by rw [State.setCw_cw, hcw]; exact read_splice_of_ge _ _ hk, h.bitsTail, h.eccTail⟩

theorem KeepsOtherBuffers.setBits {i : Instr} {s t : State} (h : KeepsOtherBuffers i s t) (hi : writesBits i = true)
    (hbits : t.bits = s.bits) (vs : List Bool) : KeepsOtherBuffers i s (t.setBits vs) :=
  ⟨h.cw, fun hno => absurd (hi.symm.trans hno) (by decide), h.ecc, h.cwTail,
    fun k hk => by rw [State.setBits_bits, hbits]; exact read_splice_of_ge _ _ hk, h.eccTail⟩

theorem KeepsOtherBuffers.setEcc {i : Instr} {s t : State} (h : KeepsOtherBuffers i s t) (hi : writesEcc i = true)
    (hecc : t.ecc = s.ecc) (vs : List Byte) : KeepsOtherBuffers i s (t.setEcc vs) :=
  ⟨h.cw, h.bits, fun hno => absurd (hi.symm.trans hno) (by decide), h.cwTail, h.bitsTail,
    fun k hk => by rw [State.setEcc_ecc, hecc]; exact read_splice_of_ge _ _ hk⟩

theorem Writes.keepsOtherBuffers {i : Instr} {s u : State} (h : Writes i s u) : KeepsOtherBuffers i s u := by
  have hs : KeepsOtherBuffers i s s := keepsOtherBuffers_of_eq ⟨rfl, rfl⟩ ⟨rfl, rfl⟩ ⟨rfl, rfl⟩
  have hsel : ∀ v l, KeepsOtherBuffers i s (s.setVersionLevel v l) :=
    fun _ _ => keepsOtherBuffers_of_eq ⟨rfl, rfl⟩ ⟨rfl, rfl⟩ ⟨rfl, rfl⟩
  cases i with
  | gfexp | gflog | bchfmt | bchver | maskb =>
    obtain ⟨v, rfl⟩ := h
    exact keepsOtherBuffers_of_eq ⟨rfl, rfl⟩ ⟨rfl, rfl⟩ ⟨rfl, rfl⟩
  | pmul | pmulm | rsgen =>
    obtain ⟨ts, rfl⟩ := h
    exact keepsOtherBuffers_of_eq ⟨rfl, rfl⟩ ⟨rfl, rfl⟩ ⟨rfl, rfl⟩
  | rsdiv => obtain ⟨vs, rfl⟩ := h; exact hs.setEcc rfl rfl vs
  | masm => obtain ⟨vs, rfl⟩ := h; exact hs.setCw rfl rfl vs
  | mint => obtain ⟨bs, rfl⟩ := h; exact hs.setBits rfl rfl bs
  | msel => obtain ⟨-, v, l, rfl⟩ := h; exact hsel v l
  | menc => obtain ⟨-, v, l, vs, bs, rfl⟩ := h; exact ((hsel v l).setCw rfl rfl vs).setBits rfl rfl bs
  | mpat | mrender =>
    obtain ⟨-, m, n, rfl⟩ := h
    exact keepsOtherBuffers_of_eq ⟨rfl, rfl⟩ ⟨rfl, rfl⟩ ⟨rfl, rfl⟩
  | mdata | mmargin =>
    obtain ⟨-, m, rfl⟩ := h
    exact keepsOtherBuffers_of_eq ⟨rfl, rfl⟩ ⟨rfl, rfl⟩ ⟨rfl, rfl⟩
  | qrenc =>
    obtain ⟨-, v, l, vs, bs, m, n, rfl⟩ := h
    obtain ⟨hcw, hbits, hecc, hcwt, hbitst, hecct⟩ := ((hsel v l).setCw rfl rfl vs).setBits rfl rfl bs
    exact ⟨hcw, hbits, hecc, hcwt, hbitst, hecct⟩

/-- `DIN` is in the frame of every command's writes. -/
theorem exec_din {i : Instr} {s t : State} (h : exec i s = .next t) : t.din = s.din ∧ t.dinlen = s.dinlen :=
  exec_keeps (P := fun s t => t.din = s.din ∧ t.dinlen = s.dinlen) ⟨rfl, rfl⟩ (fun _ _ hu => hu)
    (fun _ hu => ⟨hu.frame.din, hu.frame.dinlen⟩) h

/-- Settles O54: a rule's writes are the `set` operations of the buffers it names, which keep what lies past the length. -/
theorem commandsWriteOnlyTheBuffersTheirRulesName : Obligations.CommandsWriteOnlyTheBuffersTheirRulesName := by
  intro i s t h
  obtain ⟨hdin, hdinlen⟩ := exec_din h
  obtain ⟨hcw, hbits, hecc, hcwt, hbitst, hecct⟩ := exec_keeps (P := KeepsOtherBuffers i)
    (keepsOtherBuffers_of_eq ⟨rfl, rfl⟩ ⟨rfl, rfl⟩ ⟨rfl, rfl⟩)
    (fun u e hu => ⟨hu.cw, hu.bits, hu.ecc, hu.cwTail, hu.bitsTail, hu.eccTail⟩) (fun u => Writes.keepsOtherBuffers) h
  exact ⟨hdin, hdinlen, hcw, hbits, hecc, hcwt, hbitst, hecct⟩

/-! ### `SYM` and the matrix (10_state.md R33 to R37, R46) -/

structure KeepsSymbol (i : Instr) (s t : State) : Prop where
  sym : writesSym i = false → t.sym = s.sym
  matrix : writesMatrix i = false → t.mat = s.mat ∧ t.matsize = s.matsize ∧ t.phase = s.phase
  mask : t.sym.mask = s.sym.mask
  pending : t.pending = s.pending
  replies : t.replies = s.replies

theorem Writes.keepsSymbol {i : Instr} {s u : State} (h : Writes i s u) : KeepsSymbol i s u := by
  obtain ⟨-, -, -, hmask, hpending, hreplies⟩ := h.frame
  refine ⟨fun hi => ?sym, fun hi => ?matrix, hmask, hpending, hreplies⟩
  case sym =>
    cases i with
    | msel | menc | qrenc => cases hi
    | gfexp | gflog | bchfmt | bchver | maskb => obtain ⟨v, rfl⟩ := h; rfl
    | pmul | pmulm | rsgen => obtain ⟨ts, rfl⟩ := h; rfl
    | rsdiv | masm | mint => obtain ⟨vs, rfl⟩ := h; rfl
    | mpat | mrender => obtain ⟨-, m, n, rfl⟩ := h; rfl
    | mdata | mmargin => obtain ⟨-, m, rfl⟩ := h; rfl
  case matrix =>
    cases i with
    | mpat | mrender | mdata | mmargin | qrenc => cases hi
    | gfexp | gflog | bchfmt | bchver | maskb => obtain ⟨v, rfl⟩ := h; exact ⟨rfl, rfl, rfl⟩
    | pmul | pmulm | rsgen => obtain ⟨ts, rfl⟩ := h; exact ⟨rfl, rfl, rfl⟩
    | rsdiv | masm | mint => obtain ⟨vs, rfl⟩ := h; exact ⟨rfl, rfl, rfl⟩
    | msel => obtain ⟨-, v, l, rfl⟩ := h; exact ⟨rfl, rfl, rfl⟩
    | menc => obtain ⟨-, v, l, vs, bs, rfl⟩ := h; exact ⟨rfl, rfl, rfl⟩

/-- Settles O55: no rule's writes but those of the selecting commands are of `SYM`, none but those of the render commands of
the matrix. -/
theorem commandsWriteSymAndMatrixOnlyWhereTheirRulesSay :
    Obligations.CommandsWriteSymAndMatrixOnlyWhereTheirRulesSay := by
  intro i s t h
  obtain ⟨hsym, hmatrix, hmask, hpending, hreplies⟩ := exec_keeps (P := KeepsSymbol i)
    ⟨fun _ => rfl, fun _ => ⟨rfl, rfl, rfl⟩, rfl, rfl, rfl⟩
    (fun u e hu => ⟨hu.sym, hu.matrix, hu.mask, hu.pending, hu.replies⟩) (fun u => Writes.keepsSymbol) h
  exact ⟨hsym, hmask, hmatrix, hpending, hreplies⟩

/-- The commands that write `SYM`, the matrix or the phase each need a phase before `MarginApplied`. -/
theorem Writes.of_marginApplied {i : Instr} {s u : State} (h : Writes i s u) (hp : s.phase = .marginApplied) :
    writesSym i = false ∧ writesMatrix i = false := by
  have hphase : ∀ ph, ph ≠ .marginApplied → s.phase ≠ ph := fun ph hne he => hne (he.symm.trans hp)
  cases i with
  | msel | menc | mpat | mrender | qrenc => exact absurd h.1 (hphase _ (by decide))
  | mdata => exact absurd h.1 (hphase _ (by decide))
  | mmargin => exact absurd h.1 (hphase _ (by decide))
  | gfexp | gflog | bchfmt | bchver | maskb | pmul | pmulm | rsgen | rsdiv | masm | mint => exact ⟨rfl, rfl⟩

/-- Settles O52: in phase `MarginApplied` a command that completes is none of those that write the symbol. -/
theorem finishedSymbolIsNeverMutated : Obligations.FinishedSymbolIsNeverMutated := by
  intro i s t hp h
  refine exec_keeps (P := fun s t => t.mat = s.mat ∧ t.matsize = s.matsize ∧ t.sym = s.sym ∧ t.phase = s.phase)
    ⟨rfl, rfl, rfl, rfl⟩ (fun u e hu => hu) (fun u hu => ?_) h
  obtain ⟨hsym, hmatrix⟩ := hu.of_marginApplied hp
  obtain ⟨hmat, hsize, hphase⟩ := hu.keepsSymbol.matrix hmatrix
  exact ⟨hmat, hsize, hu.keepsSymbol.sym hsym, hphase⟩

end Sys2Proof.Proofs

/-! Proofs for 40_field_arithmetic.md R132, R136, 41_polynomial_engine.md R146 and 42_generator_builder.md R150, R152: the
group that `gfexp` runs through, polynomial registers read back, and the generator polynomial with its roots. -/

namespace Sys2Proof.Proofs

open Sys2Proof Sys2Proof.Machine Sys2Proof.Claims
open Sys2Proof.Laws hiding Descending

/-! ### The powers of the generator (40_field_arithmetic.md R132, R136) -/

theorem gfexp_ne_zero_of_lt : ∀ e < 255, gfexp e ≠ 0#8 := by decide +kernel

theorem gfexp_ne_zero (e : Nat) : gfexp e ≠ 0#8 := by
  rw [← gfexp_mod_255]
  exact gfexp_ne_zero_of_lt _ (Nat.mod_lt e (by decide))

/-- Settles O17: `gflog` inverts `gfexp` on a period and on the non-zero bytes. -/
theorem exponentiationGeneratesTheGroup : Obligations.ExponentiationGeneratesTheGroup := by
  refine ⟨gfexp_zero, fun e => ?period, gfexp_ne_zero, fun e f he hf h => ?injective, fun v hv => ?onto⟩
  case period => rw [← gfexp_mod_255, Nat.add_mod_right, gfexp_mod_255]
  case injective =>
    have hlog := congrArg gflog h
    rwa [gflog_gfexp, gflog_gfexp, Nat.mod_eq_of_lt he, Nat.mod_eq_of_lt hf] at hlog
  case onto => exact ⟨gflog v, Nat.lt_succ_of_le (gflog_le_254 v), gfexp_gflog v hv⟩

/-- Settles O19: the product by logs is the product of polynomials, and the log form of 0 is that of 1. -/
theorem addingLogsMultipliesInTheField : Obligations.AddingLogsMultipliesInTheField := by
  refine ⟨fun a b ha hb => ?_, fun b hb => ?_⟩
  · rw [Nat.add_comm, gfexp_gflog_add_gflog hb ha]
  · rw [gflog_zero, Nat.zero_add, gfexp_gflog b hb]

theorem fieldProduct_comm (a b : Byte) : fieldProduct a b = fieldProduct b a := by
  by_cases ha : a = 0#8
  · rw [ha, fieldProduct_zero_left, fieldProduct_zero_right]
  · by_cases hb : b = 0#8
    · rw [hb, fieldProduct_zero_left, fieldProduct_zero_right]
    · rw [← gfexp_gflog_add_gflog hb ha, Nat.add_comm, gfexp_gflog_add_gflog ha hb]

/-! ### Polynomial registers (41_polynomial_engine.md R146, 10_state.md R25) -/

theorem toNat_toWord {t : Term} (hxe : t.xe ≤ 65535) (hlg : t.lg ≤ 255) :
    t.toWord.toNat = t.xe * 65536 + t.lg * 256 + t.fv.toNat := by
  rw [Term.toWord, BitVec.toNat_append, BitVec.toNat_append, ← Nat.shiftLeft_add_eq_or_of_lt (BitVec.isLt _),
    ← Nat.shiftLeft_add_eq_or_of_lt (BitVec.isLt _)]
  simp only [BitVec.toNat_ofNat, Nat.shiftLeft_eq]
  omega

theorem ofWord_toWord {t : Term} (hxe : t.xe ≤ 65535) (hlg : t.lg ≤ 255) : Term.ofWord t.toWord = t := by
  have hword := toNat_toWord hxe hlg
  have hfv := t.fv.isLt
  obtain ⟨xe, lg, fv⟩ := t
  simp only at hword hfv hxe hlg
  simp only [Term.ofWord, Term.mk.injEq]
  refine ⟨?_, ?_, BitVec.eq_of_toNat_eq ?_⟩ <;> rw [BitVec.extractLsb'_toNat, hword, Nat.shiftRight_eq_div_pow] <;> omega

theorem poly_setPoly_same {ts : List Term} (h : ∀ t ∈ ts, t.xe ≤ 65535 ∧ t.lg ≤ 255) (s : State) (i : PReg) :
    (s.setPoly i ts).poly i = ts := by
  have hslice := slice_splice_self 0#32 (s.getPoly i).terms 0 (ts.map Term.toWord)
  rw [List.length_map] at hslice
  rw [State.poly, State.getPoly_setPoly, if_pos rfl, PolyReg.value, hslice, List.map_map]
  exact (List.map_congr_left fun t ht => ofWord_toWord (h t ht).1 (h t ht).2).trans (List.map_id ts)

/-- Settles O22: the spliced words read back as the terms, the splice ends at the new length, and no other register is
written. -/
theorem polynomialRegisterReadsBackItsTerms : Obligations.PolynomialRegisterReadsBackItsTerms := by
  intro s i j ts h
  refine ⟨poly_setPoly_same h s i, fun hj => ?other, fun k hk => ?tail⟩
  case other => rw [State.poly, State.poly, State.getPoly_setPoly, if_neg hj]
  case tail =>
    rw [State.getPoly_setPoly, if_pos rfl]
    exact read_splice_of_ge _ _ (by simpa using hk)

/-! ### The constant term of the generator polynomial (42_generator_builder.md R152) -/

theorem rootProductCoefficient_zero (n : Nat) : rootProductCoefficient n 0 = gfexp (n * (n - 1) / 2) := by
  induction n with
  | zero => rw [rootProductCoefficient, ← gfexp_zero]
  | succ n ih =>
    have hpow := fieldProduct_gfexp_add n (n * (n - 1) / 2) 1#8
    rw [fieldProduct_one_right, fieldProduct_one_right] at hpow
    rw [rootProductCoefficient, ih, hpow, Nat.triangle_succ, Nat.add_comm]

theorem generatorPolynomial_eq_map {n : Nat} (h : 1 ≤ n) (hn : n ≤ 254) : generatorPolynomial n =
    (List.range (n + 1)).reverse.map fun j =>
      { xe := j, lg := gflog (rootProductCoefficient n j), fv := rootProductCoefficient n j } := by
  rw [generatorPolynomial_eq h hn, denseTerms_eq_map]

/-- Settles O24: the terms are those of the product of the factors, whose coefficients are known. -/
theorem generatorPolynomialIsMonicAndDense : Obligations.GeneratorPolynomialIsMonicAndDense := by
  intro n h hn
  refine ⟨xe_generatorPolynomial h, fun t ht => fv_lg_of_mem_generatorPolynomial h hn ht, ?leading, ?constant⟩
  case leading =>
    rw [generatorPolynomial_eq h hn, denseTerms, List.head?_cons, rootProductCoefficient_self, gflog_one]
  case constant =>
    rw [generatorPolynomial_eq_map h hn, List.getLast?_map, List.getLast?_reverse, List.head?_range]
    simp [rootProductCoefficient_zero, gflog_gfexp]

/-! ### One more factor (42_generator_builder.md R150) -/

theorem getD_generatorCoefficients {n : Nat} (h : 1 ≤ n) (hn : n ≤ 254) (p : Nat) :
    (generatorCoefficients n).getD p 0#8 = if p ≤ n then rootProductCoefficient n (n - p) else 0#8 := by
  rw [generatorCoefficients, generatorPolynomial_eq_map h hn, List.map_map]
  split
  · next hp => simp [List.getD_eq_getElem?_getD, hp]
  · next hp => rw [List.getD_eq_default _ _ (by simpa using Nat.lt_of_not_le hp)]

theorem convolutionAt_factor (q : List Byte) (x : Byte) (p : Nat) :
    convolutionAt q [1#8, x] p =
      q.getD p 0#8 ^^^ (if p = 0 then 0#8 else fieldProduct (q.getD (p - 1) 0#8) x) := by
  induction q generalizing p with
  | nil => simp [convolutionAt_nil]
  | cons b q ih =>
    cases p with
    | zero => simp [convolutionAt_cons_zero]
    | succ p =>
      rw [convolutionAt_cons_succ, ih]
      cases p <;> simp [BitVec.xor_comm]

theorem generatorCoefficients_succ {n : Nat} (h : 1 ≤ n) (hn : n ≤ 253) {p : Nat} (hp : p ≤ n + 1) :
    (generatorCoefficients (n + 1)).getD p 0#8 = convolutionAt (generatorCoefficients n) [1#8, gfexp n] p := by
  rw [convolutionAt_factor, getD_generatorCoefficients (by omega) (by omega), getD_generatorCoefficients h (by omega),
    getD_generatorCoefficients h (by omega), if_pos hp, fieldProduct_comm]
  obtain rfl | rfl | ⟨j, k, rfl, rfl⟩ : p = 0 ∨ p = n + 1 ∨ ∃ j k, n = j + (k + 1) ∧ p = k + 1 := by
    by_cases h0 : p = 0
    · exact .inl h0
    · by_cases hlast : p = n + 1
      · exact .inr (.inl hlast)
      · exact .inr (.inr ⟨n - p, p - 1, by omega, by omega⟩)
  · simp [rootProductCoefficient_self]
  · simp [rootProductCoefficient]
  · have hsub : j + (k + 1) + 1 - (k + 1) = j + 1 := by omega
    have hsub' : j + (k + 1) - (k + 1 - 1) = j + 1 := by omega
    rw [if_pos (by omega), if_neg (Nat.succ_ne_zero k), if_pos (by omega), hsub, hsub', Nat.add_sub_cancel,
      rootProductCoefficient]

/-! ### The roots (42_generator_builder.md R152) -/

/-- The exclusive or of `f 0`, ..., `f (m-1)`. -/
def xorBelow (f : Nat → Byte) : Nat → Byte
  | 0 => 0#8
  | m + 1 => f m ^^^ xorBelow f m

theorem foldl_xor_reverse_range (f : Nat → Byte) (m : Nat) :
    ((List.range m).reverse.map f).foldl (· ^^^ ·) 0#8 = xorBelow f m := by
  rw [List.foldl_map]
  induction m with
  | zero => rfl
  | succ m ih =>
    rw [List.range_succ, List.reverse_append, List.reverse_singleton, List.singleton_append, List.foldl_cons,
      foldl_xor_init, ih, BitVec.zero_xor, xorBelow]

theorem xorBelow_xor (f g : Nat → Byte) (m : Nat) : xorBelow (fun j => f j ^^^ g j) m = xorBelow f m ^^^ xorBelow g m := by
  induction m with
  | zero => exact (BitVec.xor_zero).symm
  | succ m ih =>
    simp only [xorBelow, ih]
    ac_rfl

theorem xorBelow_fieldProduct (a : Byte) (f : Nat → Byte) (m : Nat) :
    xorBelow (fun j => fieldProduct a (f j)) m = fieldProduct a (xorBelow f m) := by
  induction m with
  | zero => rw [xorBelow, xorBelow, fieldProduct_zero_right]
  | succ m ih => rw [xorBelow, xorBelow, ih, fieldProduct_xor_right]

theorem xorBelow_succ_left (f : Nat → Byte) (m : Nat) : xorBelow f (m + 1) = f 0 ^^^ xorBelow (fun j => f (j + 1)) m := by
  induction m with
  | zero => rfl
  | succ m ih =>
    rw [xorBelow, ih, xorBelow]
    ac_rfl

theorem xorBelow_congr {f g : Nat → Byte} {m : Nat} (h : ∀ j < m, f j = g j) : xorBelow f m = xorBelow g m := by
  induction m with
  | zero => rfl
  | succ m ih => rw [xorBelow, xorBelow, h m (Nat.lt_succ_self m), ih fun j hj => h j (Nat.lt_succ_of_lt hj)]

/-- The term of `x^j` in the product of `n` factors, at `α^i`. -/
def rootTerm (n i j : Nat) : Byte := fieldProduct (gfexp (i * j)) (rootProductCoefficient n j)

/-- The product of `n` factors at `α^i`. -/
def rootProductAt (n i : Nat) : Byte := xorBelow (rootTerm n i) (n + 1)

theorem rootTerm_succ_zero (n i : Nat) : rootTerm (n + 1) i 0 = fieldProduct (gfexp n) (rootTerm n i 0) := by
  rw [rootTerm, rootTerm, rootProductCoefficient, fieldProduct_gfexp_add, fieldProduct_gfexp_add, Nat.add_comm]

theorem rootTerm_succ_succ (n i j : Nat) : rootTerm (n + 1) i (j + 1) =
    fieldProduct (gfexp i) (rootTerm n i j) ^^^ fieldProduct (gfexp n) (rootTerm n i (j + 1)) := by
  rw [rootTerm, rootTerm, rootTerm, rootProductCoefficient, fieldProduct_xor_right, fieldProduct_gfexp_add,
    fieldProduct_gfexp_add, fieldProduct_gfexp_add, Nat.mul_succ, Nat.add_comm (i * j), Nat.add_comm n]

theorem rootTerm_past_leading (n i : Nat) : rootTerm n i (n + 1) = 0#8 := by
  rw [rootTerm, rootProductCoefficient_of_lt (Nat.lt_succ_self n), fieldProduct_zero_right]

/-- One more factor multiplies by `α^i + α^n`. -/
theorem rootProductAt_succ (n i : Nat) : rootProductAt (n + 1) i =
    fieldProduct (gfexp i) (rootProductAt n i) ^^^ fieldProduct (gfexp n) (rootProductAt n i) := by
  have hpast : xorBelow (rootTerm n i) (n + 1 + 1) = rootProductAt n i := by
    rw [xorBelow, rootTerm_past_leading, BitVec.zero_xor, rootProductAt]
  calc rootProductAt (n + 1) i
    _ = fieldProduct (gfexp n) (rootTerm n i 0) ^^^ (fieldProduct (gfexp i) (rootProductAt n i) ^^^
          xorBelow (fun j => fieldProduct (gfexp n) (rootTerm n i (j + 1))) (n + 1)) := by
        rw [rootProductAt, xorBelow_succ_left, rootTerm_succ_zero, xorBelow_congr fun j _ => rootTerm_succ_succ n i j,
          xorBelow_xor, xorBelow_fieldProduct, rootProductAt]
    _ = fieldProduct (gfexp i) (rootProductAt n i) ^^^ (fieldProduct (gfexp n) (rootTerm n i 0) ^^^
          xorBelow (fun j => fieldProduct (gfexp n) (rootTerm n i (j + 1))) (n + 1)) := by ac_rfl
    _ = fieldProduct (gfexp i) (rootProductAt n i) ^^^ fieldProduct (gfexp n) (rootProductAt n i) := by
        rw [← xorBelow_succ_left fun j => fieldProduct (gfexp n) (rootTerm n i j), xorBelow_fieldProduct, hpast]

theorem rootProductAt_eq_zero {n i : Nat} (h : i < n) : rootProductAt n i = 0#8 := by
  induction n with
  | zero => exact absurd h (Nat.not_lt_zero i)
  | succ n ih =>
    rw [rootProductAt_succ]
    obtain hlt | rfl := Nat.lt_succ_iff_lt_or_eq.1 h
    · rw [ih hlt, fieldProduct_zero_right, fieldProduct_zero_right, BitVec.xor_zero]
    · rw [BitVec.xor_self]

theorem valueAtPower_generatorPolynomial {n : Nat} (h : 1 ≤ n) (hn : n ≤ 254) (i : Nat) :
    valueAtPower (generatorPolynomial n) i = rootProductAt n i := by
  rw [valueAtPower, generatorPolynomial_eq h hn, denseTerms_eq_map, List.map_map, foldl_xor_reverse_range]
  exact xorBelow_congr fun j hj => gfexp_gflog_add (rootProductCoefficient_ne_zero (Nat.le_of_lt_succ hj) hn) _

/-- Settles O25: the coefficients' recursion is the product with one factor, and each factor has its root. -/
theorem generatorPolynomialHasTheRoots : Obligations.GeneratorPolynomialHasTheRoots := by
  refine ⟨by decide +kernel, fun n h hn p hp => generatorCoefficients_succ h hn hp, fun n h hn i hi => ?_⟩
  rw [valueAtPower_generatorPolynomial h hn, rootProductAt_eq_zero hi]

end Sys2Proof.Proofs

/-! Proofs for 43_rs_encoder.md R161 and 45_bch_metadata.md R186 to R190: `divide` is linear; the format and version strings
and what `BCHFMT` and `BCHVER` write. -/

namespace Sys2Proof.Proofs

open Sys2Proof Sys2Proof.Machine Sys2Proof.Claims
open Sys2Proof.Laws hiding Descending

/-! ### The remainder without the count of passes (43_rs_encoder.md R157) -/

/-- The remainder of a list of `k + r` coefficients by the generator of degree `r`, one coefficient at a time;
`dividePasses_eq_remainderOf` ties it to the model. -/
def remainderOf (r : Nat) : Nat → List Byte → List Byte
  | 0, w => w
  | _ + 1, [] => []
  | k + 1, b :: rest => remainderOf r k (xorLeading ((generatorCoefficients r).tail.map (fieldProduct b)) rest)

theorem dividePasses_eq_remainderOf {r k n : Nat} (h : 1 ≤ r) (hr : r ≤ 254) {w : List Byte} (hw : w.length = k + r)
    (hn : k < n) : dividePasses (generatorPolynomial r) r n w = remainderOf r k w := by
  induction k generalizing n w with
  | zero => exact dividePasses_of_length_le (hw.le.trans (Nat.zero_add r).le) _ n
  | succ k ih =>
    obtain ⟨b, rest, rfl⟩ := List.exists_cons_of_length_eq_add_one (hw.trans (Nat.add_right_comm k 1 r))
    have hrest : rest.length = k + r := by rw [List.length_cons] at hw; omega
    obtain ⟨m, hm, hpass⟩ := dividePasses_cons h hr b (hrest ▸ Nat.le_add_left r k) hn
    have hlen : ((generatorCoefficients r).tail.map (fieldProduct b)).length ≤ rest.length := by
      rw [List.length_map, length_tail_generatorCoefficients h, hrest]
      exact Nat.le_add_left r k
    rw [hpass, ih ((length_xorLeading hlen).trans hrest) hm, remainderOf]

theorem divide_eq_remainderOf {r : Nat} (h : 1 ≤ r) (hr : r ≤ 254) (msg : List Byte) :
    divide config msg r = remainderOf r msg.length (msg ++ List.replicate r 0#8) := by
  rw [divide_config h hr, dividePasses_eq_remainderOf h hr (by simp) (Nat.lt_succ_self _)]

theorem remainderOf_zero_cons {r k : Nat} (h : 1 ≤ r) {rest : List Byte} (hrest : rest.length = k + r) :
    remainderOf r (k + 1) (0#8 :: rest) = remainderOf r k rest := by
  rw [remainderOf, xorLeading_map_fieldProduct_zero]
  rw [length_tail_generatorCoefficients h, hrest]
  exact Nat.le_add_left r k

theorem remainderOf_replicate {r : Nat} (h : 1 ≤ r) (k : Nat) :
    remainderOf r k (List.replicate (k + r) 0#8) = List.replicate r 0#8 := by
  induction k with
  | zero => rw [remainderOf, Nat.zero_add]
  | succ k ih => rw [Nat.add_right_comm, List.replicate_succ, remainderOf_zero_cons h (List.length_replicate ..), ih]

/-! ### Linearity (43_rs_encoder.md R161) -/

/-- The exclusive or of two lists of bytes, place by place. -/
abbrev xorLists (a b : List Byte) : List Byte := List.zipWith (· ^^^ ·) a b

theorem xorLeading_xorLists (fs : List Byte) (a b : Byte) {v w : List Byte} (h : v.length = w.length) :
    xorLeading (fs.map (fieldProduct (a ^^^ b))) (xorLists v w) =
      xorLists (xorLeading (fs.map (fieldProduct a)) v) (xorLeading (fs.map (fieldProduct b)) w) := by
  induction fs generalizing v w with
  | nil => simp [xorLeading]
  | cons f fs ih =>
    cases v with
    | nil => obtain rfl := List.length_eq_zero_iff.1 h.symm; rfl
    | cons x v =>
      obtain ⟨y, w, rfl⟩ := List.exists_cons_of_length_eq_add_one h.symm
      have hhead : x ^^^ y ^^^ (fieldProduct a f ^^^ fieldProduct b f) =
          x ^^^ fieldProduct a f ^^^ (y ^^^ fieldProduct b f) := by ac_rfl
      simp [xorLeading, ih (Nat.succ.inj h), fieldProduct_xor_left, hhead]

theorem remainderOf_xorLists {r k : Nat} (h : 1 ≤ r) {v w : List Byte} (hv : v.length = k + r) (hw : w.length = k + r) :
    remainderOf r k (xorLists v w) = xorLists (remainderOf r k v) (remainderOf r k w) := by
  induction k generalizing v w with
  | zero => simp only [remainderOf]
  | succ k ih =>
    obtain ⟨x, v, rfl⟩ := List.exists_cons_of_length_eq_add_one (hv.trans (Nat.add_right_comm k 1 r))
    obtain ⟨y, w, rfl⟩ := List.exists_cons_of_length_eq_add_one (hw.trans (Nat.add_right_comm k 1 r))
    rw [List.length_cons] at hv hw
    have hlen : ∀ b, ((generatorCoefficients r).tail.map (fieldProduct b)).length ≤ k + r := fun b => by
      rw [List.length_map, length_tail_generatorCoefficients h]
      exact Nat.le_add_left r k
    have hv' : v.length = k + r := by omega
    have hw' : w.length = k + r := by omega
    rw [xorLists, List.zipWith_cons_cons, remainderOf, remainderOf, remainderOf, xorLeading_xorLists _ _ _ (hv'.trans hw'.symm)]
    exact ih ((length_xorLeading ((hlen x).trans hv'.ge)).trans hv') ((length_xorLeading ((hlen y).trans hw'.ge)).trans hw')

/-- Settles O28: the remainder taken one coefficient at a time. -/
theorem divideIsLinear : Obligations.DivideIsLinear := by
  intro r h hr
  refine ⟨fun k _ => ?zeros, fun m _ => ?leading, fun a b _ hab => ?linear⟩
  case zeros =>
    rw [divide_eq_remainderOf h hr, List.length_replicate, List.replicate_append_replicate, remainderOf_replicate h]
  case leading =>
    rw [divide_eq_remainderOf h hr, divide_eq_remainderOf h hr, List.length_cons, List.cons_append]
    exact remainderOf_zero_cons h (by simp)
  case linear =>
    have hlen : (xorLists a b).length = b.length := by simp [hab]
    have happend : xorLists a b ++ List.replicate r 0#8 =
        xorLists (a ++ List.replicate r 0#8) (b ++ List.replicate r 0#8) := by
      simp [xorLists, List.zipWith_append hab]
    rw [divide_eq_remainderOf h hr, divide_eq_remainderOf h hr, divide_eq_remainderOf h hr, hab, happend]
    exact (congrArg (remainderOf r · _) hlen).trans (remainderOf_xorLists h (by simp [hab]) (by simp))

/-! ### The format and version strings of a legal configuration (45_bch_metadata.md R186, R188) -/

theorem level_mask_data : ∀ b < 4, ∀ k < 8, b <<< 3 ^^^ k = b * 8 + k := by decide

theorem formatString_xor_fmtmask (c : Config) (l : Level) {k : Nat} (hk : k ≤ 7) :
    formatString c l k ^^^ c.T.fmtmask.toNat = bch ((c.T.lvlbits l).toNat * 8 + k) 5 c.T.fmtgen.toNat 10 := by
  rw [formatString, level_mask_data _ (c.T.lvlbits l).isLt _ (Nat.lt_succ_of_le hk), Nat.xor_xor_cancel_right]

section

variable {c : Config} (hc : c.Legal) (l : Level) {k : Nat} (hk : k ≤ 7)
include hc hk

/-- A legal generator has its top bit. -/
theorem formatString_bch : bch ((c.T.lvlbits l).toNat * 8 + k) 5 c.T.fmtgen.toNat 10 < 2 ^ 15 ∧
    bch ((c.T.lvlbits l).toNat * 8 + k) 5 c.T.fmtgen.toNat 10 >>> 10 = (c.T.lvlbits l).toNat * 8 + k := by
  have hdata : (c.T.lvlbits l).toNat * 8 + k < 2 ^ 5 := by
    have := (c.T.lvlbits l).isLt
    omega
  have htop : 2 ^ 10 ≤ c.T.fmtgen.toNat := Nat.ge_two_pow_of_testBit hc.fmtgen
  exact ⟨bch_lt hdata htop c.T.fmtgen.isLt, bch_shiftRight hdata htop c.T.fmtgen.isLt⟩

theorem formatString_lt : formatString c l k < 2 ^ 15 := by
  rw [← Nat.xor_xor_cancel_right (formatString c l k) c.T.fmtmask.toNat, formatString_xor_fmtmask c l hk]
  exact Nat.xor_lt_two_pow (formatString_bch hc l hk).1 c.T.fmtmask.isLt

theorem formatString_data : (formatString c l k ^^^ c.T.fmtmask.toNat) >>> 10 = (c.T.lvlbits l).toNat * 8 + k := by
  rw [formatString_xor_fmtmask c l hk]
  exact (formatString_bch hc l hk).2

end

theorem versionString_bch {c : Config} (hc : c.Legal) {v : Nat} (hv : v ≤ 63) :
    versionString c v < 2 ^ 18 ∧ versionString c v >>> 12 = v := by
  have hdata : v < 2 ^ 6 := Nat.lt_succ_of_le hv
  have htop : 2 ^ 12 ≤ c.T.vergen.toNat := Nat.ge_two_pow_of_testBit hc.vergen
  exact ⟨bch_lt hdata htop c.T.vergen.isLt, bch_shiftRight hdata htop c.T.vergen.isLt⟩

/-- Settles O36: the strings begin with what they encode. -/
theorem metadataStringsAreInjective : Obligations.MetadataStringsAreInjective := by
  intro c hc hlvl
  refine ⟨fun l k hk => formatString_data hc l hk, fun l l' k k' hk hk' h => ?format, fun v v' hv hv' h => ?version⟩
  case format =>
    have hdata := formatString_data hc l hk
    rw [h, formatString_data hc l' hk'] at hdata
    exact ⟨hlvl l l' (BitVec.eq_of_toNat_eq (by omega)), by omega⟩
  case version => rw [← (versionString_bch hc hv).2, h, (versionString_bch hc hv').2]

/-! ### `BCHFMT` and `BCHVER` (45_bch_metadata.md R187, R189) -/

theorem config_legal : config.Legal := ⟨.inl rfl, by decide, by decide, by decide⟩

theorem levelOperand_of_gt {s : State} {r : XReg} (h : operand s r > 3) : levelOperand s r = .error (.badOperand 6) := by
  unfold levelOperand
  split
  · next l hl =>
    rw [levelOfCode_eq_some] at hl
    have : scalarOperand s r > 3 := h
    cases l <;> simp [levelCode] at hl <;> omega
  · rfl

theorem exists_levelCode_eq : ∀ n ≤ 3, ∃ l, n = levelCode l := by
  intro n hn
  interval_cases n
  exacts [⟨.L, rfl⟩, ⟨.M, rfl⟩, ⟨.Q, rfl⟩, ⟨.H, rfl⟩]

theorem exists_levelOperand_of_le {s : State} {r : XReg} (h : operand s r ≤ 3) :
    ∃ l, operand s r = levelCode l ∧ levelOperand s r = .ok l := by
  obtain ⟨l, hl⟩ := exists_levelCode_eq _ h
  exact ⟨l, hl, levelOperand_eq_ok.2 hl⟩

theorem maskOperand_of_gt {s : State} {r : XReg} (h : operand s r > 7) : maskOperand s r = .error (.badOperand 10) := if_pos h

theorem toNat_lvlbits_config (l : Level) : (config.T.lvlbits l).toNat = [0b01, 0b00, 0b11, 0b10].getD (levelCode l) 0 := by
  cases l <;> rfl

/-- Settles O34: the two checks in their order, then the string of the level and the mask id. -/
theorem bchfmtWritesTheFormatString : Obligations.BchfmtWritesTheFormatString := by
  intro s rd rs1 rs2 hf
  rw [exec_eq_command]
  refine ⟨fun hgt => command_of_error hf (bind_error.2 (.inl (levelOperand_of_gt hgt))), fun hle => ?_⟩
  obtain ⟨l, hl, hlevel⟩ := exists_levelOperand_of_le hle
  refine ⟨fun hgt => ?mask, fun hk => ?string⟩
  case mask =>
    exact command_of_error hf (bind_error.2 (.inr ⟨l, hlevel, bind_error.2 (.inl (maskOperand_of_gt hgt))⟩))
  case string =>
    have hmask : maskOperand s rs2 = .ok (operand s rs2) := maskOperand_eq_ok.2 ⟨hk, rfl⟩
    obtain ⟨q, -, hq⟩ := exists_bch_eq_gf2Product ((config.T.lvlbits l).toNat * 8 + operand s rs2) 0x537 10 (k := 5) (by decide)
    refine ⟨formatString config l (operand s rs2), q, formatString_lt config_legal l hk,
      command_of_ok hf (bind_ok.2 ⟨l, hlevel, bind_ok.2 ⟨_, hmask, rfl⟩⟩), ?_, ?_⟩
    · exact (formatString_xor_fmtmask config l hk).trans hq
    · rw [hl, ← toNat_lvlbits_config]
      exact formatString_data config_legal l hk

/-- Settles O35: a value of at most 63 passes the one check, and the string is that of `bch`. -/
theorem bchverWritesTheVersionString : Obligations.BchverWritesTheVersionString := by
  intro s rd rs1 hf
  rw [exec_eq_command]
  refine ⟨fun hgt => command_of_error hf (bind_error.2 (.inl (if_pos hgt))), fun hle => ?_⟩
  have hversion : versionValueOperand s rs1 = .ok (operand s rs1) := versionValueOperand_eq_ok.2 ⟨hle, rfl⟩
  obtain ⟨q, -, hq⟩ := exists_bch_eq_gf2Product (operand s rs1) 0x1F25 12 (k := 6) (by decide)
  obtain ⟨hlt, hdata⟩ := versionString_bch config_legal hle
  exact ⟨versionString config (operand s rs1), q, hlt, command_of_ok hf (bind_ok.2 ⟨_, hversion, rfl⟩), hq, hdata⟩

/-! ### `MASKB` (47_data_placement.md R217) -/

/-- The default sense of masking (log 2). -/
theorem maskBit_config (k : BitVec 3) (c r : Nat) (b : Bool) :
    maskBit config k c r b = (b ^^ config.T.maskpred k c r) := by
  cases h : config.T.maskpred k c r
  · rw [maskBit_of_ne (by rw [h]; decide), Bool.xor_false]
  · rw [maskBit_of_eq h, Bool.xor_true]

theorem toNat_maskBit_config (k : BitVec 3) (c r : Nat) (b : Bool) :
    (maskBit config k c r b).toNat = if config.T.maskpred k c r then 1 - b.toNat else b.toNat := by
  rw [maskBit_config]
  cases config.T.maskpred k c r <;> cases b <;> rfl

/-- Settles O37: in range the bit is masked, and otherwise the one check fails. -/
theorem maskbInvertsWhereThePredicateHolds : Obligations.MaskbInvertsWhereThePredicateHolds := by
  intro s rd rs1 rs2 hf
  refine ⟨fun ⟨h1, h2, hd⟩ => ?inRange, fun h => ?outOfRange⟩
  case inRange =>
    obtain ⟨b, hb⟩ := exists_getX_eq_bitWord hd
    have hbit : operand s rd = b.toNat := (congrArg BitVec.toNat hb).trans (toNat_bitWord b)
    rw [exec_maskb_of_bitWord hf h1 h2 hb, hbit, bitWord, toNat_maskBit_config]
  case outOfRange =>
    rw [exec_eq_command]
    refine command_of_error hf (bind_error.2 (.inl (check_eq_error.2 ⟨?_, rfl⟩)))
    rw [← Bool.not_eq_true]
    simp only [Bool.and_eq_true, decide_eq_true_eq]
    have h : scalarOperand s rs1 > 176 ∨ scalarOperand s rs2 > 176 ∨ scalarOperand s rd > 1 := h
    omega

end Sys2Proof.Proofs

/-! Proofs for 21_static_tables.md R91 to R98 and 44_message_encoder.md R166, R167: what a query answers, for every `T`, and the
search of `MSEL`. -/

namespace Sys2Proof.Proofs

open Sys2Proof Sys2Proof.Machine Sys2Proof.Laws Sys2Proof.Claims

/-! ### Queries, for every `T` (21_static_tables.md R93, R94, R98) -/

/-- The model's test of a value of `T.ec` is the negation of the rule's list of failures. -/
theorem ecUndefined_iff_of_some {c : Config} {v : Nat} {l : Level} {t : EcEntry} (h : c.T.ec v l = some t) :
    EcUndefined c v l ↔ ecValid c v t = false := by
  rw [← Bool.not_eq_true]
  simp only [EcUndefined, h, Option.some.injEq, forall_eq', ecValid, Bool.and_eq_true, Bool.or_eq_true, decide_eq_true_eq]
  simp only [dataCodewords, totalCodewords, rembitsOf]
  omega

theorem queryEc_of_undefined {c : Config} {v : Nat} {l : Level} (h : EcUndefined c v l) :
    queryEc c v l = .error (.malformedLookup 1 v l) := by
  cases ht : c.T.ec v l with
  | none => simp only [queryEc, ht, Option.filter_none]
  | some t =>
    rw [ecUndefined_iff_of_some ht] at h
    simp only [queryEc, ht, Option.filter_some, h, Bool.false_eq_true, if_false]

theorem exists_queryEc {c : Config} {v : Nat} {l : Level} (h : ¬EcUndefined c v l) :
    ∃ t, c.T.ec v l = some t ∧ ecValid c v t = true ∧ queryEc c v l = .ok t := by
  cases ht : c.T.ec v l with
  | none => exact absurd (fun t h' => by rw [ht] at h'; cases h') h
  | some t =>
    rw [ecUndefined_iff_of_some ht, Bool.not_eq_false] at h
    exact ⟨t, rfl, h, by simp only [queryEc, ht, Option.filter_some, h, if_true]⟩

theorem lenbitsUndefined_iff_of_some {c : Config} {v w : Nat} (h : c.T.lenbits v = some w) :
    LenbitsUndefined c v ↔ (1 ≤ w && w ≤ 16) = false := by
  rw [← Bool.not_eq_true]
  simp only [LenbitsUndefined, h, Option.some.injEq, forall_eq', Bool.and_eq_true, decide_eq_true_eq]
  omega

theorem queryLenbits_of_undefined {c : Config} {v : Nat} (h : LenbitsUndefined c v) :
    queryLenbits c v = .error (.malformedLookup 2 v .L) := by
  cases hw : c.T.lenbits v with
  | none => simp only [queryLenbits, hw, Option.filter_none]
  | some w =>
    rw [lenbitsUndefined_iff_of_some hw] at h
    simp only [queryLenbits, hw, Option.filter_some, h, Bool.false_eq_true, if_false]

theorem exists_queryLenbits {c : Config} {v : Nat} (h : ¬LenbitsUndefined c v) :
    ∃ w, c.T.lenbits v = some w ∧ queryLenbits c v = .ok w := by
  cases hw : c.T.lenbits v with
  | none => exact absurd (fun w h' => by rw [hw] at h'; cases h') h
  | some w =>
    rw [lenbitsUndefined_iff_of_some hw, Bool.not_eq_false] at h
    exact ⟨w, rfl, by simp only [queryLenbits, hw, Option.filter_some, h, if_true]⟩

theorem rembitsUndefined_iff_of_some {c : Config} {v q : Nat} (h : c.T.rembits v = some q) :
    RembitsUndefined c v ↔ decide (q ≤ 7) = false := by
  simp [RembitsUndefined, h]

theorem queryRembits_of_undefined {c : Config} {v : Nat} (h : RembitsUndefined c v) :
    queryRembits c v = .error (.malformedLookup 3 v .L) := by
  cases hq : c.T.rembits v with
  | none => simp only [queryRembits, rembitsOf, hq, Option.filter_none]
  | some q =>
    rw [rembitsUndefined_iff_of_some hq] at h
    simp only [queryRembits, rembitsOf, hq, Option.filter_some, h, Bool.false_eq_true, if_false]

theorem exists_queryRembits {c : Config} {v : Nat} (h : ¬RembitsUndefined c v) :
    ∃ q, c.T.rembits v = some q ∧ rembitsOf c v = some q ∧ queryRembits c v = .ok q := by
  cases hq : c.T.rembits v with
  | none => exact absurd (fun q h' => by rw [hq] at h'; cases h') h
  | some q =>
    rw [rembitsUndefined_iff_of_some hq, Bool.not_eq_false] at h
    have hof : rembitsOf c v = some q := by simp only [rembitsOf, hq, Option.filter_some, h, if_true]
    exact ⟨q, rfl, hof, by simp only [queryRembits, hof]⟩

/-! ### The keys of the standard tables (21_static_tables.md section 2) -/

theorem versionRow_bounds {α : Type} {rows : List α} {v : Nat} {a : α} (h : versionRow rows v = some a) :
    1 ≤ v ∧ v ≤ rows.length := by
  unfold versionRow at h
  split at h
  · cases h
  · have := (List.getElem?_eq_some_iff.1 h).1
    omega

theorem ec_config_bounds {v : Nat} {l : Level} {t : EcEntry} (h : config.T.ec v l = some t) : 1 ≤ v ∧ v ≤ 40 := by
  obtain ⟨r, hr, -⟩ := Option.map_eq_some_iff.1 h
  exact versionRow_bounds hr

section

variable {v : Nat} (h1 : 1 ≤ v) (h2 : v ≤ 40)
include h1 h2

theorem not_ecUndefined_config (l : Level) : ¬EcUndefined config v l := fun h => by
  have hq := queryEc_config h1 h2 l
  rw [queryEc_of_undefined h] at hq
  cases hq

theorem not_lenbitsUndefined_config : ¬LenbitsUndefined config v := fun h => by
  have hq := queryLenbits_config h1 h2
  rw [queryLenbits_of_undefined h] at hq
  cases hq

theorem not_rembitsUndefined_config : ¬RembitsUndefined config v := fun h => by
  have hq := queryRembits_config h1 h2
  rw [queryRembits_of_undefined h] at hq
  cases hq

end

/-! ### The test of one pair (44_message_encoder.md R167) -/

theorem fits_eq {c : Config} {v : Nat} {l : Level} (hec : ¬EcUndefined c v l) (hlen : ¬LenbitsUndefined c v) (n : Nat)
    [Decidable (FitsUnder c n v l)] : fits c n v l = .ok (decide (FitsUnder c n v l)) := by
  obtain ⟨t, ht, -, hqt⟩ := exists_queryEc hec
  obtain ⟨w, hw, hqw⟩ := exists_queryLenbits hlen
  rw [fits, hqt, ok_bind, hqw, ok_bind]
  rw [Except.ok.injEq, Bool.eq_iff_iff]
  simp only [fitsIn, Bool.and_eq_true, decide_eq_true_eq]
  simp [FitsUnder, ht, hw, dataCodewords]

theorem fits_of_ecUndefined {c : Config} {v : Nat} {l : Level} (hec : EcUndefined c v l) (n : Nat) :
    fits c n v l = .error (.malformedLookup 1 v l) := by
  rw [fits, queryEc_of_undefined hec, error_bind]

theorem fits_of_lenbitsUndefined {c : Config} {v : Nat} {l : Level} (hec : ¬EcUndefined c v l) (hlen : LenbitsUndefined c v)
    (n : Nat) : fits c n v l = .error (.malformedLookup 2 v .L) := by
  obtain ⟨t, -, -, hqt⟩ := exists_queryEc hec
  rw [fits, hqt, ok_bind, queryLenbits_of_undefined hlen, error_bind]

/-! ### The search (44_message_encoder.md R166) -/

/-- The pair is defined and the data does not fit it: the search goes on. -/
def PassedOver (c : Config) (n : Nat) (q : Level × Nat) : Prop :=
  ¬EcUndefined c q.2 q.1 ∧ ¬LenbitsUndefined c q.2 ∧ ¬FitsUnder c n q.2 q.1

theorem fits_of_passedOver {c : Config} {n : Nat} {l : Level} {v : Nat} (h : PassedOver c n (l, v)) :
    fits c n v l = .ok false := by
  classical
  obtain ⟨hec, hlen, hno⟩ := h
  rw [fits_eq hec hlen, decide_eq_false hno]

theorem fits_of_fitsUnder {c : Config} {n v : Nat} {l : Level} (hec : ¬EcUndefined c v l) (hlen : ¬LenbitsUndefined c v)
    (h : FitsUnder c n v l) : fits c n v l = .ok true := by
  classical
  rw [fits_eq hec hlen, decide_eq_true h]

theorem selectFrom_append {c : Config} {n : Nat} {pre : List (Level × Nat)} (h : ∀ q ∈ pre, PassedOver c n q)
    (rest : List (Level × Nat)) : selectFrom c n (pre ++ rest) = selectFrom c n rest := by
  induction pre with
  | nil => rfl
  | cons q pre ih =>
    rw [List.forall_mem_cons] at h
    rw [List.cons_append, selectFrom, fits_of_passedOver h.1, ok_bind, if_neg Bool.false_ne_true, ih h.2]

theorem selectFrom_of_fits {c : Config} {n v : Nat} {l : Level} (h : fits c n v l = .ok true) (rest : List (Level × Nat)) :
    selectFrom c n ((l, v) :: rest) = .ok (l, v) := by
  rw [selectFrom, h, ok_bind, if_pos rfl]

theorem selectFrom_of_error {c : Config} {n v : Nat} {l : Level} {e : CmdError} (h : fits c n v l = .error e)
    (rest : List (Level × Nat)) : selectFrom c n ((l, v) :: rest) = .error e := by
  rw [selectFrom, h, error_bind]

theorem searchPairs_eq (mv : Nat) (ml : Level) : searchPairs mv ml = searchOrder mv (levelCode ml) := by
  cases ml <;> rfl

theorem bounds_of_mem_searchOrder {mv ml : Nat} {q : Level × Nat} (h : q ∈ searchOrder mv ml) : mv ≤ q.2 ∧ q.2 ≤ 40 := by
  obtain ⟨l, -, h⟩ := List.mem_flatMap.1 h
  obtain ⟨v, hv, rfl⟩ := List.mem_map.1 h
  rw [List.mem_range'_1] at hv
  simp only
  omega

/-! ### `MSEL` (44_message_encoder.md R166) -/

theorem needPhase_of_ne {s : State} {ph : Phase} (h : s.phase ≠ ph) (what : Nat) :
    needPhase s ph what = .error (.badPhase what) := needPhase_eq_error.2 ⟨h, rfl⟩

theorem needPhase_of_eq {s : State} {ph : Phase} (h : s.phase = ph) (what : Nat) : needPhase s ph what = .ok () :=
  needPhase_eq_ok.2 h

theorem mselBody_of_search {c : Config} {rs1 rs2 : XReg} {s : State} (hp : s.phase = .idle) (h1 : 1 ≤ operand s rs1)
    (h40 : operand s rs1 ≤ 40) (h3 : operand s rs2 ≤ 3) : mselBody c rs1 rs2 s =
      selectFrom c s.dinlen (searchOrder (operand s rs1) (operand s rs2)) >>= fun q => .ok (s.setVersionLevel q.2 q.1) := by
  obtain ⟨ml, hml, hlevel⟩ := exists_levelOperand_of_le h3
  have hversion : versionOperand s rs1 = .ok (operand s rs1) := versionOperand_eq_ok.2 ⟨h1, h40, rfl⟩
  rw [mselBody, needPhase_of_eq hp, ok_bind, hversion, ok_bind, hlevel, ok_bind, searchPairs_eq, ← hml]

theorem mselBody_of_firstFit {rs1 rs2 : XReg} {s : State} {l : Level} {v : Nat} (hp : s.phase = .idle)
    (h1 : 1 ≤ operand s rs1) (h40 : operand s rs1 ≤ 40) (h3 : operand s rs2 ≤ 3)
    (hfit : FirstFit s.dinlen (operand s rs1) (operand s rs2) l v) :
    mselBody config rs1 rs2 s = .ok (s.setVersionLevel v l) := by
  obtain ⟨pre, post, horder, hpre, hv⟩ := hfit
  have hbounds : ∀ q ∈ pre ++ (l, v) :: post, 1 ≤ q.2 ∧ q.2 ≤ 40 := fun q hq =>
    have hq := bounds_of_mem_searchOrder (horder ▸ hq)
    ⟨h1.trans hq.1, hq.2⟩
  have hpassed : ∀ q ∈ pre, PassedOver config s.dinlen q := fun q hq =>
    have ⟨hq1, hq2⟩ := hbounds q (List.mem_append_left _ hq)
    ⟨not_ecUndefined_config hq1 hq2 _, not_lenbitsUndefined_config hq1 hq2, hpre q hq⟩
  obtain ⟨hv1, hv2⟩ := hbounds (l, v) (by simp)
  rw [mselBody_of_search hp h1 h40 h3, horder, selectFrom_append hpassed,
    selectFrom_of_fits (fits_of_fitsUnder (not_ecUndefined_config hv1 hv2 l) (not_lenbitsUndefined_config hv1 hv2) hv),
    ok_bind]

theorem FirstFit.bounds {n mv ml v : Nat} {l : Level} (h : FirstFit n mv ml l v) : mv ≤ v ∧ v ≤ 40 := by
  obtain ⟨pre, post, horder, -, -⟩ := h
  have hmem : (l, v) ∈ searchOrder mv ml := by rw [horder]; simp
  exact bounds_of_mem_searchOrder hmem

/-- Settles O29: the checks in their order, then the search, which asks for each pair whether the data fits it. -/
theorem mselChoosesTheFirstFit : Obligations.MselChoosesTheFirstFit := by
  intro s rs1 rs2 hf
  rw [exec_eq_command]
  refine ⟨fun hp => command_of_error hf (bind_error.2 (.inl (needPhase_of_ne hp 1))), fun hp => ?_⟩
  have hphase := needPhase_of_eq hp 1
  refine ⟨fun hv => ?version, fun ⟨h1, h40⟩ => ⟨fun h3 => ?level, fun h3 => ⟨fun l v hfit => ?fit, fun hno => ?none⟩⟩⟩
  case version => exact command_of_error hf (bind_error.2 (.inr ⟨(), hphase, bind_error.2 (.inl (if_pos hv))⟩))
  case level =>
    have hversion : versionOperand s rs1 = .ok (operand s rs1) := versionOperand_eq_ok.2 ⟨h1, h40, rfl⟩
    exact command_of_error hf (bind_error.2 (.inr ⟨(), hphase, bind_error.2 (.inr ⟨_, hversion,
      bind_error.2 (.inl (levelOperand_of_gt h3))⟩)⟩))
  case fit => exact command_of_ok hf (mselBody_of_firstFit hp h1 h40 h3 hfit)
  case none =>
    refine command_of_error hf ((mselBody_of_search hp h1 h40 h3).trans ?_)
    rw [← List.append_nil (searchOrder _ _), selectFrom_append fun q hq => ?_]
    · rfl
    · have hq' := bounds_of_mem_searchOrder hq
      exact ⟨not_ecUndefined_config (h1.trans hq'.1) hq'.2 _, not_lenbitsUndefined_config (h1.trans hq'.1) hq'.2, hno q hq⟩

end Sys2Proof.Proofs

/-! Proofs for 44_message_encoder.md R168 to R175 and 48_composite_commands.md R230: the data codewords that `MASM` assembles,
the blocks that `MINT` interleaves, and `MENC`. -/

namespace Sys2Proof.Proofs

open Sys2Proof Sys2Proof.Machine Sys2Proof.Laws Sys2Proof.Claims

/-! ### Bits and bytes (20_memory.md R67) -/

@[simp] theorem length_bitsOf (n v : Nat) : (bitsOf n v).length = n := by simp [bitsOf]

@[simp] theorem length_byteBits (b : Byte) : (byteBits b).length = 8 := by simp [byteBits]

theorem byteBits_byteOf {bs : List Bool} (h : bs.length = 8) : byteBits (byteOf bs) = bs := by
  have hall : ∀ b0 b1 b2 b3 b4 b5 b6 b7 : Bool,
      byteBits (byteOf [b0, b1, b2, b3, b4, b5, b6, b7]) = [b0, b1, b2, b3, b4, b5, b6, b7] := by decide +kernel
  match bs, h with
  | [b0, b1, b2, b3, b4, b5, b6, b7], _ => exact hall b0 b1 b2 b3 b4 b5 b6 b7

theorem flatMap_byteBits_bytesOf {n : Nat} {bs : List Bool} (h : bs.length = 8 * n) :
    (bytesOf n bs).flatMap byteBits = bs := by
  induction n generalizing bs with
  | zero => rw [List.length_eq_zero_iff.1 h]; rfl
  | succ n ih =>
    rw [bytesOf, List.flatMap_cons, byteBits_byteOf (by rw [List.length_take]; omega),
      ih (by rw [List.length_drop]; omega), List.take_append_drop]

@[simp] theorem length_bytesOf (n : Nat) (bs : List Bool) : (bytesOf n bs).length = n := by
  induction n generalizing bs with
  | zero => rfl
  | succ n ih => rw [bytesOf, List.length_cons, ih]

@[simp] theorem length_padBytes (c : Config) (n : Nat) : (padBytes c n).length = n := by simp [padBytes]

theorem length_flatMap_byteBits (bs : List Byte) : (bs.flatMap byteBits).length = 8 * bs.length := by
  simp [List.length_flatMap, Nat.mul_comm]

/-! ### The data codewords (44_message_encoder.md R168, R170, R171) -/

theorem length_headerAndData (c : Config) (w : Nat) (data : List Byte) :
    (headerAndData c w data).length = 4 + w + 8 * data.length + 4 := by
  have hdata : (data.flatMap fun b => bitsOf 8 b.toNat).length = 8 * data.length := length_flatMap_byteBits data
  simp only [headerAndData, List.length_append, length_bitsOf, hdata]
  rfl

/-- A fitting stream leaves room for the pad bytes, so there are `d` codewords. -/
theorem length_assemble (c : Config) {w d : Nat} {data : List Byte} (h : 4 + w + 8 * data.length + 4 ≤ 8 * d) :
    (assemble c w d data).length = d := by
  simp only [assemble, fillByte, List.length_append, length_bytesOf, length_padBytes, length_headerAndData,
    List.length_replicate]
  omega

theorem headerAndData_config (w : Nat) (data : List Byte) : headerAndData config w data =
    [false, true, false, false] ++ (List.range w).map (fun k => data.length.testBit (w - 1 - k)) ++
      data.flatMap byteBits ++ [false, false, false, false] := rfl

theorem padBytes_config (n : Nat) : padBytes config n = (List.range n).map padByte := rfl

theorem flatMap_byteBits_assemble {w d : Nat} {data : List Byte} (hw : w % 8 = 0) :
    (assemble config w d data).flatMap byteBits = messageBits w d data := by
  have hlen := length_headerAndData config w data
  have hfill : fillByte (headerAndData config w data) = headerAndData config w data := by
    rw [fillByte, hlen, show (8 - (4 + w + 8 * data.length + 4) % 8) % 8 = 0 by omega]
    exact List.append_nil _
  have hbytes : (headerAndData config w data).length / 8 = 1 + w / 8 + data.length := by omega
  simp only [assemble]
  rw [hfill, hbytes, List.flatMap_append, flatMap_byteBits_bytesOf (by omega), headerAndData_config, padBytes_config,
    List.flatMap_map, messageBits]

/-! ### `MASM` (44_message_encoder.md R168) -/

@[simp] theorem length_dinData (s : State) : s.dinData.length = s.dinlen := length_slice ..
@[simp] theorem length_cwData (s : State) : s.cwData.length = s.cwlen := length_slice ..
@[simp] theorem length_bitData (s : State) : s.bitData.length = s.bitlen := length_slice ..

theorem chosenVersion_of_zero {s : State} (h : s.sym.ver = 0#6) : chosenVersion s = .error (.badOperand 7) := if_pos h

theorem chosenVersion_of_ne {s : State} (h : s.sym.ver ≠ 0#6) : chosenVersion s = .ok s.sym.ver.toNat := if_neg h

theorem masmBody_of_queries {c : Config} {s : State} {t : EcEntry} {w : Nat} (hv : s.sym.ver ≠ 0#6)
    (ht : queryEc c s.sym.ver.toNat s.sym.lvl = .ok t) (hw : queryLenbits c s.sym.ver.toNat = .ok w) :
    masmBody c s = if fitsIn s.dinlen w (dataCodewords t) then .ok (s.setCw (assemble c w (dataCodewords t) s.dinData))
      else .error (.badOperand 8) := by
  rw [masmBody, chosenVersion_of_ne hv, ok_bind, ht, ok_bind, hw, ok_bind]
  cases fitsIn s.dinlen w (dataCodewords t) <;> rfl

theorem queries_config {v : Nat} {l : Level} {t : EcEntry} (ht : config.T.ec v l = some t) :
    1 ≤ v ∧ v ≤ 40 ∧ queryEc config v l = .ok t ∧ ecValid config v t = true := by
  obtain ⟨h1, h2⟩ := ec_config_bounds ht
  obtain ⟨t', ht', hvalid, hquery⟩ := exists_queryEc (not_ecUndefined_config h1 h2 l)
  obtain rfl := Option.some.inj (ht.symm.trans ht')
  exact ⟨h1, h2, hquery, hvalid⟩

theorem lenbits_config {v w : Nat} (h1 : 1 ≤ v) (h2 : v ≤ 40) (hw : config.T.lenbits v = some w) :
    queryLenbits config v = .ok w ∧ w % 8 = 0 := by
  have hquery := queryLenbits_config h1 h2
  obtain ⟨w', hw', hquery'⟩ := exists_queryLenbits (not_lenbitsUndefined_config h1 h2)
  obtain rfl := Option.some.inj (hw.symm.trans hw')
  refine ⟨hquery', ?_⟩
  obtain rfl := Except.ok.inj (hquery.symm.trans hquery')
  split <;> rfl

theorem fitsIn_iff_dataFits {n v : Nat} {l : Level} {t : EcEntry} {w : Nat} (ht : config.T.ec v l = some t)
    (hw : config.T.lenbits v = some w) : fitsIn n w (dataCodewords t) = true ↔ DataFits n v l := by
  simp only [fitsIn, Bool.and_eq_true, decide_eq_true_eq]
  simp [DataFits, ht, hw, dataCodewords]

/-- Settles O30: the queries are defined at the key, the length field is of whole bytes, so the stream is one of whole bytes
with the pad bytes after it. -/
theorem masmAssemblesTheCodewords : Obligations.MasmAssemblesTheCodewords := by
  intro s hf
  rw [exec_eq_command]
  refine ⟨fun hv => command_of_error hf (bind_error.2 (.inl (chosenVersion_of_zero hv))), fun t w hv ht hw => ?_⟩
  obtain ⟨h1, h2, hquery, -⟩ := queries_config ht
  obtain ⟨hlen, hbytes⟩ := lenbits_config h1 h2 hw
  have hbody := masmBody_of_queries hv hquery hlen
  rw [← fitsIn_iff_dataFits ht hw]
  refine ⟨fun hno => command_of_error hf (hbody.trans (if_neg hno)), fun hfit => ?_⟩
  refine ⟨_, command_of_ok hf (hbody.trans (if_pos hfit)), length_assemble config ?_, flatMap_byteBits_assemble hbytes⟩
  rw [length_dinData]
  simp only [fitsIn, Bool.and_eq_true, decide_eq_true_eq] at hfit
  exact hfit.2

/-! ### Interleaving (44_message_encoder.md R174) -/

theorem filterMap_getElem?_of_lt {blocks : List (List Byte)} {i : Nat} (h : ∀ b ∈ blocks, i < b.length) :
    (blocks.filterMap fun b => b[i]?) = blocks.map fun b => b.getD i 0#8 := by
  rw [← List.filterMap_eq_map]
  refine List.filterMap_congr fun b hb => ?_
  simp [List.getD_eq_getElem?_getD, h b hb]

/-- Index by index over blocks that all have the index. -/
theorem interleave_eq_flatMap {n : Nat} {blocks : List (List Byte)} (h : ∀ b ∈ blocks, n ≤ b.length) :
    interleave n blocks = (List.range n).flatMap fun i => blocks.map fun b => b.getD i 0#8 := by
  unfold interleave
  exact List.flatMap_congr fun i hi => filterMap_getElem?_of_lt fun b hb => (List.mem_range.1 hi).trans_le (h b hb)

theorem length_interleave {n : Nat} {blocks : List (List Byte)} (h : ∀ b ∈ blocks, n ≤ b.length) :
    (interleave n blocks).length = blocks.length * n := by
  rw [interleave_eq_flatMap h, length_flatMap_of_length (n := blocks.length) (fun i => by simp), List.length_range]

theorem getElem?_interleave {n : Nat} {blocks : List (List Byte)} (h : ∀ b ∈ blocks, n ≤ b.length) {i j : Nat}
    (hi : i < n) (hj : j < blocks.length) :
    (interleave n blocks)[i * blocks.length + j]? = blocks[j][i]? := by
  rw [interleave_eq_flatMap h, Nat.mul_comm, getElem?_flatMap_of_length (fun i => by simp) _ _ hj, List.getElem?_range hi]
  have := h _ (List.getElem_mem hj)
  simp [List.getD_eq_getElem?_getD, show i < blocks[j].length by omega, hj]

/-! ### The blocks (44_message_encoder.md R172, R173) -/

theorem blockOf_eq_blockAt (t : EcEntry) (cw : List Byte) (j : Nat) : blockOf t cw j = blockAt t cw j := by
  unfold blockOf blockAt blockStart blockSize
  split <;> rfl

theorem blocksOf_eq (t : EcEntry) (cw : List Byte) :
    blocksOf t cw = (List.range (t.b1 + t.b2)).map (blockAt t cw) :=
  List.map_congr_left fun j _ => blockOf_eq_blockAt t cw j

theorem blockStart_add_blockSize_le {t : EcEntry} {j : Nat} (hj : j < t.b1 + t.b2) :
    blockStart t j + blockSize t j ≤ dataCodewords t := by
  unfold blockStart blockSize dataCodewords
  split
  · next h =>
    have := Nat.mul_le_mul_right t.d1 (Nat.succ_le_of_lt h)
    rw [Nat.succ_mul] at this
    omega
  · next h =>
    have := Nat.mul_le_mul_right t.d2 (show j - t.b1 + 1 ≤ t.b2 by omega)
    rw [Nat.succ_mul] at this
    omega

section

variable {t : EcEntry} {cw : List Byte} (hcw : cw.length = dataCodewords t) {j : Nat}
include hcw

theorem length_blockAt (hj : j < t.b1 + t.b2) : (blockAt t cw j).length = blockSize t j := by
  have := blockStart_add_blockSize_le hj
  rw [blockAt, List.length_take, List.length_drop]
  omega

omit hcw in
theorem getElem?_blockAt {i : Nat} (hi : i < blockSize t j) : (blockAt t cw j)[i]? = cw[blockStart t j + i]? := by
  rw [blockAt, List.getElem?_take_of_lt hi, List.getElem?_drop]

/-- A block is as long as those of the first group, or one codeword longer. -/
theorem le_length_of_mem_blocksOf (hd : t.b2 = 0 ∨ t.d2 = t.d1 + 1) {b : List Byte} (hb : b ∈ blocksOf t cw) :
    t.d1 ≤ b.length := by
  rw [blocksOf_eq] at hb
  obtain ⟨j, hj, rfl⟩ := List.mem_map.1 hb
  rw [List.mem_range] at hj
  rw [length_blockAt hcw hj, blockSize]
  split <;> omega

/-- The last index of the second group's blocks. -/
theorem filterMap_last_index (hd : t.d2 = t.d1 + 1) : ((blocksOf t cw).filterMap fun b => b[t.d1]?) =
    (List.range t.b2).map fun j => cw.getD (blockStart t (t.b1 + j) + t.d1) 0#8 := by
  have hfirst : ((List.range t.b1).map (blockAt t cw)).filterMap (fun b => b[t.d1]?) = [] := by
    rw [List.filterMap_eq_nil_iff]
    intro b hb
    obtain ⟨j, hj, rfl⟩ := List.mem_map.1 hb
    rw [List.mem_range] at hj
    rw [List.getElem?_eq_none_iff, length_blockAt hcw (by omega), blockSize, if_pos hj]
  rw [blocksOf_eq, List.range_add, List.map_append, List.filterMap_append, hfirst, List.nil_append, List.map_map,
    List.filterMap_map, ← List.filterMap_eq_map]
  refine List.filterMap_congr fun j hj => ?_
  rw [List.mem_range] at hj
  have hsize : blockSize t (t.b1 + j) = t.d1 + 1 := by rw [blockSize, if_neg (by omega), hd]
  have hend := blockStart_add_blockSize_le (t := t) (j := t.b1 + j) (by omega)
  have hlt : blockStart t (t.b1 + j) + t.d1 < cw.length := by omega
  simp [getElem?_blockAt (t := t) (cw := cw) (j := t.b1 + j) (i := t.d1) (by omega), List.getD_eq_getElem?_getD, hlt]

/-- The data region: the indices that every block has, then the last index of the second group alone. -/
theorem interleave_longestBlock (hd : t.b2 = 0 ∨ t.d2 = t.d1 + 1) :
    ∃ last : List Byte, interleave (longestBlock t) (blocksOf t cw) = interleave t.d1 (blocksOf t cw) ++ last ∧
      last.length = t.b2 ∧ ∀ j < t.b2, last[j]? = cw[blockStart t (t.b1 + j) + t.d1]? := by
  by_cases h0 : t.b2 = 0
  · exact ⟨[], by rw [longestBlock, if_pos h0, List.append_nil], h0.symm, fun j hj => by omega⟩
  · have hd : t.d2 = t.d1 + 1 := hd.resolve_left h0
    refine ⟨(blocksOf t cw).filterMap fun b => b[t.d1]?, ?_, ?_, fun j hj => ?_⟩
    · rw [longestBlock, if_neg h0, hd, Nat.max_eq_right (Nat.le_succ _), interleave, List.range_succ, List.flatMap_append,
        List.flatMap_singleton, interleave]
    · rw [filterMap_last_index hcw hd, List.length_map, List.length_range]
    · have hsize : blockSize t (t.b1 + j) = t.d1 + 1 := by rw [blockSize, if_neg (by omega), hd]
      have hend := blockStart_add_blockSize_le (t := t) (j := t.b1 + j) (by omega)
      have hlt : blockStart t (t.b1 + j) + t.d1 < cw.length := by omega
      rw [filterMap_last_index hcw hd]
      simp [List.getD_eq_getElem?_getD, hlt, hj]

end

/-! ### The interleaved codewords (44_message_encoder.md R172 to R175) -/

theorem dataCodewords_eq {t : EcEntry} (hd : t.b2 = 0 ∨ t.d2 = t.d1 + 1) :
    dataCodewords t = (t.b1 + t.b2) * t.d1 + t.b2 := by
  unfold dataCodewords
  rcases hd with h | h <;> rw [h] <;> ring

theorem row_place_lt {n m i j : Nat} (hi : i < n) (hj : j < m) : i * m + j < m * n :=
  calc i * m + j < i * m + m := Nat.add_lt_add_left hj _
    _ = m * (i + 1) := by ring
    _ ≤ m * n := Nat.mul_le_mul_left m hi

theorem interleaved_interleavedCodewords {t : EcEntry} {cw : List Byte} (hcw : cw.length = dataCodewords t)
    (hd : t.b2 = 0 ∨ t.d2 = t.d1 + 1) (he : 1 ≤ t.e) (he' : t.e ≤ 254) :
    Interleaved t cw (interleavedCodewords config t cw) := by
  obtain ⟨last, hlast, hlen, hget⟩ := interleave_longestBlock hcw hd
  have hblocks : (blocksOf t cw).length = t.b1 + t.b2 := by rw [blocksOf_eq, List.length_map, List.length_range]
  have hdata : ∀ b ∈ blocksOf t cw, t.d1 ≤ b.length := fun b hb => le_length_of_mem_blocksOf hcw hd hb
  have hec : ∀ b ∈ (blocksOf t cw).map (fun b => divide config b t.e), t.e ≤ b.length := fun b hb => by
    obtain ⟨m, -, rfl⟩ := List.mem_map.1 hb
    exact (length_divide_config he he' m).ge
  have hrows : (interleave t.d1 (blocksOf t cw)).length = (t.b1 + t.b2) * t.d1 := by rw [length_interleave hdata, hblocks]
  have hregion : (interleave t.d1 (blocksOf t cw) ++ last).length = t.b1 * t.d1 + t.b2 * t.d2 := by
    rw [List.length_append, hrows, hlen, ← dataCodewords_eq hd, dataCodewords]
  rw [interleavedCodewords, hlast]
  refine ⟨?length, fun j hj i hi => ?rows, fun j hj => ?last, fun j hj i hi => ?ec⟩
  case length =>
    rw [List.length_append, hregion, length_interleave hec, List.length_map, hblocks]
  case rows =>
    have hlt := row_place_lt hi hj
    rw [List.getElem?_append_left (by rw [List.length_append]; omega), List.getElem?_append_left (by omega), ← hblocks,
      getElem?_interleave hdata hi (by omega)]
    have hi' : i < blockSize t j := by
      unfold blockSize
      split <;> omega
    rw [← getElem?_blockAt hi']
    simp [blocksOf_eq]
  case last =>
    have hpos : t.d1 * (t.b1 + t.b2) + j = (interleave t.d1 (blocksOf t cw)).length + j := by rw [hrows, Nat.mul_comm]
    rw [List.getElem?_append_left (by rw [List.length_append]; omega), hpos, List.getElem?_append_right (Nat.le_add_right _ _),
      Nat.add_sub_cancel_left, hget j hj]
  case ec =>
    have hmap : ((blocksOf t cw).map fun b => divide config b t.e).length = t.b1 + t.b2 := by rw [List.length_map, hblocks]
    rw [Nat.add_assoc, ← hregion, List.getElem?_append_right (Nat.le_add_right _ _), Nat.add_sub_cancel_left, ← hmap,
      getElem?_interleave hec hi (by omega)]
    simp [blocksOf_eq]

theorem length_interleavedCodewords {t : EcEntry} {cw : List Byte} (hcw : cw.length = dataCodewords t)
    (hd : t.b2 = 0 ∨ t.d2 = t.d1 + 1) (he : 1 ≤ t.e) (he' : t.e ≤ 254) :
    (interleavedCodewords config t cw).length = totalCodewords t := by
  rw [(interleaved_interleavedCodewords hcw hd he he').1, totalCodewords]
  ring

theorem finalBits_config (q : Nat) (out : List Byte) :
    finalBits config q out = out.flatMap byteBits ++ List.replicate q false := rfl

/-! ### `MINT` (44_message_encoder.md R172) -/

section

variable {c : Config} {s : State} {t : EcEntry} (hv : s.sym.ver ≠ 0#6)
  (ht : queryEc c s.sym.ver.toNat s.sym.lvl = .ok t)
include hv ht

theorem mintBody_of_cwlen (hcw : s.cwlen = dataCodewords t) : mintBody c s =
    queryRembits c s.sym.ver.toNat >>= fun q =>
      .ok (s.setBits (finalBits c q (interleavedCodewords c t s.cwData))) := by
  rw [mintBody, chosenVersion_of_ne hv, ok_bind, ht, ok_bind, decide_eq_true hcw]
  rfl

theorem mintBody_of_cwlen_ne (hcw : s.cwlen ≠ dataCodewords t) : mintBody c s = .error (.badOperand 9) := by
  rw [mintBody, chosenVersion_of_ne hv, ok_bind, ht, ok_bind, decide_eq_false hcw]
  rfl

end

/-- The entries of the standard tables: bounds on the EC codewords, and a second group one codeword longer. -/
theorem entry_config {v : Nat} {l : Level} {t : EcEntry} (ht : config.T.ec v l = some t) :
    1 ≤ t.e ∧ t.e ≤ 254 ∧ (t.b2 = 0 ∨ t.d2 = t.d1 + 1) ∧ totalCodewords t = totalCodewordRows.getD (v - 1) 0 := by
  obtain ⟨h1, h2, hquery, hvalid⟩ := queries_config ht
  obtain rfl := Except.ok.inj (hquery.symm.trans (queryEc_config h1 h2 l))
  have hcons := standardEntry_consistent_all ⟨v - 1, by omega⟩ l (by cases l <;> decide)
  rw [show v - 1 + 1 = v by omega] at hcons
  simp only [ecValid, Bool.and_eq_true, decide_eq_true_eq] at hvalid
  exact ⟨by omega, by omega, hcons.2, hcons.1⟩

theorem rembits_config {v q : Nat} (h1 : 1 ≤ v) (h2 : v ≤ 40) (hq : config.T.rembits v = some q) :
    queryRembits config v = .ok q ∧ rembitsOf config v = some q := by
  obtain ⟨q', hq', hof, hquery⟩ := exists_queryRembits (not_rembitsUndefined_config h1 h2)
  obtain rfl := Option.some.inj (hq.symm.trans hq')
  exact ⟨hquery, hof⟩

/-- Settles O31: with the codewords of the version the blocks have their lengths, so each place of the stream is known. -/
theorem mintInterleavesTheBlocks : Obligations.MintInterleavesTheBlocks := by
  intro s hf
  rw [exec_eq_command]
  refine ⟨fun hv => command_of_error hf (bind_error.2 (.inl (chosenVersion_of_zero hv))), fun t q hv ht hq => ?_⟩
  obtain ⟨h1, h2, hquery, -⟩ := queries_config ht
  obtain ⟨he, he', hd, -⟩ := entry_config ht
  refine ⟨fun hcw => command_of_error hf (mintBody_of_cwlen_ne hv hquery hcw), fun hcw => ?_⟩
  have hbody := mintBody_of_cwlen hv hquery hcw
  rw [(rembits_config h1 h2 hq).1, ok_bind, finalBits_config] at hbody
  exact ⟨_, interleaved_interleavedCodewords ((length_cwData s).trans hcw) hd he he', command_of_ok hf hbody⟩

/-! ### `MENC` (48_composite_commands.md R230) -/

theorem toNat_ofNat_version {v : Nat} (h2 : v ≤ 40) : (BitVec.ofNat 6 v).toNat = v := by
  rw [BitVec.toNat_ofNat]
  omega

theorem ofNat_version_ne_zero {v : Nat} (h1 : 1 ≤ v) (h2 : v ≤ 40) : BitVec.ofNat 6 v ≠ 0#6 := fun h => by
  have := toNat_ofNat_version h2
  rw [h] at this
  simp at this
  omega

section

variable {c : Config} {s : State} {v : Nat} {l : Level} (h1 : 1 ≤ v) (h2 : v ≤ 40)
include h1 h2

/-- After a defined version and level that the data fits, `MASM` completes with as many codewords as `MINT` asks for. -/
theorem exists_masmBody_of_fitsUnder (hec : ¬EcUndefined c v l) (hlen : ¬LenbitsUndefined c v)
    (hfit : FitsUnder c s.dinlen v l) : ∃ t cw, c.T.ec v l = some t ∧ queryEc c v l = .ok t ∧
      masmBody c (s.setVersionLevel v l) = .ok ((s.setVersionLevel v l).setCw cw) ∧ cw.length = dataCodewords t := by
  obtain ⟨t, ht, -, hquery⟩ := exists_queryEc hec
  obtain ⟨w, hw, hqlen⟩ := exists_queryLenbits hlen
  have hver : (s.setVersionLevel v l).sym.ver ≠ 0#6 := ofNat_version_ne_zero h1 h2
  have hkey : (s.setVersionLevel v l).sym.ver.toNat = v := toNat_ofNat_version h2
  have hroom : s.dinlen < 2 ^ w ∧ 4 + w + 8 * s.dinlen + 4 ≤ 8 * dataCodewords t := by
    simpa [FitsUnder, ht, hw, dataCodewords] using hfit
  have hmasm := masmBody_of_queries (c := c) (s := s.setVersionLevel v l) (t := t) (w := w) hver (by rw [hkey]; exact hquery)
    (by rw [hkey]; exact hqlen)
  rw [State.setVersionLevel_dinlen, if_pos (by simpa [fitsIn] using hroom)] at hmasm
  exact ⟨t, _, ht, hquery, hmasm, length_assemble c (by rw [length_dinData]; exact hroom.2)⟩

theorem mintBody_after_masm {t : EcEntry} {cw : List Byte} (hquery : queryEc c v l = .ok t)
    (hcw : cw.length = dataCodewords t) : mintBody c ((s.setVersionLevel v l).setCw cw) = queryRembits c v >>= fun q =>
      .ok (((s.setVersionLevel v l).setCw cw).setBits
        (finalBits c q (interleavedCodewords c t ((s.setVersionLevel v l).setCw cw).cwData))) := by
  have hkey : (s.setVersionLevel v l).sym.ver.toNat = v := toNat_ofNat_version h2
  have hmint := mintBody_of_cwlen (c := c) (s := (s.setVersionLevel v l).setCw cw) (t := t) (ofNat_version_ne_zero h1 h2)
    (by rw [State.setCw_sym, hkey]; exact hquery) hcw
  rwa [State.setCw_sym, hkey] at hmint

end

/-- After a version and level that the data fits, `MASM` and `MINT` complete. -/
theorem masm_mint_of_fits {s : State} {v : Nat} {l : Level} (hfit : DataFits s.dinlen v l) :
    ∃ cw bits, masmBody config (s.setVersionLevel v l) = .ok ((s.setVersionLevel v l).setCw cw) ∧
      mintBody config ((s.setVersionLevel v l).setCw cw) = .ok (((s.setVersionLevel v l).setCw cw).setBits bits) ∧
      (config.T.ec v l).map (fun t => t.b1 * t.d1 + t.b2 * t.d2) = some cw.length ∧ bitCount v l = some bits.length := by
  obtain ⟨h1, h2⟩ : 1 ≤ v ∧ v ≤ 40 := by
    obtain ⟨t, w, ht, -⟩ := hfit
    exact ec_config_bounds ht
  obtain ⟨t, cw, ht, hquery, hmasm, hcw⟩ := exists_masmBody_of_fitsUnder h1 h2 (not_ecUndefined_config h1 h2 l)
    (not_lenbitsUndefined_config h1 h2) hfit
  obtain ⟨he, he', hd, -⟩ := entry_config ht
  obtain ⟨q, hq, -, hrem⟩ := exists_queryRembits (not_rembitsUndefined_config h1 h2)
  have hmint := mintBody_after_masm (s := s) h1 h2 hquery hcw
  rw [hrem, ok_bind] at hmint
  refine ⟨cw, _, hmasm, hmint, by rw [ht, hcw]; rfl, ?_⟩
  rw [finalBits_config, List.length_append, length_flatMap_byteBits, List.length_replicate,
    (interleaved_interleavedCodewords ((length_cwData _).trans hcw) hd he he').1, bitCount, ht, hq]

theorem mencBody_of_firstFit {rs1 rs2 : XReg} {s : State} {l : Level} {v : Nat} (hp : s.phase = .idle)
    (h1 : 1 ≤ operand s rs1) (h40 : operand s rs1 ≤ 40) (h3 : operand s rs2 ≤ 3)
    (hfit : FirstFit s.dinlen (operand s rs1) (operand s rs2) l v) :
    ∃ cw bits, mencBody config rs1 rs2 s = .ok (((s.setVersionLevel v l).setCw cw).setBits bits) ∧
      (config.T.ec v l).map (fun t => t.b1 * t.d1 + t.b2 * t.d2) = some cw.length ∧ bitCount v l = some bits.length := by
  have hmsel := mselBody_of_firstFit hp h1 h40 h3 hfit
  obtain ⟨pre, post, -, -, hv⟩ := hfit
  obtain ⟨cw, bits, hmasm, hmint, hcw, hbits⟩ := masm_mint_of_fits hv
  exact ⟨cw, bits, by rw [mencBody, hmsel, ok_bind, hmasm, ok_bind, hmint], hcw, hbits⟩

/-- Settles O32: the pair chosen is one the data fits, under which the other two parts complete. -/
theorem mencCompletesWhenTheDataFits : Obligations.MencCompletesWhenTheDataFits := by
  intro s rs1 rs2 l v hf hp h1 h40 h3 hfit
  obtain ⟨cw, bits, hbody, hcw, hbits⟩ := mencBody_of_firstFit hp h1 h40 h3 hfit
  exact ⟨cw, bits, (exec_eq_command _ s).trans (command_of_ok hf hbody), hcw, hbits⟩

end Sys2Proof.Proofs

/-! Proofs for 48_composite_commands.md and 60_exceptions.md R241, R242: a composite command is its parts as one transaction;
an undefined value of `T` and a write outside the matrix are fatal. -/

namespace Sys2Proof.Proofs

open Sys2Proof Sys2Proof.Machine Sys2Proof.Laws Sys2Proof.Claims

/-! ### Two commands as one transaction (48_composite_commands.md R233) -/

/-- The body reads neither `ERR` nor `FINFO`, which is all that a completing command writes besides its result. -/
def IgnoresReport (body : State → Except CmdError State) : Prop :=
  ∀ s, body s.complete = (body s).map State.complete

theorem map_bind_eq {α β γ : Type} (g : β → γ) (x : Except CmdError α) (f : α → Except CmdError β) :
    (x >>= f).map g = x >>= fun a => (f a).map g := by
  cases x <;> rfl

theorem IgnoresReport.bind {a b : State → Except CmdError State} (ha : IgnoresReport a) (hb : IgnoresReport b) :
    IgnoresReport fun s => a s >>= b := fun s => by
  simp only [ha s]
  cases h : a s with
  | error e => rfl
  | ok u => exact hb u

theorem ignoresReport_masmBody (c : Config) : IgnoresReport (masmBody c) := fun s => by
  simp only [masmBody, map_bind_eq]; rfl

theorem ignoresReport_mintBody (c : Config) : IgnoresReport (mintBody c) := fun s => by
  simp only [mintBody, map_bind_eq]; rfl

theorem ignoresReport_mpatBody (c : Config) : IgnoresReport (mpatBody c) := fun s => by
  simp only [mpatBody, map_bind_eq]; rfl

theorem ignoresReport_mdataBody (c : Config) : IgnoresReport (mdataBody c) := fun s => by
  simp only [mdataBody, map_bind_eq]; rfl

theorem ignoresReport_mmarginBody (c : Config) : IgnoresReport (mmarginBody c) := fun s => by
  simp only [mmarginBody, map_bind_eq]; rfl

theorem ignoresReport_mrenderBody (c : Config) : IgnoresReport (mrenderBody c) :=
  (ignoresReport_mpatBody c).bind ((ignoresReport_mdataBody c).bind (ignoresReport_mmarginBody c))

/-- What a command does outside `FATAL`, by its report. -/
theorem command_report {body : State → Except CmdError State} {s t : State} (hf : s.fatal = false)
    (h : command body s = .next t) :
    (t.err = .ok → ∃ u, body s = .ok u ∧ t = u.complete) ∧ (t.err ≠ .ok → ∃ e, body s = .error e ∧ t = s.report e) := by
  rcases command_cases h with ⟨hfatal, -⟩ | ⟨-, u, hu, rfl⟩ | ⟨-, e, he, rfl⟩
  · rw [hf] at hfatal
    cases hfatal
  · exact ⟨fun _ => ⟨u, hu, rfl⟩, fun hne => absurd rfl hne⟩
  · exact ⟨fun hok => absurd hok (errorCode_ne_ok e), fun _ => ⟨e, he, rfl⟩⟩

section

variable {a b : State → Except CmdError State} {s s1 s2 : State} (hf : s.fatal = false)
  (h1 : command a s = .next s1)
include hf h1

theorem command_bind_of_first_fails (herr : s1.err ≠ .ok) :
    command (fun s => a s >>= b) s = .next (failedAs s s1) := by
  obtain ⟨e, he, rfl⟩ := (command_report hf h1).2 herr
  exact command_of_error hf (bind_error.2 (.inl he))

variable (ha : ∀ u, a s = .ok u → u.fatal = s.fatal) (hb : IgnoresReport b) (h2 : command b s1 = .next s2)
  (hok : s1.err = .ok)
include ha hb h2 hok

theorem command_bind_of_second_fails (herr : s2.err ≠ .ok) :
    command (fun s => a s >>= b) s = .next (failedAs s s2) := by
  obtain ⟨u, hu, rfl⟩ := (command_report hf h1).1 hok
  have hfu : u.complete.fatal = s.fatal := ha u hu
  obtain ⟨e, he, rfl⟩ := (command_report (hfu.trans hf) h2).2 herr
  have hbe : b u = .error e := by
    rw [hb u] at he
    cases hbu : b u with
    | error e' => rw [hbu] at he; exact congrArg Except.error (Except.error.inj he)
    | ok w => rw [hbu] at he; cases he
  rw [command_of_error hf (bind_error.2 (.inr ⟨u, hu, hbe⟩)), failedAs, State.report, State.report_fatal, hfu]
  rfl

theorem command_bind_of_both_complete (herr : s2.err = .ok) :
    command (fun s => a s >>= b) s = .next s2 := by
  obtain ⟨u, hu, rfl⟩ := (command_report hf h1).1 hok
  have hfu : u.complete.fatal = s.fatal := ha u hu
  obtain ⟨w, hw, rfl⟩ := (command_report (hfu.trans hf) h2).1 herr
  rw [hb u] at hw
  cases hbu : b u with
  | error e => rw [hbu] at hw; cases hw
  | ok w' =>
    rw [hbu] at hw
    have hw : w'.complete = w := Except.ok.inj hw
    rw [command_of_ok hf (bind_ok.2 ⟨u, hu, hbu⟩), ← hw]
    rfl

end

/-! ### The composite commands (48_composite_commands.md R230 to R233) -/

theorem selectFrom_eq_ok {c : Config} {n : Nat} {ps : List (Level × Nat)} {q : Level × Nat} (h : selectFrom c n ps = .ok q) :
    q ∈ ps ∧ fits c n q.2 q.1 = .ok true := by
  induction ps with
  | nil => cases h
  | cons p ps ih =>
    obtain ⟨ok, hok, h⟩ := bind_ok.1 (show (fits c n p.2 p.1 >>= fun ok => _) = .ok q from h)
    cases ok with
    | true =>
      obtain rfl := Except.ok.inj h
      exact ⟨.head _, hok⟩
    | false => exact ⟨.tail _ (ih h).1, (ih h).2⟩

/-- A completed `MSEL` has chosen a pair that the data fits. -/
theorem mselBody_dataFits {rs1 rs2 : XReg} {s u : State} (h : mselBody config rs1 rs2 s = .ok u) :
    ∃ v l, u = s.setVersionLevel v l ∧ DataFits s.dinlen v l := by
  obtain ⟨_, -, h⟩ := bind_ok.1 h
  obtain ⟨mv, hmv, h⟩ := bind_ok.1 h
  obtain ⟨ml, -, h⟩ := bind_ok.1 h
  obtain ⟨⟨l, v⟩, hsel, hu⟩ := bind_ok.1 h
  obtain ⟨hmem, hfits⟩ := selectFrom_eq_ok hsel
  rw [searchPairs_eq] at hmem
  have hbounds := bounds_of_mem_searchOrder hmem
  have h1 : 1 ≤ v := (versionOperand_eq_ok.1 hmv).1.trans hbounds.1
  classical
  rw [fits_eq (not_ecUndefined_config h1 hbounds.2 l) (not_lenbitsUndefined_config h1 hbounds.2)] at hfits
  exact ⟨v, l, (Except.ok.inj hu).symm, of_decide_eq_true (Except.ok.inj hfits)⟩

theorem menc_parts_complete {s s1 s2 s3 : State} {rs1 rs2 : XReg} (hf : s.fatal = false)
    (h1 : exec (.msel rs1 rs2) s = .next s1) (h2 : exec .masm s1 = .next s2) (h3 : exec .mint s2 = .next s3)
    (hok : s1.err = .ok) : s2.err = .ok ∧ s3.err = .ok ∧ exec (.menc rs1 rs2) s = .next s3 := by
  rw [exec_eq_command] at h1 h2 h3 ⊢
  obtain ⟨u, hu, rfl⟩ := (command_report hf h1).1 hok
  obtain ⟨v, l, rfl, hfit⟩ := mselBody_dataFits hu
  obtain ⟨cw, bits, hmasm, hmint, -, -⟩ := masm_mint_of_fits hfit
  have hmasm' : masmBody config (s.setVersionLevel v l).complete = .ok ((s.setVersionLevel v l).setCw cw).complete := by
    rw [ignoresReport_masmBody, hmasm]
    rfl
  obtain rfl := Host.Outcome.next.inj ((command_of_ok (s := (s.setVersionLevel v l).complete) hf hmasm').symm.trans h2)
  have hmint' : mintBody config ((s.setVersionLevel v l).setCw cw).complete.complete =
      .ok (((s.setVersionLevel v l).setCw cw).setBits bits).complete := by
    rw [ignoresReport_mintBody]
    exact congrArg (Except.map State.complete) ((ignoresReport_mintBody config _).trans (congrArg _ hmint))
  obtain rfl := Host.Outcome.next.inj
    ((command_of_ok (s := ((s.setVersionLevel v l).setCw cw).complete.complete) hf hmint').symm.trans h3)
  refine ⟨rfl, rfl, command_of_ok (t := ((s.setVersionLevel v l).setCw cw).setBits bits) hf ?_⟩
  exact bind_ok.2 ⟨_, hu, bind_ok.2 ⟨_, hmasm, hmint⟩⟩

/-- Settles O46: `QRENC` is two transactions in sequence, `MRENDER` one and then two; and after a completed `MSEL` the data
fits, so the rest of `MENC` completes. -/
theorem compositesAreTheirPartsAsOneTransaction : Obligations.CompositesAreTheirPartsAsOneTransaction := by
  refine ⟨fun s s1 s2 s3 rs1 rs2 hf h1 h2 h3 => ?menc, fun s s1 s2 s3 hf h1 h2 h3 => ?mrender,
    fun s s1 s2 rs1 rs2 hf h1 h2 => ?qrenc⟩
  case menc =>
    refine ⟨fun herr => ?_, menc_parts_complete hf h1 h2 h3⟩
    rw [exec_eq_command] at h1
    exact command_bind_of_first_fails hf h1 herr
  case qrenc =>
    rw [exec_eq_command] at h1 h2 ⊢
    have hkeep : ∀ u, mencBody config rs1 rs2 s = .ok u → u.fatal = s.fatal := fun u hu =>
      (bodyOf_writes (i := .menc rs1 rs2) hu).frame.fatal
    exact ⟨command_bind_of_first_fails hf h1,
      command_bind_of_second_fails hf h1 hkeep (ignoresReport_mrenderBody config) h2,
      command_bind_of_both_complete hf h1 hkeep (ignoresReport_mrenderBody config) h2⟩
  case mrender =>
    rw [exec_eq_command] at h1 h2 h3 ⊢
    have hkeep1 : ∀ u, mpatBody config s = .ok u → u.fatal = s.fatal := fun u hu =>
      (bodyOf_writes (i := .mpat) hu).frame.fatal
    have hkeep2 : ∀ u, mdataBody config s1 = .ok u → u.fatal = s1.fatal := fun u hu =>
      (bodyOf_writes (i := .mdata) hu).frame.fatal
    have hrest := (ignoresReport_mdataBody config).bind (ignoresReport_mmarginBody config)
    have hf1 : s1.err = .ok → s1.fatal = false := fun hok => by
      obtain ⟨u, hu, rfl⟩ := (command_report hf h1).1 hok
      exact (hkeep1 u hu).trans hf
    obtain ⟨t, ht⟩ := command_next (fun s => mdataBody config s >>= mmarginBody config) s1
    refine ⟨command_bind_of_first_fails hf h1, fun hok herr => ?_, fun hok hok2 herr => ?_, fun hok hok2 hok3 => ?_⟩
    · have hmid := command_bind_of_first_fails (b := mmarginBody config) (hf1 hok) h2 herr
      have hwhole := command_bind_of_second_fails hf h1 hkeep1 hrest hmid hok herr
      exact hwhole
    · have hmid := command_bind_of_second_fails (hf1 hok) h2 hkeep2 (ignoresReport_mmarginBody config) h3 hok2 herr
      have hwhole := command_bind_of_second_fails hf h1 hkeep1 hrest hmid hok herr
      exact hwhole
    · have hmid := command_bind_of_both_complete (hf1 hok) h2 hkeep2 (ignoresReport_mmarginBody config) h3 hok2 hok3
      exact command_bind_of_both_complete hf h1 hkeep1 hrest hmid hok hok3

end Sys2Proof.Proofs

/-! Proofs for 60_exceptions.md R242: an undefined value of `T` is reported by the command that queries it, whatever `T` is. -/

namespace Sys2Proof.Proofs

open Sys2Proof Sys2Proof.Machine Sys2Proof.Laws Sys2Proof.Claims

/-! ### Failing queries (60_exceptions.md R242) -/

theorem command_of_lookup {body : State → Except CmdError State} {s : State} {table v : Nat} {l : Level} (hf : s.fatal = false)
    (h : body s = .error (.malformedLookup table v l)) : command body s = .next (lookupReport s table v l) := by
  rw [command_of_error hf h, State.report, lookupReport, hf]
  rfl

section

variable {c : Config} {s : State} (hv : s.sym.ver ≠ 0#6)
include hv

theorem masmBody_of_ecUndefined (h : EcUndefined c s.sym.ver.toNat s.sym.lvl) :
    masmBody c s = .error (.malformedLookup 1 s.sym.ver.toNat s.sym.lvl) := by
  rw [masmBody, chosenVersion_of_ne hv, ok_bind, queryEc_of_undefined h, error_bind]

theorem masmBody_of_lenbitsUndefined (hec : ¬EcUndefined c s.sym.ver.toNat s.sym.lvl)
    (h : LenbitsUndefined c s.sym.ver.toNat) : masmBody c s = .error (.malformedLookup 2 s.sym.ver.toNat .L) := by
  obtain ⟨t, -, -, hquery⟩ := exists_queryEc hec
  rw [masmBody, chosenVersion_of_ne hv, ok_bind, hquery, ok_bind, queryLenbits_of_undefined h, error_bind]

theorem mintBody_of_ecUndefined (h : EcUndefined c s.sym.ver.toNat s.sym.lvl) :
    mintBody c s = .error (.malformedLookup 1 s.sym.ver.toNat s.sym.lvl) := by
  rw [mintBody, chosenVersion_of_ne hv, ok_bind, queryEc_of_undefined h, error_bind]

theorem mintBody_of_rembitsUndefined (hec : ¬EcUndefined c s.sym.ver.toNat s.sym.lvl)
    (h : RembitsUndefined c s.sym.ver.toNat)
    (hcw : ∀ t, c.T.ec s.sym.ver.toNat s.sym.lvl = some t → s.cwlen = t.b1 * t.d1 + t.b2 * t.d2) :
    mintBody c s = .error (.malformedLookup 3 s.sym.ver.toNat .L) := by
  obtain ⟨t, ht, -, hquery⟩ := exists_queryEc hec
  rw [mintBody_of_cwlen hv hquery (hcw t ht), queryRembits_of_undefined h, error_bind]

theorem mpatBody_of_alignUndefined (hp : s.phase = .idle) (hmin : c.alignMinVersion ≤ s.sym.ver.toNat)
    (h : c.T.align s.sym.ver.toNat = none) : mpatBody c s = .error (.malformedLookup 4 s.sym.ver.toNat .L) := by
  have hquery : queryAlign c s.sym.ver.toNat = .error (.malformedLookup 4 s.sym.ver.toNat .L) := by
    simp only [queryAlign, h]
  rw [mpatBody, needPhase_of_eq hp, ok_bind, chosenVersion_of_ne hv, ok_bind, alignmentList, if_pos hmin, hquery, error_bind]

end

theorem mencBody_of_msel_error {c : Config} {rs1 rs2 : XReg} {s : State} {e : CmdError}
    (h : mselBody c rs1 rs2 s = .error e) : mencBody c rs1 rs2 s = .error e := by
  rw [mencBody, h, error_bind]

theorem qrencBody_of_menc_error {c : Config} {rs1 rs2 : XReg} {s : State} {e : CmdError}
    (h : mencBody c rs1 rs2 s = .error e) : qrencBody c rs1 rs2 s = .error e := by
  rw [qrencBody, h, error_bind]

theorem mrenderBody_of_mpat_error {c : Config} {s : State} {e : CmdError} (h : mpatBody c s = .error e) :
    mrenderBody c s = .error e := by
  rw [mrenderBody, h, error_bind]

theorem search_commands_lookup {c : Config} {rs1 rs2 : XReg} {s : State} {table v : Nat} {l : Level} (hf : s.fatal = false)
    (h : mselBody c rs1 rs2 s = .error (.malformedLookup table v l)) :
    command (mselBody c rs1 rs2) s = .next (lookupReport s table v l) ∧
      command (mencBody c rs1 rs2) s = .next (lookupReport s table v l) ∧
      command (qrencBody c rs1 rs2) s = .next (lookupReport s table v l) :=
  ⟨command_of_lookup hf h, command_of_lookup hf (mencBody_of_msel_error h),
    command_of_lookup hf (qrencBody_of_menc_error (mencBody_of_msel_error h))⟩

/-- Settles O49: each command up to its first failing query; the search up to the first pair that is not passed over. -/
theorem malformedLookupIsFatalForEveryTable : Obligations.MalformedLookupIsFatalForEveryTable := by
  intro c s hf
  refine ⟨fun hv => ⟨fun hec => ?_, fun hec hlen => ?_⟩, fun hv => ⟨fun hec => ?_, fun hec hrem hcw => ?_⟩,
    fun hv hp hmin halign => ?mpat, fun hp rs1 rs2 pre l v post h1 h40 h3 horder hpre => ?search⟩
  · exact command_of_lookup hf (masmBody_of_ecUndefined hv hec)
  · exact command_of_lookup hf (masmBody_of_lenbitsUndefined hv hec hlen)
  · exact command_of_lookup hf (mintBody_of_ecUndefined hv hec)
  · exact command_of_lookup hf (mintBody_of_rembitsUndefined hv hec hrem hcw)
  case mpat =>
    have hbody := mpatBody_of_alignUndefined hv hp hmin halign
    exact ⟨command_of_lookup hf hbody, command_of_lookup hf (mrenderBody_of_mpat_error hbody)⟩
  case search =>
    have hmsel := mselBody_of_search (c := c) hp h1 h40 h3
    rw [horder, selectFrom_append hpre] at hmsel
    refine ⟨fun hec => ?ec, fun hec hlen => ?lenbits, fun hec hlen hfit => ?fits⟩
    case ec =>
      rw [selectFrom_of_error (fits_of_ecUndefined hec _), error_bind] at hmsel
      exact search_commands_lookup hf hmsel
    case lenbits =>
      rw [selectFrom_of_error (fits_of_lenbitsUndefined hec hlen _), error_bind] at hmsel
      exact search_commands_lookup hf hmsel
    case fits =>
      rw [selectFrom_of_fits (fits_of_fitsUnder hec hlen hfit), ok_bind] at hmsel
      have hmem : (l, v) ∈ searchOrder (operand s rs1) (operand s rs2) := by rw [horder]; simp
      have hbounds := bounds_of_mem_searchOrder hmem
      have hv1 : 1 ≤ v := h1.trans hbounds.1
      obtain ⟨t, cw, -, hquery, hmasm, hcw⟩ := exists_masmBody_of_fitsUnder hv1 hbounds.2 hec hlen hfit
      have hmint := mintBody_after_masm (s := s) hv1 hbounds.2 hquery hcw
      have hmenc : mencBody c rs1 rs2 s = mintBody c ((s.setVersionLevel v l).setCw cw) := by
        rw [mencBody, hmsel, ok_bind, hmasm, ok_bind]
      refine ⟨fun hrem => ?_, fun hrem hmin halign => ?_⟩
      · rw [hmint, queryRembits_of_undefined hrem, error_bind] at hmenc
        exact ⟨command_of_lookup hf hmenc, command_of_lookup hf (qrencBody_of_menc_error hmenc)⟩
      · obtain ⟨q, -, -, hq⟩ := exists_queryRembits hrem
        rw [hmint, hq, ok_bind] at hmenc
        have hkey : (s.setVersionLevel v l).sym.ver.toNat = v := toNat_ofNat_version hbounds.2
        obtain ⟨bits, hbits⟩ :
            ∃ bits, finalBits c q (interleavedCodewords c t ((s.setVersionLevel v l).setCw cw).cwData) = bits := ⟨_, rfl⟩
        rw [hbits] at hmenc
        have hmpat := mpatBody_of_alignUndefined (c := c) (s := ((s.setVersionLevel v l).setCw cw).setBits bits)
          (ofNat_version_ne_zero hv1 hbounds.2) hp (hkey.symm ▸ hmin) (hkey.symm ▸ halign)
        rw [State.setBits_sym, State.setCw_sym, hkey] at hmpat
        refine command_of_lookup hf ?_
        rw [qrencBody, hmenc, ok_bind, mrenderBody_of_mpat_error hmpat]

end Sys2Proof.Proofs

/-! Proofs for 46_matrix_patterns.md R195 to R197 and 60_exceptions.md R241: the writes of `MPAT` under the standard tables, and
the overflow of a centre that lies too near the edge. -/

namespace Sys2Proof.Proofs

open Sys2Proof Sys2Proof.Machine Sys2Proof.Laws Sys2Proof.Claims

/-! ### Writes inside the matrix (46_matrix_patterns.md R195) -/

theorem inside_iff {size : Nat} {p : Put} :
    p.inside size = true ↔ 0 ≤ p.col ∧ 0 ≤ p.row ∧ p.col < size ∧ p.row < size := by
  simp only [Put.inside, Bool.and_eq_true, decide_eq_true_eq, and_assoc]

/-- A write inside the matrix names the cell of natural coordinates that is written. -/
theorem toNat_eq_iff_of_inside {size : Nat} {p : Put} (h : p.inside size = true) (c r : Nat) :
    (p.col.toNat = c ∧ p.row.toNat = r) ↔ p.col = (c : Int) ∧ p.row = (r : Int) := by
  obtain ⟨hc, hr, -, -⟩ := inside_iff.1 h
  omega

theorem align_config {v : Nat} (h1 : 1 ≤ v) (h2 : v ≤ 40) : config.T.align v = some (alignRows.getD (v - 1) []) := by
  have h := queryAlign_config h1 h2
  unfold queryAlign at h
  split at h
  · next ls hls => rw [hls, Except.ok.inj h]
  · cases h

section

variable {s : State} (hv : s.sym.ver ≠ 0#6) (h40 : s.sym.ver.toNat ≤ 40)

theorem one_le_version (hv : s.sym.ver ≠ 0#6) : 1 ≤ s.sym.ver.toNat :=
  Nat.one_le_iff_ne_zero.2 fun h => hv (BitVec.eq_of_toNat_eq h)

include hv h40

theorem alignmentList_eq : alignmentList config s.sym.ver.toNat =
    .ok (if 2 ≤ s.sym.ver.toNat then (config.T.align s.sym.ver.toNat).getD [] else []) := by
  rw [alignmentList_config (one_le_version hv) h40, align_config (one_le_version hv) h40, Option.getD_some]

/-- Under the standard tables no write of `MPAT` leaves the matrix. -/
theorem patternWrites_inside : ∀ p ∈ patternWrites s, p.inside (symbolSize s.sym.ver.toNat) = true := by
  refine patternPuts_inside _ _ fun a ha => ?_
  rw [align_config (one_le_version hv) h40, Option.getD_some] at ha
  split at ha
  · exact alignRows_bounds (one_le_version hv) h40 ha
  · cases ha

theorem mpatBody_config (hp : s.phase = .idle) : mpatBody config s =
    .ok (s.setMatrix (putsApplied (patternWrites s) s.mat) (symbolSize s.sym.ver.toNat) .patternsPlaced) := by
  have hput : putAll (symbolSize s.sym.ver.toNat) (patternWrites s) s.mat = .ok _ :=
    putAll_of_inside (patternWrites_inside hv h40) s.mat
  rw [mpatBody, needPhase_of_eq hp, ok_bind, chosenVersion_of_ne hv, ok_bind, alignmentList_eq hv h40, ok_bind]
  rw [patternWrites] at hput ⊢
  rw [hput, ok_bind]

end

/-- Settles O39: the writes are all inside the matrix, so each takes effect and the last one at a cell stays. -/
theorem mpatPlacesThePatterns : Obligations.MpatPlacesThePatterns := by
  intro s hf
  rw [exec_eq_command]
  refine ⟨fun hp => command_of_error hf (bind_error.2 (.inl (needPhase_of_ne hp 1))), fun hp => ⟨fun hv => ?_, ?_⟩⟩
  · exact command_of_error hf
      (bind_error.2 (.inr ⟨(), needPhase_of_eq hp 1, bind_error.2 (.inl (chosenVersion_of_zero hv))⟩))
  · rintro ⟨hv, h40⟩
    have hinside := patternWrites_inside hv h40
    refine ⟨_, command_of_ok hf (mpatBody_config hv h40 hp), fun pre p post hsplit hlast => ?_, fun c r hnone => ?_⟩
    · have hp := hinside p (by rw [hsplit]; simp)
      obtain ⟨hc, hr, hc', hr'⟩ := inside_iff.1 hp
      refine ⟨p.col.toNat, p.row.toNat, (Int.toNat_of_nonneg hc).symm, (Int.toNat_of_nonneg hr).symm,
        (Int.toNat_lt hc).2 hc', (Int.toNat_lt hr).2 hr', ?_⟩
      rw [hsplit]
      refine matRead_putsApplied_last (fun q hq => ?_) s.mat
      rw [toNat_eq_iff_of_inside (hinside q (by rw [hsplit]; simp [hq])), Int.toNat_of_nonneg hc, Int.toNat_of_nonneg hr]
      exact hlast q hq
    · refine matRead_putsApplied_of_forall_ne (fun p hp => ?_) s.mat
      rw [toNat_eq_iff_of_inside (hinside p hp)]
      exact hnone p hp

/-! ### A centre too near the edge (60_exceptions.md R241) -/

/-- Writes of one region, some of them outside: the overflow names the region. -/
theorem putAll_of_exists_outside {size region : Nat} {ps : List Put} (hregion : ∀ p ∈ ps, p.region = region)
    (hout : ∃ p ∈ ps, p.inside size = false) (qs : List Put) (m : Matrix) :
    putAll size (ps ++ qs) m = .error (.placementOverflow region) := by
  induction ps generalizing m with
  | nil => obtain ⟨p, hp, -⟩ := hout; cases hp
  | cons p ps ih =>
    rw [List.forall_mem_cons] at hregion
    rw [List.cons_append, putAll, putCell]
    by_cases hp : p.inside size = true
    · rw [if_pos hp, ok_bind]
      refine ih hregion.2 ?_ _
      obtain ⟨q, hq, hqout⟩ := hout
      rcases List.mem_cons.1 hq with rfl | hq
      · rw [hp] at hqout
        cases hqout
      · exact ⟨q, hq, hqout⟩
    · rw [if_neg hp, error_bind, hregion.1]

theorem putAll_append {size : Nat} {ps : List Put} (h : ∀ p ∈ ps, p.inside size = true) (qs : List Put) (m : Matrix) :
    putAll size (ps ++ qs) m = putAll size qs (putsApplied ps m) := by
  induction ps generalizing m with
  | nil => rfl
  | cons p ps ih =>
    rw [List.forall_mem_cons] at h
    rw [List.cons_append, putAll, putCell, if_pos h.1, ok_bind, ih h.2]
    rfl

/-- The writes before the alignment patterns (46_matrix_patterns.md R198 to R201). -/
def cornerPuts (size : Nat) : List Put :=
  finderTopLeft ++ finderTopRight size ++ finderBottomLeft size ++ darkModule size

theorem patternPuts_eq_append (c : Config) (v : Nat) (l : Level) (mask : BitVec 3) (ls : List Nat) :
    ∃ rest, patternPuts c v l mask ls = cornerPuts (symbolSize v) ++ (alignmentPatterns (symbolSize v) ls ++ rest) :=
  ⟨timingPatterns (symbolSize v) ++ (formatPatterns (symbolSize v) (formatString c l mask.toNat) ++
      if 7 ≤ v then versionPatterns (symbolSize v) (versionString c v) else []),
    by simp only [patternPuts, cornerPuts, List.append_assoc]⟩

theorem cornerPuts_inside (v : Nat) : ∀ p ∈ cornerPuts (symbolSize v), p.inside (symbolSize v) = true := by
  obtain ⟨rest, hrest⟩ := patternPuts_eq_append config v .L 0#3 []
  refine fun p hp => patternPuts_inside (v := v) .L 0#3 (ls := []) (fun a ha => absurd ha List.not_mem_nil) p ?_
  rw [hrest]
  exact List.mem_append_left _ hp

theorem region_of_mem_alignmentPatterns {size : Nat} {ls : List Nat} {p : Put} (h : p ∈ alignmentPatterns size ls) :
    p.region = 5 := by
  obtain ⟨q, -, h⟩ := List.mem_flatMap.1 h
  obtain ⟨dr, -, h⟩ := List.mem_flatMap.1 h
  obtain ⟨dc, -, rfl⟩ := List.mem_map.1 h
  rfl

/-- A lone centre at or beyond the last place inside is not skipped, and the far corner of its square is outside. -/
theorem exists_outside_alignmentPatterns {size a : Nat} (hsize : 21 ≤ size) (ha : size ≤ a + 2) :
    ∃ p ∈ alignmentPatterns size [a], p.inside size = false := by
  have hcentre : ((a : Int), (a : Int)) ∈ alignmentCentres size [a] := by
    simp only [alignmentCentres, List.mem_filter, Bool.not_eq_true', overlapsFinder, Bool.or_eq_false_iff,
      Bool.and_eq_false_iff, decide_eq_false_iff_not]
    exact ⟨by simp, by omega⟩
  refine ⟨{ col := a + 2, row := a + 2, val := .dark, region := 5 }, List.mem_flatMap.2 ⟨_, hcentre, ?_⟩, ?_⟩
  · exact List.mem_flatMap.2 ⟨2, by decide, List.mem_map.2 ⟨2, by decide, rfl⟩⟩
  · rw [← Bool.not_eq_true, inside_iff]
    simp only
    omega

/-- Settles O50: the corners are inside, and among the writes of the alignment pattern that follow one is outside. -/
theorem placementOverflowIsFatal : Obligations.PlacementOverflowIsFatal := by
  intro c s a hf hp hv hmin halign ha
  have hquery : queryAlign c s.sym.ver.toNat = .ok [a] := by simp only [queryAlign, halign]
  have hput : ∀ m, putAll (symbolSize s.sym.ver.toNat)
      (patternPuts c s.sym.ver.toNat s.sym.lvl s.sym.mask [a]) m = .error (.placementOverflow 5) := fun m => by
    obtain ⟨rest, hrest⟩ := patternPuts_eq_append c s.sym.ver.toNat s.sym.lvl s.sym.mask [a]
    rw [hrest, putAll_append (cornerPuts_inside _)]
    exact putAll_of_exists_outside (fun p => region_of_mem_alignmentPatterns)
      (exists_outside_alignmentPatterns (Nat.le_add_right _ _) ha) rest _
  have hbody : mpatBody c s = .error (.placementOverflow 5) := by
    rw [mpatBody, needPhase_of_eq hp, ok_bind, chosenVersion_of_ne hv, ok_bind, alignmentList, if_pos hmin, hquery, ok_bind,
      hput, error_bind]
  rw [command_of_error hf hbody, State.report, hf]
  rfl

end Sys2Proof.Proofs

/-! Proofs for 47_data_placement.md R216, R219 to R222: `MDATA` fills the free cells in order, `MMARGIN` frames the symbol. -/

namespace Sys2Proof.Proofs

open Sys2Proof Sys2Proof.Machine Sys2Proof.Laws Sys2Proof.Claims

/-! ### No coordinate twice, at any size (47_data_placement.md R216) -/

/-- Two pairs have no column in common: their left columns stand two apart at least. -/
theorem pairLeft_add_two_le {size k k' : Nat} (hk : k < k') (hk' : k' < (size - 1) / 2) :
    pairLeft size k' + 2 ≤ pairLeft size k := by
  unfold pairLeft
  split <;> split <;> omega

theorem mem_pairCells {size k c r : Nat} (h : (c, r) ∈ pairCells size k) : c = pairLeft size k + 1 ∨ c = pairLeft size k := by
  obtain ⟨r', -, h⟩ := List.mem_flatMap.1 h
  simp only [rowCells, List.mem_cons, Prod.mk.injEq, List.not_mem_nil, or_false] at h
  exact h.imp And.left And.left

theorem nodup_pairCells (size k : Nat) : (pairCells size k).Nodup := by
  have hrows : (pairRows size k).Nodup := by
    unfold pairRows
    split
    · exact List.nodup_reverse.2 List.nodup_range
    · exact List.nodup_range
  refine List.nodup_flatMap.2 ⟨fun r _ => by simp [rowCells], hrows.imp fun hne => ?_⟩
  simp [Function.onFun, rowCells, hne.symm]

theorem nodup_zigzag_of_any_size (size : Nat) : (zigzag size).Nodup := by
  rw [zigzag_eq_flatMap]
  refine List.nodup_flatMap.2 ⟨fun k _ => nodup_pairCells size k, ?_⟩
  refine List.pairwise_iff_getElem.2 fun i j hi hj hij => ?_
  rw [List.length_range] at hi hj
  simp only [Function.onFun, List.getElem_range]
  rintro ⟨c, r⟩ hi' hj'
  have := pairLeft_add_two_le hij hj
  have := mem_pairCells hi'
  have := mem_pairCells hj'
  omega

/-! ### The loop of `MDATA` (47_data_placement.md R219) -/

/-- The free cells among coordinates, in their order. -/
def freeAmong (m : Matrix) (ps : List (Nat × Nat)) : List (Nat × Nat) := ps.filter fun p => matRead m p.1 p.2 = .unset

theorem freeCells_eq_freeAmong (m : Matrix) (size : Nat) : freeCells m size = freeAmong m (zigzag size) := rfl

theorem freeAmong_matWrite_of_not_mem {m : Matrix} {c r : Nat} {ps : List (Nat × Nat)} (h : (c, r) ∉ ps) (v : Cell) :
    freeAmong (matWrite m c r v) ps = freeAmong m ps := by
  refine List.filter_congr fun p hp => ?_
  have hne : ¬(p.1 = c ∧ p.2 = r) := by
    rintro ⟨rfl, rfl⟩
    exact h hp
  rw [matRead_matWrite, if_neg hne]

theorem freeAmong_cons_of_set {m : Matrix} {c r : Nat} (h : matRead m c r ≠ .unset) (ps : List (Nat × Nat)) :
    freeAmong m ((c, r) :: ps) = freeAmong m ps := List.filter_cons_of_neg (by simpa using h)

theorem freeAmong_cons_of_unset {m : Matrix} {c r : Nat} (h : matRead m c r = .unset) (ps : List (Nat × Nat)) :
    freeAmong m ((c, r) :: ps) = (c, r) :: freeAmong m ps := List.filter_cons_of_pos (by simpa using h)

section

variable (cfg : Config) (mask : BitVec 3)

/-- The `j`-th free cell takes the `j`-th bit, masked. -/
theorem matRead_placeBits_freeAmong {ps : List (Nat × Nat)} (hn : ps.Nodup) (bs : List Bool) (m : Matrix) {j c r : Nat} {b : Bool}
    (hq : (freeAmong m ps)[j]? = some (c, r)) (hb : bs[j]? = some b) :
    matRead (placeBits cfg mask ps bs m).1 c r = colour (maskBit cfg mask c r b) := by
  induction ps generalizing bs m j with
  | nil => simp [freeAmong] at hq
  | cons p ps ih =>
    obtain ⟨c', r'⟩ := p
    rw [List.nodup_cons] at hn
    cases bs with
    | nil => simp at hb
    | cons b' bs =>
      rw [placeBits]
      split
      · next hset => exact ih hn.2 (b' :: bs) m (by rwa [freeAmong_cons_of_set hset] at hq) hb
      · next hfree =>
        rw [freeAmong_cons_of_unset (not_not.1 hfree)] at hq
        cases j with
        | zero =>
          simp only [List.getElem?_cons_zero, Option.some.injEq, Prod.mk.injEq] at hq hb
          obtain ⟨⟨rfl, rfl⟩, rfl⟩ := And.intro hq hb
          rw [matRead_placeBits_of_not_mem _ _ _ _ _ hn.1, matRead_matWrite, if_pos ⟨rfl, rfl⟩]
        | succ j =>
          refine ih hn.2 bs _ ?_ hb
          rwa [freeAmong_matWrite_of_not_mem hn.1]

/-- A cell that is not among the free cells the bits reach keeps its value. -/
theorem matRead_placeBits_of_not_mem_take {ps : List (Nat × Nat)} (hn : ps.Nodup) (bs : List Bool) (m : Matrix) {c r : Nat}
    (h : (c, r) ∉ (freeAmong m ps).take bs.length) : matRead (placeBits cfg mask ps bs m).1 c r = matRead m c r := by
  induction ps generalizing bs m with
  | nil => cases bs <;> rfl
  | cons p ps ih =>
    obtain ⟨c', r'⟩ := p
    rw [List.nodup_cons] at hn
    cases bs with
    | nil => rfl
    | cons b bs =>
      rw [placeBits]
      split
      · next hset => exact ih hn.2 (b :: bs) m (by rwa [freeAmong_cons_of_set hset] at h)
      · next hfree =>
        rw [freeAmong_cons_of_unset (not_not.1 hfree), List.length_cons, List.take_succ_cons, List.mem_cons, not_or] at h
        rw [ih hn.2 bs _ (by rw [freeAmong_matWrite_of_not_mem hn.1]; exact h.2), matRead_matWrite, if_neg]
        rintro ⟨rfl, rfl⟩
        exact h.1 rfl

end

theorem length_placeBits_zigzag (cfg : Config) (mask : BitVec 3) (size : Nat) (bs : List Bool) (m : Matrix) :
    (placeBits cfg mask (zigzag size) bs m).2.length = bs.length - (freeCells m size).length :=
  length_placeBits_left cfg mask _ bs m (nodup_zigzag_of_any_size size)

theorem mdataBody_of_patternsPlaced {c : Config} {s : State} (hp : s.phase = .patternsPlaced) : mdataBody c s =
    if s.bitlen ≤ (freeCells s.mat s.matsize).length then
      .ok (s.setMatrix (placeBits c s.sym.mask (zigzag s.matsize) s.bitData s.mat).1 s.matsize .dataInserted)
    else .error (.layoutMismatch 1) := by
  rw [mdataBody, needPhase_of_eq hp, ok_bind]
  extract_lets placed
  have hleft : placed.2.length = s.bitlen - (freeCells s.mat s.matsize).length := by
    rw [← length_bitData s]
    exact length_placeBits_zigzag c s.sym.mask s.matsize s.bitData s.mat
  split
  · next hle =>
    have hempty : placed.2.isEmpty = true := by
      rw [List.isEmpty_iff_length_eq_zero]
      omega
    rw [hempty, check_true, ok_bind]
  · next hgt =>
    have hleftover : placed.2.isEmpty = false := by
      rw [← Bool.not_eq_true, List.isEmpty_iff_length_eq_zero]
      omega
    rw [check_eq_error.2 ⟨hleftover, rfl⟩, error_bind]

theorem getElem?_bitData {s : State} {j : Nat} (h : j < s.bitlen) : s.bitData[j]? = some (Memory.read false s.bits j) := by
  simp [State.bitData, Memory.slice, h]

/-- Settles O44: no coordinate comes twice, so the bits go to the free cells one by one. -/
theorem mdataFillsTheFreeCellsInOrder : Obligations.MdataFillsTheFreeCellsInOrder := by
  intro s hf
  rw [exec_eq_command]
  refine ⟨fun hp => command_of_error hf (bind_error.2 (.inl (needPhase_of_ne hp 2))), fun hp => ?_⟩
  have hbody := mdataBody_of_patternsPlaced (c := config) hp
  refine ⟨fun hgt => command_of_error hf (hbody.trans (if_neg (Nat.not_le_of_gt hgt))), fun hle => ?_⟩
  refine ⟨_, command_of_ok hf (hbody.trans (if_pos hle)), fun j hj q hq => ?_, fun c r hcr => ?_⟩
  · rw [matRead_placeBits_freeAmong config s.sym.mask (nodup_zigzag_of_any_size _) s.bitData s.mat hq (getElem?_bitData hj),
      maskBit_config]
    rfl
  · exact matRead_placeBits_of_not_mem_take config s.sym.mask (nodup_zigzag_of_any_size _) s.bitData s.mat
      (by rwa [length_bitData])

/-! ### The margin (47_data_placement.md R222) -/

theorem matComplete_iff (m : Matrix) (size : Nat) :
    matComplete m size = true ↔ ∀ c < size, ∀ r < size, matRead m c r ≠ .unset := by
  simp only [matComplete, List.all_eq_true, List.mem_range, decide_eq_true_eq]
  exact ⟨fun h c hc r hr => h r hr c hc, fun h r hr c hc => h c hc r hr⟩

theorem framedCell_of_core (margin size : Nat) (m : Matrix) {c r : Nat} (hc : c < size) (hr : r < size) :
    framedCell margin size m (c + margin) (r + margin) = matRead m c r := by
  rw [framedCell, if_pos (by omega), Nat.add_sub_cancel, Nat.add_sub_cancel]

theorem framedCell_of_not_core {margin size c r : Nat} (m : Matrix)
    (h : ¬(margin ≤ c ∧ c < margin + size ∧ margin ≤ r ∧ r < margin + size)) : framedCell margin size m c r = .light :=
  if_neg h

theorem mmarginBody_of_complete {cfg : Config} {s : State} (hp : s.phase = .dataInserted)
    (h : ∀ c < s.matsize, ∀ r < s.matsize, matRead s.mat c r ≠ .unset) : mmarginBody cfg s =
      .ok (s.setMatrix (matFill (s.matsize + 2 * cfg.margin) (framedCell cfg.margin s.matsize s.mat) s.mat)
        (s.matsize + 2 * cfg.margin) .marginApplied) := by
  rw [mmarginBody, needPhase_of_eq hp, ok_bind, (matComplete_iff _ _).2 h, check_true, ok_bind]

theorem mmarginBody_of_unset {cfg : Config} {s : State} (hp : s.phase = .dataInserted)
    (h : ∃ c < s.matsize, ∃ r < s.matsize, matRead s.mat c r = .unset) : mmarginBody cfg s = .error (.layoutMismatch 2) := by
  have hno : matComplete s.mat s.matsize = false := by
    rw [← Bool.not_eq_true, matComplete_iff]
    obtain ⟨c, hc, r, hr, hcr⟩ := h
    exact fun hall => hall c hc r hr hcr
  rw [mmarginBody, needPhase_of_eq hp, ok_bind, check_eq_error.2 ⟨hno, rfl⟩, error_bind]

/-- Settles O45: the fill of the larger square, read back cell by cell. -/
theorem mmarginFramesTheSymbol : Obligations.MmarginFramesTheSymbol := by
  intro s hf
  rw [exec_eq_command]
  refine ⟨fun hp => command_of_error hf (bind_error.2 (.inl (needPhase_of_ne hp 3))), fun hp =>
    ⟨fun hunset => command_of_error hf (mmarginBody_of_unset hp hunset), fun hset =>
      ⟨_, command_of_ok hf (mmarginBody_of_complete hp hset), fun c hc r hr => ?_, fun c hc r hr hframe => ?_,
        fun c r hout => ?_⟩⟩⟩
  · rw [matRead_matFill, if_pos (by change c + 4 < s.matsize + 8 ∧ r + 4 < s.matsize + 8; omega)]
    exact framedCell_of_core 4 _ _ hc hr
  · rw [matRead_matFill, if_pos ⟨hc, hr⟩]
    exact framedCell_of_not_core (margin := 4) _ (by omega)
  · exact (matRead_matFill _ _ _ c r).trans (if_neg hout)

end Sys2Proof.Proofs

/-! Proofs for 10_state.md sections 3, 6 and 7: what every step keeps of the invariant. -/

namespace Sys2Proof.Proofs

open Sys2Proof Sys2Proof.Machine Sys2Proof.Safety
open Sys2Proof.Laws hiding Descending
open Sys2Proof.Claims

/-! ### Storage arrays within their capacity (10_state.md R24, R41 to R44) -/

theorem storeWf_splice {α : Type} [DecidableEq α] {d : α} {cap : Nat} {m : Memory α} (h : storeWf d cap m) {vs : List α}
    (hvs : vs.length ≤ cap) : storeWf d cap (Memory.splice d m 0 vs) :=
  ⟨wf_splice h.1 0 vs, keys_splice h.2 0 vs (by omega)⟩

theorem storeWf_write {α : Type} [DecidableEq α] {d : α} {cap : Nat} {m : Memory α} (h : storeWf d cap m) {k : Nat}
    (hk : k < cap) (v : α) : storeWf d cap (Memory.write d m k v) :=
  ⟨wf_write h.1 k v, keys_splice h.2 k [v] hk⟩

section

variable {s : State} (h : StoresInv s)
include h

theorem storesInv_setPoly (pd : PReg) {ts : List Term} (hts : ts.length ≤ 256) : StoresInv (s.setPoly pd ts) := by
  obtain ⟨hp, hrest⟩ := h
  refine ⟨fun i => ?_, hrest⟩
  rw [State.getPoly_setPoly]
  split
  · exact ⟨hts, storeWf_splice (hp pd).2 (by rwa [List.length_map])⟩
  · exact hp i

theorem storesInv_setEcc {vs : List Byte} (hvs : vs.length ≤ 254) : StoresInv (s.setEcc vs) := by
  obtain ⟨hp, hdinlen, hdin, hcwlen, hcw, -, hecc, hbits⟩ := h
  exact ⟨hp, hdinlen, hdin, hcwlen, hcw, hvs, storeWf_splice hecc (hvs.trans (by decide)), hbits⟩

theorem storesInv_setCw {vs : List Byte} (hvs : vs.length ≤ 4096) : StoresInv (s.setCw vs) := by
  obtain ⟨hp, hdinlen, hdin, -, hcw, hrest⟩ := h
  exact ⟨hp, hdinlen, hdin, hvs, storeWf_splice hcw hvs, hrest⟩

theorem storesInv_setBits {bs : List Bool} (hbs : bs.length ≤ 32768) : StoresInv (s.setBits bs) := by
  obtain ⟨hp, hdinlen, hdin, hcwlen, hcw, hecclen, hecc, -, hbits⟩ := h
  exact ⟨hp, hdinlen, hdin, hcwlen, hcw, hecclen, hecc, hbs, storeWf_splice hbits hbs⟩

theorem length_poly_le (i : PReg) : (s.poly i).length ≤ 256 := by
  rw [State.poly, PolyReg.value, List.length_map, length_slice]
  exact (h.1 i).1

end

/-! ### The matrix (10_state.md R46) -/

section

variable {s : State} (h : MatrixInv config s)
include h

theorem matrixInv_setVersionLevel (hp : s.phase = .idle) {v : Nat} (hv : v ≤ 40) (l : Level) :
    MatrixInv config (s.setVersionLevel v l) := by
  obtain ⟨hwf, hbounds, -, hsize, -, -⟩ := h
  refine ⟨hwf, hbounds, (toNat_ofNat_version hv).trans_le hv, ?_, fun hne => absurd hp hne, fun hne => ?_⟩
  · rw [State.setVersionLevel_matsize, hsize, State.setVersionLevel_phase, hp]
    rfl
  · rw [State.setVersionLevel_phase, hp] at hne
    cases hne

theorem unset_outside {c r : Nat} (hcr : ¬(c < s.matsize ∧ r < s.matsize)) : matRead s.mat c r = .unset :=
  (matBounds_iff h.1 s.matsize).1 h.2.1 c r hcr

/-- The matrix a render command leaves, of the size its phase gives and with nothing set outside. -/
theorem matrixInv_setMatrix {m : Matrix} {n : Nat} {ph : Phase} (hwf : matWf m)
    (hout : ∀ c r, ¬(c < n ∧ r < n) → matRead m c r = .unset) (hn : n = expectedSize config ph s.sym.ver.toNat)
    (hv : s.sym.ver ≠ 0#6) (hcomplete : ph = .marginApplied → matComplete m n = true) :
    MatrixInv config (s.setMatrix m n ph) :=
  ⟨hwf, (matBounds_iff hwf n).2 hout, h.2.2.1, hn, fun _ => hv, hcomplete⟩

theorem version_ne_zero (hp : s.phase ≠ .idle) : s.sym.ver ≠ 0#6 := h.2.2.2.2.1 hp

theorem matsize_of_started (hp : s.phase = .patternsPlaced ∨ s.phase = .dataInserted) :
    s.matsize = symbolSize s.sym.ver.toNat := by
  rcases hp with hp | hp <;> rw [h.2.2.2.1, hp] <;> rfl

theorem matrixInv_mpat {u : State} (hu : mpatBody config s = .ok u) : MatrixInv config u := by
  obtain ⟨hp, -⟩ := mpatBody_eq_ok hu
  obtain ⟨-, -, hu'⟩ := bind_ok.1 hu
  obtain ⟨_, hchosen, -⟩ := bind_ok.1 hu'
  have hv := (chosenVersion_eq_ok.1 hchosen).1
  have h40 := h.2.2.1
  have hold : s.matsize = 0 := by rw [h.2.2.2.1, hp]; rfl
  obtain rfl := Except.ok.inj ((mpatBody_config hv h40 hp).symm.trans hu)
  refine matrixInv_setMatrix h (matWf_putsApplied h.1 _) (fun c r hcr => ?_) rfl hv (fun hne => by cases hne)
  rw [matRead_putsApplied_of_forall_ne (fun p hpm => ?_), unset_outside h (by omega)]
  have hinside := patternWrites_inside hv h40 p hpm
  obtain ⟨-, -, hc, hr⟩ := inside_iff.1 hinside
  rw [toNat_eq_iff_of_inside hinside]
  omega

theorem matrixInv_mdata {u : State} (hu : mdataBody config s = .ok u) : MatrixInv config u := by
  obtain ⟨hp, -⟩ := mdataBody_eq_ok hu
  have hsize := matsize_of_started h (.inl hp)
  rw [mdataBody_of_patternsPlaced hp] at hu
  split at hu
  · cases hu
    refine matrixInv_setMatrix h (matWf_placeBits config s.sym.mask _ s.bitData h.1) (fun c r hcr => ?_) hsize
      (version_ne_zero h (by rw [hp]; decide)) (fun hne => by cases hne)
    have hodd : symbolSize s.sym.ver.toNat % 2 = 1 := by unfold symbolSize; omega
    rw [matRead_placeBits_of_not_mem, unset_outside h hcr]
    rw [hsize, mem_zigzag_iff (by unfold symbolSize; omega) hodd, ← hsize]
    exact fun hmem => hcr ⟨hmem.1, hmem.2.1⟩
  · cases hu

theorem matrixInv_mmargin {u : State} (hu : mmarginBody config s = .ok u) : MatrixInv config u := by
  obtain ⟨hp, -⟩ := mmarginBody_eq_ok hu
  have hsize := matsize_of_started h (.inr hp)
  by_cases hset : ∀ c < s.matsize, ∀ r < s.matsize, matRead s.mat c r ≠ .unset
  · obtain rfl := Except.ok.inj ((mmarginBody_of_complete hp hset).symm.trans hu)
    refine matrixInv_setMatrix h (matWf_matFill h.1 _ _) (fun c r hcr => ?_) (congrArg (· + 2 * config.margin) hsize)
      (version_ne_zero h (by rw [hp]; decide)) (fun _ => (matComplete_iff _ _).2 fun c hc r hr => ?_)
    · rw [matRead_matFill, if_neg hcr, unset_outside h (by omega)]
    · rw [matRead_matFill, if_pos ⟨hc, hr⟩, framedCell]
      split
      · exact hset _ (by omega) _ (by omega)
      · decide
  · push Not at hset
    rw [mmarginBody_of_unset hp hset] at hu
    cases hu

end

/-! ### The bodies of the commands -/

/-- The invariant but for the report, which the transaction writes. -/
def Sound (s : State) : Prop := StoresInv s ∧ MatrixInv config s

theorem sound_complete {s : State} (h : Sound s) : Sound s.complete := h

/-- A body that completes keeps `P`. -/
def Keeps (P : State → Prop) (body : State → Except CmdError State) : Prop :=
  ∀ ⦃s u : State⦄, P s → body s = .ok u → P u

theorem Keeps.bind {P : State → Prop} {a b : State → Except CmdError State} (ha : Keeps P a) (hb : Keeps P b) :
    Keeps P fun s => a s >>= b := fun s u hs h => by
  obtain ⟨t, ht, hu⟩ := bind_ok.1 h
  exact hb (ha hs ht) hu

theorem queryEc_eq_ok {c : Config} {v : Nat} {l : Level} {t : EcEntry} (h : queryEc c v l = .ok t) :
    c.T.ec v l = some t ∧ ecValid c v t = true := by
  unfold queryEc at h
  split at h
  · next t' ht =>
    obtain rfl := Except.ok.inj h
    exact Option.filter_eq_some_iff.1 ht
  · cases h

theorem queryRembits_eq_ok {c : Config} {v q : Nat} (h : queryRembits c v = .ok q) : rembitsOf c v = some q := by
  unfold queryRembits at h
  split at h
  · next hq => rw [hq, Except.ok.inj h]
  · cases h

theorem ecValid_bounds {c : Config} {v : Nat} {t : EcEntry} (h : ecValid c v t = true) :
    dataCodewords t ≤ 4096 ∧ 8 * totalCodewords t + (rembitsOf c v).getD 0 ≤ 32768 := by
  simp only [ecValid, Bool.and_eq_true, decide_eq_true_eq] at h
  exact ⟨h.1.2, h.2⟩

theorem sound_pmul (pd pa pb : PReg) : Keeps Sound (pmulBody pd pa pb) := fun s u hs h => by
  obtain ⟨a, -, h⟩ := bind_ok.1 h
  obtain ⟨b, -, h⟩ := bind_ok.1 h
  obtain ⟨r, hr, hu⟩ := bind_ok.1 h
  cases hu
  obtain ⟨_, -, hr⟩ := bind_ok.1 hr
  obtain ⟨_, hlen, hr⟩ := bind_ok.1 hr
  cases hr
  exact ⟨storesInv_setPoly hs.1 pd (of_decide_eq_true (check_eq_ok.1 hlen)), hs.2⟩

theorem sound_pmulm (pd pa : PReg) (rs1 : XReg) : Keeps Sound (pmulmBody pd pa rs1) := fun s u hs h => by
  obtain ⟨a, ha, hu⟩ := bind_ok.1 h
  cases hu
  obtain ⟨hwf, rfl⟩ := polyOperand_eq_ok.1 ha
  refine ⟨storesInv_setPoly hs.1 pd ?_, hs.2⟩
  rw [multiplyByMonomial_of_descending ((wellFormedTerms_iff _).1 hwf), List.length_map]
  exact length_poly_le hs.1 pa

theorem sound_rsgen (pd : PReg) (rs1 : XReg) : Keeps Sound (rsgenBody pd rs1) := fun s u hs h => by
  obtain ⟨n, hn, hu⟩ := bind_ok.1 h
  cases hu
  obtain ⟨h1, h254, -⟩ := degreeOperand_eq_ok.1 hn
  exact ⟨storesInv_setPoly hs.1 pd (by rw [length_generatorPolynomial h1]; omega), hs.2⟩

theorem sound_rsdiv (rs1 : XReg) : Keeps Sound (rsdivBody config rs1) := fun s u hs h => by
  obtain ⟨r, hr, h⟩ := bind_ok.1 h
  obtain ⟨_, -, hu⟩ := bind_ok.1 h
  cases hu
  obtain ⟨h1, h254, -⟩ := degreeOperand_eq_ok.1 hr
  exact ⟨storesInv_setEcc hs.1 (by rwa [length_divide_config h1 h254]), hs.2⟩

theorem sound_msel (rs1 rs2 : XReg) : Keeps Sound (mselBody config rs1 rs2) := fun s u hs h => by
  have hp := (mselBody_eq_ok h).1
  obtain ⟨v, l, rfl, t, w, ht, -⟩ := mselBody_dataFits h
  exact ⟨hs.1, matrixInv_setVersionLevel hs.2 hp (ec_config_bounds ht).2 l⟩

theorem sound_masm : Keeps Sound (masmBody config) := fun s u hs h => by
  obtain ⟨v, -, h⟩ := bind_ok.1 h
  obtain ⟨t, ht, h⟩ := bind_ok.1 h
  obtain ⟨w, -, h⟩ := bind_ok.1 h
  obtain ⟨_, hfits, hu⟩ := bind_ok.1 h
  cases hu
  simp only [check_eq_ok, fitsIn, Bool.and_eq_true, decide_eq_true_eq] at hfits
  refine ⟨storesInv_setCw hs.1 ?_, hs.2⟩
  rw [length_assemble config (by rw [length_dinData]; exact hfits.2)]
  exact (ecValid_bounds (queryEc_eq_ok ht).2).1

theorem sound_mint : Keeps Sound (mintBody config) := fun s u hs h => by
  obtain ⟨v, -, h⟩ := bind_ok.1 h
  obtain ⟨t, ht, h⟩ := bind_ok.1 h
  obtain ⟨_, hcw, h⟩ := bind_ok.1 h
  obtain ⟨q, hq, hu⟩ := bind_ok.1 h
  cases hu
  obtain ⟨ht, hvalid⟩ := queryEc_eq_ok ht
  obtain ⟨he, he', hd, -⟩ := entry_config ht
  have hbound := (ecValid_bounds hvalid).2
  rw [queryRembits_eq_ok hq, Option.getD_some] at hbound
  have hlen : s.cwData.length = dataCodewords t := (length_cwData s).trans (of_decide_eq_true (check_eq_ok.1 hcw))
  refine ⟨storesInv_setBits hs.1 ?_, hs.2⟩
  rwa [finalBits_config, List.length_append, length_flatMap_byteBits, List.length_replicate,
    length_interleavedCodewords hlen hd he he']

theorem sound_menc (rs1 rs2 : XReg) : Keeps Sound (mencBody config rs1 rs2) :=
  (sound_msel rs1 rs2).bind (sound_masm.bind sound_mint)

theorem sound_mpat : Keeps Sound (mpatBody config) := fun s u hs h => by
  have hm := matrixInv_mpat hs.2 h
  obtain ⟨-, m, n, rfl⟩ := mpatBody_eq_ok h
  exact ⟨hs.1, hm⟩

theorem sound_mdata : Keeps Sound (mdataBody config) := fun s u hs h => by
  have hm := matrixInv_mdata hs.2 h
  obtain ⟨-, m, rfl⟩ := mdataBody_eq_ok h
  exact ⟨hs.1, hm⟩

theorem sound_mmargin : Keeps Sound (mmarginBody config) := fun s u hs h => by
  have hm := matrixInv_mmargin hs.2 h
  obtain ⟨-, m, rfl⟩ := mmarginBody_eq_ok h
  exact ⟨hs.1, hm⟩

theorem sound_mrender : Keeps Sound (mrenderBody config) := sound_mpat.bind (sound_mdata.bind sound_mmargin)

theorem sound_bodyOf (i : Instr) : Keeps Sound (bodyOf i) := by
  cases i with
  | gfexp | gflog | bchfmt | bchver | maskb => intro s u hs h; obtain ⟨v, rfl⟩ := bodyOf_writes h; exact hs
  | pmul pd pa pb => exact sound_pmul pd pa pb
  | pmulm pd pa rs1 => exact sound_pmulm pd pa rs1
  | rsgen pd rs1 => exact sound_rsgen pd rs1
  | rsdiv rs1 => exact sound_rsdiv rs1
  | msel rs1 rs2 => exact sound_msel rs1 rs2
  | masm => exact sound_masm
  | mint => exact sound_mint
  | menc rs1 rs2 => exact sound_menc rs1 rs2
  | mpat => exact sound_mpat
  | mdata => exact sound_mdata
  | mmargin => exact sound_mmargin
  | mrender => exact sound_mrender
  | qrenc rs1 rs2 => exact (sound_menc rs1 rs2).bind sound_mrender

/-! ### Host writes (20_memory.md R63) -/

theorem storesInv_setPolyReg {s : State} (h : StoresInv s) (i : PReg) {r : PolyReg} (hlen : r.len ≤ 256)
    (hterms : storeWf 0#32 256 r.terms) : StoresInv { s with p := s.p.set i.val r } := by
  refine ⟨fun j => ?_, h.2⟩
  rw [getPoly_set]
  split
  · exact ⟨hlen, hterms⟩
  · exact h.1 j

theorem storesInv_memWrite {s : State} (h : StoresInv s) {a : Addr} {v : Word} (hctrl : locate a ≠ .ctrl) :
    StoresInv (memWrite s a v) := by
  have hwindow := inWindow_locate a
  obtain ⟨hp, hdinlen, hdin, hcwlen, hcw, hecclen, hecc, hbitlen, hbits⟩ := h
  have hs : StoresInv s := ⟨hp, hdinlen, hdin, hcwlen, hcw, hecclen, hecc, hbitlen, hbits⟩
  unfold memWrite
  cases hl : locate a with
  | ctrl => exact absurd hl hctrl
  | id | cmd | status | finfo | ecclen | matsize | mat | unmapped => exact hs
  | x => exact hs
  | sym =>
    dsimp only
    unfold writeSym
    split <;> exact hs
  | dinlen =>
    dsimp only
    split
    · next hv => exact ⟨hp, hv, hdin, hcwlen, hcw, hecclen, hecc, hbitlen, hbits⟩
    · exact hs
  | cwlen =>
    dsimp only
    split
    · next hv => exact ⟨hp, hdinlen, hdin, hv, hcw, hecclen, hecc, hbitlen, hbits⟩
    · exact hs
  | bitlen =>
    dsimp only
    split
    · next hv => exact ⟨hp, hdinlen, hdin, hcwlen, hcw, hecclen, hecc, hv, hbits⟩
    · exact hs
  | plen i =>
    dsimp only
    split
    · next hv => exact storesInv_setPolyReg hs i hv (hp i).2
    · exact hs
  | term i k =>
    rw [hl] at hwindow
    exact storesInv_setPolyReg hs i (hp i).1 (storeWf_write (hp i).2 hwindow v)
  | din k =>
    rw [hl] at hwindow
    exact ⟨hp, hdinlen, storeWf_write hdin hwindow _, hcwlen, hcw, hecclen, hecc, hbitlen, hbits⟩
  | cw k =>
    rw [hl] at hwindow
    exact ⟨hp, hdinlen, hdin, hcwlen, storeWf_write hcw hwindow _, hecclen, hecc, hbitlen, hbits⟩
  | ecc k =>
    rw [hl] at hwindow
    exact ⟨hp, hdinlen, hdin, hcwlen, hcw, hecclen, storeWf_write hecc hwindow _, hbitlen, hbits⟩
  | bits k =>
    rw [hl] at hwindow
    exact ⟨hp, hdinlen, hdin, hcwlen, hcw, hecclen, hecc, hbitlen, storeWf_write hbits hwindow _⟩

/-- `SYM` is written in Idle only, with a version of at most 40; every other write leaves the matrix part alone. -/
theorem matrixInv_memWrite {s : State} (h : MatrixInv config s) {a : Addr} {v : Word} (hctrl : locate a ≠ .ctrl) :
    MatrixInv config (memWrite s a v) := by
  unfold memWrite
  cases hl : locate a with
  | ctrl => exact absurd hl hctrl
  | sym =>
    dsimp only
    unfold writeSym
    split
    · next hw =>
      obtain ⟨hp, -, hv⟩ := hw
      obtain ⟨hwf, hbounds, -, hsize, -, -⟩ := h
      refine ⟨hwf, hbounds, hv, ?_, fun hne => absurd hp hne, fun hne => absurd (hp.symm.trans hne) (by decide)⟩
      rw [hp] at hsize ⊢
      exact hsize
    · exact h
  | dinlen | cwlen | bitlen | plen => dsimp only; split <;> exact h
  | id | cmd | status | finfo | ecclen | matsize | mat | unmapped | x | term | din | cw | ecc | bits => exact h

/-- Settles O57: the reset values are small and the arrays empty. -/
theorem resetMeetsTheInvariant : Obligations.ResetMeetsTheInvariant := by
  unfold Obligations.ResetMeetsTheInvariant
  decide

theorem sound_memWrite {s : State} (h : Sound s) (a : Addr) (v : Word) : Sound (memWrite s a v) := by
  by_cases hctrl : locate a = .ctrl
  · rw [memWrite_ctrl hctrl]
    split
    · exact ⟨resetMeetsTheInvariant.1, resetMeetsTheInvariant.2.1⟩
    · exact h
  · exact ⟨storesInv_memWrite h.1 hctrl, matrixInv_memWrite h.2 hctrl⟩

/-! ### The step -/

theorem sound_commandWord {s t : State} (hs : Sound s) {w : Word} (h : commandWord w s = .next t) : Sound t := by
  cases hd : decode w with
  | ok i =>
    rw [commandWord_of_ok hd, exec_eq_command] at h
    rcases command_cases h with ⟨-, rfl⟩ | ⟨-, u, hu, rfl⟩ | ⟨-, e, -, rfl⟩
    · exact hs
    · exact sound_complete (sound_bodyOf i hs hu)
    · exact hs
  | error e =>
    rw [commandWord_of_error hd] at h
    rcases command_cases h with ⟨-, rfl⟩ | ⟨-, u, hu, -⟩ | ⟨-, e, -, rfl⟩
    · exact hs
    · cases hu
    · exact hs

theorem sound_step {s t : State} (hs : Sound s) (h : step s = .next t) : Sound t := by
  rcases step_cases s with ⟨-, hstep⟩ | ⟨a, rest, -, hstep⟩ | ⟨a, v, rest, -, -, hstep⟩ | ⟨a, v, rest, -, -, hstep⟩ <;>
    rw [hstep] at h
  · cases h
    exact hs
  · cases h
    exact hs
  · exact sound_commandWord (s := { s with pending := rest }) hs h
  · cases h
    exact sound_memWrite (s := { s with pending := rest }) hs a v

/-- Every command word answers a next state, so every step does. -/
theorem exists_step_eq_next (s : State) : ∃ t, step s = .next t := by
  rcases step_cases s with ⟨-, hstep⟩ | ⟨a, rest, -, hstep⟩ | ⟨a, v, rest, -, -, hstep⟩ | ⟨a, v, rest, -, -, hstep⟩
  · exact ⟨_, hstep⟩
  · exact ⟨_, hstep⟩
  · obtain ⟨body, hbody⟩ := exists_commandWord_eq_command v
    exact ⟨_, hstep.trans (hbody _)⟩
  · exact ⟨_, hstep⟩

/-- Settles O58: the matrix part of what a step keeps. -/
theorem stepKeepsTheMatrixInStepWithThePhase : Obligations.StepKeepsTheMatrixInStepWithThePhase :=
  fun _ _ ⟨hstores, hmatrix, _⟩ h => (sound_step ⟨hstores, hmatrix⟩ h).2

/-- Settles O60: the stores and the matrix by what each body and each host write keeps, the report by O59. -/
theorem stepKeepsTheInvariant : Obligations.StepKeepsTheInvariant := by
  rintro s ⟨hstores, hmatrix, hreport⟩
  obtain ⟨t, ht⟩ := exists_step_eq_next s
  obtain ⟨hstores', hmatrix'⟩ := sound_step ⟨hstores, hmatrix⟩ ht
  exact ⟨t, ht, hstores', hmatrix', stepKeepsTheReportConsistent s t hreport ht⟩

end Sys2Proof.Proofs

/-! Proofs for 48_composite_commands.md R232: the encoder's results depend on its inputs only. -/

namespace Sys2Proof.Proofs

open Sys2Proof Sys2Proof.Machine Sys2Proof.Laws Sys2Proof.Claims

/-! ### What a body reads, what it determines

A view is the part of a state that a stage of the encoder reads, or leaves determined. -/

/-- The inputs of the encoder but for the operands: phase, matrix, mask id and data. -/
def inputView (s : State) : Phase × Matrix × Nat × BitVec 3 × List Byte :=
  (s.phase, s.mat, s.matsize, s.sym.mask, s.dinData)

/-- With the version and level chosen. -/
def symView (s : State) : (Phase × Matrix × Nat × BitVec 3 × List Byte) × Sym := (inputView s, s.sym)

/-- With the data codewords. -/
def cwView (s : State) : ((Phase × Matrix × Nat × BitVec 3 × List Byte) × Sym) × List Byte := (symView s, s.cwData)

/-- With the bits: all the encoder writes. -/
def bitsView (s : State) : (((Phase × Matrix × Nat × BitVec 3 × List Byte) × Sym) × List Byte) × List Bool :=
  (cwView s, s.bitData)

/-- The error, or the view `W` of the state a body answers, is a function of the view `V` of the state before. -/
def Determines {α β : Type} (V : State → α) (W : State → β) (body : State → Except CmdError State) : Prop :=
  ∀ s s', V s = V s' → (body s).map W = (body s').map W

theorem map_ok {α β : Type} (a : α) (W : α → β) : (Except.ok a : Except CmdError α).map W = .ok (W a) := rfl

theorem map_bind_eq_of_determines {α β : Type} {V : State → α} {W : State → β} {b : State → Except CmdError State}
    {x x' : Except CmdError State} (hx : x.map V = x'.map V) (hb : Determines V W b) :
    (x >>= b).map W = (x' >>= b).map W := by
  cases x with
  | error e =>
    cases x' with
    | error e' => rw [Except.error.inj hx]
    | ok u' => cases hx
  | ok u =>
    cases x' with
    | error e' => cases hx
    | ok u' => exact hb u u' (Except.ok.inj hx)

theorem Determines.bind {α β γ : Type} {V : State → α} {W : State → β} {X : State → γ} {a b : State → Except CmdError State}
    (ha : Determines V W a) (hb : Determines W X b) : Determines V X fun s => a s >>= b :=
  fun s s' h => map_bind_eq_of_determines (ha s s' h) hb

/-! ### Reading back the buffers -/

@[simp] theorem cwData_setCw (s : State) (vs : List Byte) : (s.setCw vs).cwData = vs := slice_splice_self ..

@[simp] theorem bitData_setBits (s : State) (bs : List Bool) : (s.setBits bs).bitData = bs := slice_splice_self ..

theorem dinlen_eq_of_dinData {s s' : State} (h : s.dinData = s'.dinData) : s.dinlen = s'.dinlen := by
  rw [← length_dinData, h, length_dinData]

theorem cwlen_eq_of_cwData {s s' : State} (h : s.cwData = s'.cwData) : s.cwlen = s'.cwlen := by
  rw [← length_cwData, h, length_cwData]

theorem operands_eq {s s' : State} {r r' : XReg} (h : operand s r = operand s' r') :
    versionOperand s r = versionOperand s' r' ∧ levelOperand s r = levelOperand s' r' := by
  have h : scalarOperand s r = scalarOperand s' r' := h
  simp only [versionOperand, levelOperand, h, and_self]

/-! ### The stages -/

theorem map_mselBody_eq {s s' : State} {rs1 rs2 rs1' rs2' : XReg} (h : inputView s = inputView s')
    (h1 : operand s rs1 = operand s' rs1') (h2 : operand s rs2 = operand s' rs2') (c : Config) :
    (mselBody c rs1 rs2 s).map symView = (mselBody c rs1' rs2' s').map symView := by
  have hview := h
  simp only [inputView, Prod.mk.injEq] at hview
  obtain ⟨hphase, -, -, hmask, hdin⟩ := hview
  have hwrite : ∀ v l, symView (s.setVersionLevel v l) = symView (s'.setVersionLevel v l) := fun v l =>
    Prod.ext h (by simp only [symView, State.setVersionLevel_sym, hmask])
  simp only [mselBody, needPhase, hphase, (operands_eq h1).1, (operands_eq h2).2, dinlen_eq_of_dinData hdin, map_bind_eq,
    map_ok, hwrite]

theorem determines_masmBody (c : Config) : Determines symView cwView (masmBody c) := fun s s' h => by
  have hview := h
  simp only [symView, inputView, Prod.mk.injEq] at hview
  obtain ⟨⟨-, -, -, -, hdin⟩, hsym⟩ := hview
  have hwrite : ∀ vs, cwView (s.setCw vs) = cwView (s'.setCw vs) := fun vs =>
    Prod.ext h (by simp only [cwView, cwData_setCw])
  simp only [masmBody, chosenVersion, hsym, hdin, dinlen_eq_of_dinData hdin, map_bind_eq, map_ok, hwrite]

theorem determines_mintBody (c : Config) : Determines cwView bitsView (mintBody c) := fun s s' h => by
  have hview := h
  simp only [cwView, symView, Prod.mk.injEq] at hview
  obtain ⟨⟨-, hsym⟩, hcw⟩ := hview
  have hwrite : ∀ bs, bitsView (s.setBits bs) = bitsView (s'.setBits bs) := fun bs =>
    Prod.ext h (by simp only [bitsView, bitData_setBits])
  simp only [mintBody, chosenVersion, hsym, hcw, cwlen_eq_of_cwData hcw, map_bind_eq, map_ok, hwrite]

theorem bitsView_setMatrix {s s' : State} (h : bitsView s = bitsView s') (m : Matrix) (n : Nat) (ph : Phase) :
    bitsView (s.setMatrix m n ph) = bitsView (s'.setMatrix m n ph) := by
  simp only [bitsView, cwView, symView, inputView, Prod.mk.injEq] at h ⊢
  obtain ⟨⟨⟨⟨-, -, -, hmask, hdin⟩, hsym⟩, hcw⟩, hbits⟩ := h
  exact ⟨⟨⟨⟨rfl, rfl, rfl, hmask, hdin⟩, hsym⟩, hcw⟩, hbits⟩

theorem determines_mpatBody (c : Config) : Determines bitsView bitsView (mpatBody c) := fun s s' h => by
  have hview := h
  simp only [bitsView, cwView, symView, inputView, Prod.mk.injEq] at hview
  obtain ⟨⟨⟨⟨hphase, hmat, -, -, -⟩, hsym⟩, -⟩, -⟩ := hview
  simp only [mpatBody, needPhase, chosenVersion, hphase, hmat, hsym, map_bind_eq, map_ok, bitsView_setMatrix h]

theorem determines_mdataBody (c : Config) : Determines bitsView bitsView (mdataBody c) := fun s s' h => by
  have hview := h
  simp only [bitsView, cwView, symView, inputView, Prod.mk.injEq] at hview
  obtain ⟨⟨⟨⟨hphase, hmat, hsize, -, -⟩, hsym⟩, -⟩, hbits⟩ := hview
  simp only [mdataBody, needPhase, hphase, hmat, hsize, hsym, hbits, map_bind_eq, map_ok, bitsView_setMatrix h]

theorem determines_mmarginBody (c : Config) : Determines bitsView bitsView (mmarginBody c) := fun s s' h => by
  have hview := h
  simp only [bitsView, cwView, symView, inputView, Prod.mk.injEq] at hview
  obtain ⟨⟨⟨⟨hphase, hmat, hsize, -, -⟩, -⟩, -⟩, -⟩ := hview
  simp only [mmarginBody, needPhase, hphase, hmat, hsize, map_bind_eq, map_ok, bitsView_setMatrix h]

theorem map_qrencBody_eq {s s' : State} {rs1 rs2 rs1' rs2' : XReg} (h : inputView s = inputView s')
    (h1 : operand s rs1 = operand s' rs1') (h2 : operand s rs2 = operand s' rs2') (c : Config) :
    (qrencBody c rs1 rs2 s).map bitsView = (qrencBody c rs1' rs2' s').map bitsView := by
  have hmenc : (mencBody c rs1 rs2 s).map bitsView = (mencBody c rs1' rs2' s').map bitsView :=
    map_bind_eq_of_determines (map_mselBody_eq h h1 h2 c) ((determines_masmBody c).bind (determines_mintBody c))
  exact map_bind_eq_of_determines hmenc
    ((determines_mpatBody c).bind ((determines_mdataBody c).bind (determines_mmarginBody c)))

/-- Settles O56: stage by stage, each body's view of its result is a function of the view before it. -/
theorem encoderIsAPureFunctionOfItsInputs : Obligations.EncoderIsAPureFunctionOfItsInputs := by
  intro s s' t t' rs1 rs2 rs1' rs2' hf hf' hp hp' hm hm' hsize hdin h1 h2 hmask ht ht'
  have hphase : s.phase = s'.phase := hp.trans hp'.symm
  have hmat : s.mat = s'.mat := hm.trans hm'.symm
  have hview : inputView s = inputView s' := by simp only [inputView, hphase, hmat, hsize, hmask, hdin]
  have hmap : (bodyOf (.qrenc rs1 rs2) s).map bitsView = (bodyOf (.qrenc rs1' rs2') s').map bitsView :=
    map_qrencBody_eq hview h1 h2 config
  rw [exec_eq_command] at ht ht'
  rcases command_cases ht with ⟨hfatal, -⟩ | ⟨-, u, hu, rfl⟩ | ⟨-, e, he, rfl⟩
  · exact absurd hfatal (by rw [hf]; decide)
  · rcases command_cases ht' with ⟨hfatal, -⟩ | ⟨-, u', hu', rfl⟩ | ⟨-, e', he', rfl⟩
    · exact absurd hfatal (by rw [hf']; decide)
    · have hfatal : u.fatal = u'.fatal :=
        ((bodyOf_writes hu).frame.fatal.trans hf).trans ((bodyOf_writes hu').frame.fatal.trans hf').symm
      rw [hu, hu'] at hmap
      have hbits := Except.ok.inj hmap
      simp only [bitsView, cwView, symView, inputView, Prod.mk.injEq] at hbits
      obtain ⟨⟨⟨⟨hphase, hmat, hsize, -, -⟩, hsym⟩, hcw⟩, hbits⟩ := hbits
      exact ⟨rfl, rfl, hfatal, hmat, hsize, hphase, fun _ => ⟨hsym, hcw, hbits⟩⟩
    · rw [hu, he'] at hmap
      cases hmap
  · rcases command_cases ht' with ⟨hfatal, -⟩ | ⟨-, u', hu', rfl⟩ | ⟨-, e', he', rfl⟩
    · exact absurd hfatal (by rw [hf']; decide)
    · rw [he, hu'] at hmap
      cases hmap
    · rw [he, he'] at hmap
      obtain rfl := Except.error.inj hmap
      exact ⟨rfl, rfl, by simp only [State.report_fatal, hf, hf'], hmat, hsize, hphase,
        fun herr => absurd herr (errorCode_ne_ok e)⟩

end Sys2Proof.Proofs

/-! Proofs for 46_matrix_patterns.md R198 to R207: the cells the writes of `MPAT` name, and that two writes of one cell agree. -/

namespace Sys2Proof.Proofs

open Sys2Proof Sys2Proof.Machine Sys2Proof.Laws Sys2Proof.Claims

/-! ### Writes that agree -/

/-- A cell that some write names holds what all its writes agree on. -/
theorem matRead_putsApplied_of_forall_eq {ps : List Put} {c r : Nat} {x : Cell}
    (hsome : ∃ p ∈ ps, p.col.toNat = c ∧ p.row.toNat = r)
    (hall : ∀ p ∈ ps, p.col.toNat = c → p.row.toNat = r → p.val = x) (m : Matrix) :
    matRead (putsApplied ps m) c r = x := by
  induction ps generalizing m with
  | nil => obtain ⟨p, hp, -⟩ := hsome; cases hp
  | cons p ps ih =>
    rw [List.forall_mem_cons] at hall
    rw [putsApplied, List.foldl_cons, ← putsApplied]
    by_cases hrest : ∃ q ∈ ps, q.col.toNat = c ∧ q.row.toNat = r
    · exact ih hrest hall.2 _
    · obtain ⟨q, hq, hc, hr⟩ := hsome
      obtain rfl : q = p := (List.mem_cons.1 hq).resolve_right fun hq => hrest ⟨q, hq, hc, hr⟩
      rw [matRead_putsApplied_of_forall_ne (fun p hp hcr => hrest ⟨p, hp, hcr⟩), matRead_matWrite, if_pos ⟨hc.symm, hr.symm⟩]
      exact hall.1 hc hr

/-! ### The alignment coordinates of the standard tables (21_static_tables.md R104) -/

/-- The alignment coordinates `MPAT` uses for a version. -/
def coordinates (v : Nat) : List Nat := if 2 ≤ v then (config.T.align v).getD [] else []

theorem patternWrites_eq (s : State) : patternWrites s =
    patternPuts config s.sym.ver.toNat s.sym.lvl s.sym.mask (coordinates s.sym.ver.toNat) := rfl

/-- What the placement of the alignment patterns rests on: even coordinates, the first 6, the last 7 from the edge, the others
clear of the finder blocks and of the version blocks, and no two squares in one another. -/
structure AlignmentGrid (size : Nat) (ls : List Nat) : Prop where
  even : ∀ a ∈ ls, a % 2 = 0
  low : ∀ a ∈ ls, a = 6 ∨ 18 ≤ a
  high : ∀ a ∈ ls, a + 7 = size ∨ a + 19 ≤ size
  gap : ∀ a ∈ ls, ∀ b ∈ ls, a = b ∨ a + 5 ≤ b ∨ b + 5 ≤ a

theorem alignmentGrid_all : ∀ v : Fin 40, ∀ a ∈ alignRows.getD v.val [],
    a % 2 = 0 ∧ (a = 6 ∨ 18 ≤ a) ∧ (a + 7 = symbolSize (v.val + 1) ∨ a + 19 ≤ symbolSize (v.val + 1)) ∧
      ∀ b ∈ alignRows.getD v.val [], a = b ∨ a + 5 ≤ b ∨ b + 5 ≤ a := by
  decide +kernel

theorem alignmentGrid_coordinates {v : Nat} (h1 : 1 ≤ v) (h2 : v ≤ 40) : AlignmentGrid (symbolSize v) (coordinates v) := by
  have hrow : ∀ a ∈ coordinates v, a ∈ alignRows.getD (v - 1) [] := fun a ha => by
    rw [coordinates, align_config h1 h2, Option.getD_some] at ha
    split at ha
    · exact ha
    · cases ha
  have hall := alignmentGrid_all ⟨v - 1, by omega⟩
  rw [show v - 1 + 1 = v by omega] at hall
  exact ⟨fun a ha => (hall a (hrow a ha)).1, fun a ha => (hall a (hrow a ha)).2.1, fun a ha => (hall a (hrow a ha)).2.2.1,
    fun a ha b hb => (hall a (hrow a ha)).2.2.2 b (hrow b hb)⟩

/-- The coordinate a place is within two of, if there is one. -/
def nearest (ls : List Nat) (x : Nat) : Nat := (ls.find? fun a => a ≤ x + 2 && x ≤ a + 2).getD 0

theorem AlignmentGrid.nearest_eq {size : Nat} {ls : List Nat} (h : AlignmentGrid size ls) {a x : Nat} (ha : a ∈ ls)
    (h1 : a ≤ x + 2) (h2 : x ≤ a + 2) : nearest ls x = a := by
  cases hfind : ls.find? fun a => a ≤ x + 2 && x ≤ a + 2 with
  | none => exact absurd (by simpa using ⟨h1, h2⟩) (List.find?_eq_none.1 hfind a ha)
  | some b =>
    have hb := List.find?_some hfind
    simp only [Bool.and_eq_true, decide_eq_true_eq] at hb
    have := h.gap a ha b (List.mem_of_find?_eq_some hfind)
    rw [nearest, hfind, Option.getD_some]
    omega

/-! ### The drawing of the whole symbol

One value for each cell of the patterns, by the zone it lies in; the alignment squares, which share cells with the timing
patterns alone, come last. -/

/-- The value of a pattern cell, for a format string `f`, a version string `w` and alignment coordinates `ls`. -/
def patternValue (v size f w : Nat) (ls : List Nat) (c r : Nat) : Cell :=
  if c < 8 ∧ r < 8 then finderCell r c
  else if size ≤ c + 8 ∧ r < 8 then finderCell (size - 1 - c) r
  else if c < 8 ∧ size ≤ r + 8 then finderCell c (size - 1 - r)
  else if c = 8 ∧ r + 8 = size then .dark
  else if r = 6 then colour (c % 2 = 0)
  else if c = 6 then colour (r % 2 = 0)
  else if c = 8 ∧ r < 6 then colour (f.testBit r)
  else if c = 8 ∧ r ≤ 8 then colour (f.testBit (r - 1))
  else if r = 8 ∧ c = 7 then colour (f.testBit 8)
  else if r = 8 ∧ c < 6 then colour (f.testBit (14 - c))
  else if r = 8 ∧ size ≤ c + 8 then colour (f.testBit (size - 1 - c))
  else if c = 8 ∧ size ≤ r + 8 then colour (f.testBit (r + 15 - size))
  else if 7 ≤ v ∧ size ≤ c + 11 ∧ r < 6 then colour (w.testBit (3 * r + (c + 11 - size)))
  else if 7 ≤ v ∧ c < 6 ∧ size ≤ r + 11 then colour (w.testBit (3 * c + (r + 11 - size)))
  else if max (absDiff r (nearest ls r)) (absDiff c (nearest ls c)) = 1 then .light else .dark

theorem colour_ne_unset (b : Bool) : colour b ≠ .unset := by cases b <;> decide

theorem finderCell_ne_unset (r c : Nat) : finderCell r c ≠ .unset := by
  unfold finderCell
  split
  · decide
  · split <;> decide

theorem patternValue_ne_unset (v size f w : Nat) (ls : List Nat) (c r : Nat) : patternValue v size f w ls c r ≠ .unset := by
  unfold patternValue
  exact ite_ne (finderCell_ne_unset _ _) <| ite_ne (finderCell_ne_unset _ _) <| ite_ne (finderCell_ne_unset _ _) <|
    ite_ne (by decide) <| ite_ne (colour_ne_unset _) <| ite_ne (colour_ne_unset _) <| ite_ne (colour_ne_unset _) <|
    ite_ne (colour_ne_unset _) <| ite_ne (colour_ne_unset _) <| ite_ne (colour_ne_unset _) <| ite_ne (colour_ne_unset _) <|
    ite_ne (colour_ne_unset _) <| ite_ne (colour_ne_unset _) <| ite_ne (colour_ne_unset _) <| ite_ne (by decide) (by decide)

/-! ### The cells of the patterns -/

theorem alignmentSquare_iff (v c r : Nat) : alignmentSquare v c r = true ↔
    ∃ cx ∈ coordinates v, ∃ cy ∈ coordinates v, (cx ≤ c + 2 ∧ c ≤ cx + 2) ∧ (cy ≤ r + 2 ∧ r ≤ cy + 2) ∧
      ¬(cx ≤ 9 ∧ cy ≤ 9) ∧ ¬(side v ≤ cx + 10 ∧ cy ≤ 9) ∧ ¬(cx ≤ 9 ∧ side v ≤ cy + 10) := by
  unfold coordinates alignmentSquare
  by_cases hv : 2 ≤ v
  · simp only [hv, decide_true, Bool.true_and, if_true, List.any_eq_true, Bool.and_eq_true, decide_eq_true_eq,
      Bool.not_eq_true', Bool.and_eq_false_iff, decide_eq_false_iff_not]
    constructor
    · rintro ⟨cx, hcx, hc, cy, hcy, hr⟩
      exact ⟨cx, hcx, cy, hcy, by omega⟩
    · rintro ⟨cx, hcx, cy, hcy, hr⟩
      exact ⟨cx, hcx, by omega, cy, hcy, by omega⟩
  · simp [hv]

theorem patternCell_iff (v c r : Nat) : patternCell v c r = true ↔
    (c < 8 ∧ r < 8 ∨ side v ≤ c + 8 ∧ r < 8 ∨ c < 8 ∧ side v ≤ r + 8 ∨ c = 6 ∨ r = 6 ∨
      r = 8 ∧ (c ≤ 8 ∨ side v ≤ c + 8) ∨ c = 8 ∧ (r ≤ 8 ∨ side v ≤ r + 8) ∨
      7 ≤ v ∧ (side v ≤ c + 11 ∧ c + 9 ≤ side v ∧ r < 6 ∨ c < 6 ∧ side v ≤ r + 11 ∧ r + 9 ≤ side v)) ∨
    alignmentSquare v c r = true := by
  simp only [patternCell, Bool.or_eq_true, Bool.and_eq_true, decide_eq_true_eq, or_assoc, and_assoc]

/-! ### Each write draws the value of its cell (46_matrix_patterns.md R198 to R206) -/

/-- The write is inside the pattern cells and of the value of its cell. -/
structure Draws (v size f w : Nat) (ls : List Nat) (p : Put) : Prop where
  cell : patternCell v p.col.toNat p.row.toNat = true
  val : p.val = patternValue v size f w ls p.col.toNat p.row.toNat

theorem draws_of {v size f w c r : Nat} {ls : List Nat} {p : Put} (hc : p.col = (c : Int)) (hr : p.row = (r : Int))
    (hcell : patternCell v c r = true) (hval : p.val = patternValue v size f w ls c r) : Draws v size f w ls p := by
  have hc : p.col.toNat = c := by omega
  have hr : p.row.toNat = r := by omega
  exact ⟨by rw [hc, hr]; exact hcell, by rw [hc, hr]; exact hval⟩

theorem lt_eight_of_mem_blockCells : ∀ q ∈ blockCells, q.1 < 8 ∧ q.2 < 8 := by decide

section

variable {v f w : Nat} {ls : List Nat} {p : Put}

theorem draws_finderTopLeft (h : p ∈ finderTopLeft) : Draws v (symbolSize v) f w ls p := by
  obtain ⟨q, hq, rfl⟩ := List.mem_map.1 h
  obtain ⟨hc, hr⟩ := lt_eight_of_mem_blockCells q hq
  exact draws_of rfl rfl ((patternCell_iff ..).2 (.inl (by omega))) (if_pos ⟨hc, hr⟩).symm

theorem twentyOne_le_symbolSize (v : Nat) : 21 ≤ symbolSize v := Nat.le_add_right _ _

theorem side_eq_symbolSize (v : Nat) : side v = symbolSize v := rfl

theorem draws_finderTopRight (h : p ∈ finderTopRight (symbolSize v)) : Draws v (symbolSize v) f w ls p := by
  obtain ⟨q, hq, rfl⟩ := List.mem_map.1 h
  obtain ⟨hc, hr⟩ := lt_eight_of_mem_blockCells q hq
  have hsize := twentyOne_le_symbolSize v
  refine draws_of (c := symbolSize v - 8 + q.1) (by simp only; omega) rfl
    ((patternCell_iff ..).2 (.inl (by rw [side_eq_symbolSize]; omega))) ?_
  rw [patternValue]
  repeat rw [if_neg (by omega)]
  rw [if_pos (by omega)]
  exact congrArg (finderCell · q.2) (by omega)

theorem draws_finderBottomLeft (h : p ∈ finderBottomLeft (symbolSize v)) : Draws v (symbolSize v) f w ls p := by
  obtain ⟨q, hq, rfl⟩ := List.mem_map.1 h
  obtain ⟨hc, hr⟩ := lt_eight_of_mem_blockCells q hq
  have hsize := twentyOne_le_symbolSize v
  refine draws_of (r := symbolSize v - 8 + q.2) rfl (by simp only; omega)
    ((patternCell_iff ..).2 (.inl (by rw [side_eq_symbolSize]; omega))) ?_
  rw [patternValue]
  repeat rw [if_neg (by omega)]
  rw [if_pos (by omega)]
  exact congrArg (finderCell q.1) (by omega)

theorem draws_darkModule (h : p ∈ darkModule (symbolSize v)) : Draws v (symbolSize v) f w ls p := by
  obtain rfl := List.mem_singleton.1 h
  have hsize := twentyOne_le_symbolSize v
  refine draws_of (c := 8) (r := symbolSize v - 8) rfl (by simp only; omega)
    ((patternCell_iff ..).2 (.inl (by rw [side_eq_symbolSize]; omega))) ?_
  rw [patternValue]
  repeat rw [if_neg (by omega)]
  rw [if_pos (by omega)]

theorem draws_timingPatterns (h : p ∈ timingPatterns (symbolSize v)) : Draws v (symbolSize v) f w ls p := by
  obtain ⟨i, hi, h⟩ := List.mem_flatMap.1 h
  rw [List.mem_range'_1] at hi
  have hsize := twentyOne_le_symbolSize v
  simp only [List.mem_cons, List.not_mem_nil, or_false] at h
  rcases h with rfl | rfl
  · refine draws_of (c := i) (r := 6) rfl rfl ((patternCell_iff ..).2 (.inl (by omega))) ?_
    rw [patternValue]
    repeat rw [if_neg (by omega)]
    rw [if_pos rfl]
  · refine draws_of (c := 6) (r := i) rfl rfl ((patternCell_iff ..).2 (.inl (by omega))) ?_
    rw [patternValue]
    repeat rw [if_neg (by omega)]
    rw [if_pos rfl]

theorem draws_formatPatterns (h : p ∈ formatPatterns (symbolSize v) f) : Draws v (symbolSize v) f w ls p := by
  have hsize := twentyOne_le_symbolSize v
  rcases List.mem_append.1 h with h | h
  · obtain ⟨i, hi, rfl⟩ := List.mem_map.1 h
    rw [List.mem_range] at hi
    rcases (by omega : i ≤ 5 ∨ i = 6 ∨ i = 7 ∨ i = 8 ∨ 9 ≤ i) with hle | rfl | rfl | rfl | hge
    · refine draws_of (c := 8) (r := i) (by simp only [formatCell1, if_pos hle]; rfl) (by simp only [formatCell1, if_pos hle])
        ((patternCell_iff ..).2 (.inl (by omega))) ?_
      rw [patternValue]
      repeat rw [if_neg (by omega)]
      rw [if_pos (by omega)]
    · refine draws_of (c := 8) (r := 7) rfl rfl ((patternCell_iff ..).2 (.inl (by omega))) ?_
      rw [patternValue]
      repeat rw [if_neg (by omega)]
      rw [if_pos (by omega)]
    · refine draws_of (c := 8) (r := 8) rfl rfl ((patternCell_iff ..).2 (.inl (by omega))) ?_
      rw [patternValue]
      repeat rw [if_neg (by omega)]
      rw [if_pos (by omega)]
    · refine draws_of (c := 7) (r := 8) rfl rfl ((patternCell_iff ..).2 (.inl (by omega))) ?_
      rw [patternValue]
      repeat rw [if_neg (by omega)]
      rw [if_pos (by omega)]
    · have hcell : formatCell1 i = (((14 - i : Nat) : Int), ((8 : Nat) : Int)) := by
        rw [formatCell1, if_neg (by omega), if_neg (by omega), if_neg (by omega), if_neg (by omega)]
        exact Prod.ext (by simp only; omega) rfl
      refine draws_of (congrArg Prod.fst hcell) (congrArg Prod.snd hcell) ((patternCell_iff ..).2 (.inl (by omega))) ?_
      rw [patternValue]
      repeat rw [if_neg (by omega)]
      rw [if_pos (by omega)]
      exact congrArg (fun k => colour (f.testBit k)) (by omega)
  · obtain ⟨i, hi, rfl⟩ := List.mem_map.1 h
    rw [List.mem_range] at hi
    by_cases h7 : i ≤ 7
    · refine draws_of (c := symbolSize v - 1 - i) (r := 8) ?_ ?_
        ((patternCell_iff ..).2 (.inl (by rw [side_eq_symbolSize]; omega))) ?_
      · simp only [formatCell2, if_pos h7]
        omega
      · simp only [formatCell2, if_pos h7]
        rfl
      · rw [patternValue]
        repeat rw [if_neg (by omega)]
        rw [if_pos (by omega)]
        exact congrArg (fun k => colour (f.testBit k)) (by omega)
    · refine draws_of (c := 8) (r := symbolSize v - 15 + i) ?_ ?_
        ((patternCell_iff ..).2 (.inl (by rw [side_eq_symbolSize]; omega))) ?_
      · simp only [formatCell2, if_neg h7]
        rfl
      · simp only [formatCell2, if_neg h7]
        omega
      · rw [patternValue]
        repeat rw [if_neg (by omega)]
        rw [if_pos (by omega)]
        exact congrArg (fun k => colour (f.testBit k)) (by omega)

theorem draws_versionPatterns (hv : 7 ≤ v) (h : p ∈ versionPatterns (symbolSize v) w) : Draws v (symbolSize v) f w ls p := by
  obtain ⟨i, hi, h⟩ := List.mem_flatMap.1 h
  rw [List.mem_range] at hi
  have hsize : 45 ≤ symbolSize v := by unfold symbolSize; omega
  simp only [List.mem_cons, List.not_mem_nil, or_false] at h
  rcases h with rfl | rfl
  · refine draws_of (c := symbolSize v - 11 + i % 3) (r := i / 3) (by simp only; omega) rfl
      ((patternCell_iff ..).2 (.inl (by rw [side_eq_symbolSize]; omega))) ?_
    rw [patternValue]
    repeat rw [if_neg (by omega)]
    rw [if_pos (by omega)]
    exact congrArg (fun k => colour (w.testBit k)) (by omega)
  · refine draws_of (c := i / 3) (r := symbolSize v - 11 + i % 3) rfl (by simp only; omega)
      ((patternCell_iff ..).2 (.inl (by rw [side_eq_symbolSize]; omega))) ?_
    rw [patternValue]
    repeat rw [if_neg (by omega)]
    rw [if_pos (by omega)]
    exact congrArg (fun k => colour (w.testBit k)) (by omega)

/-- Along row 6 and column 6 an alignment pattern has the colours of the timing pattern: its centre is at an even place. -/
theorem ring_eq_colour {n x : Nat} (hn : n ≤ 2) (hx : x % 2 = n % 2) :
    (if n = 1 then Cell.light else .dark) = colour (x % 2 = 0) := by
  rw [hx]
  interval_cases n <;> rfl

theorem mem_alignmentPatterns_iff {size : Nat} : p ∈ alignmentPatterns size ls ↔
    ∃ x ∈ ls, ∃ y ∈ ls, overlapsFinder size x y = false ∧ ∃ dc ∈ offsets, ∃ dr ∈ offsets,
      p = { col := x + dc, row := y + dr, val := if max dr.natAbs dc.natAbs = 1 then .light else .dark, region := 5 } := by
  simp only [alignmentPatterns, alignmentCentres, alignmentPattern, List.mem_flatMap, List.mem_filter, List.mem_map,
    Bool.not_eq_true']
  constructor
  · rintro ⟨q, ⟨⟨y, hy, x, hx, rfl⟩, hskip⟩, dr, hdr, dc, hdc, rfl⟩
    exact ⟨x, hx, y, hy, hskip, dc, hdc, dr, hdr, rfl⟩
  · rintro ⟨x, hx, y, hy, hskip, dc, hdc, dr, hdr, rfl⟩
    exact ⟨_, ⟨⟨y, hy, x, hx, rfl⟩, hskip⟩, dr, hdr, dc, hdc, rfl⟩

theorem overlapsFinder_eq_false_iff {size x y : Nat} : overlapsFinder size x y = false ↔
    ¬(x ≤ 9 ∧ y ≤ 9) ∧ ¬(size ≤ x + 10 ∧ y ≤ 9) ∧ ¬(x ≤ 9 ∧ size ≤ y + 10) := by
  simp only [overlapsFinder, Bool.or_eq_false_iff, Bool.and_eq_false_iff, decide_eq_false_iff_not]
  omega

theorem mem_offsets_iff {d : Int} : d ∈ offsets ↔ -2 ≤ d ∧ d ≤ 2 := by
  simp only [offsets, List.mem_cons, List.not_mem_nil, or_false]
  omega

theorem draws_alignmentPatterns (hgrid : AlignmentGrid (symbolSize v) (coordinates v))
    (h : p ∈ alignmentPatterns (symbolSize v) (coordinates v)) : Draws v (symbolSize v) f w (coordinates v) p := by
  obtain ⟨x, hx, y, hy, hskip, dc, hdc, dr, hdr, rfl⟩ := mem_alignmentPatterns_iff.1 h
  rw [overlapsFinder_eq_false_iff] at hskip
  rw [mem_offsets_iff] at hdc hdr
  have hsize := twentyOne_le_symbolSize v
  have := hgrid.low x hx
  have := hgrid.high x hx
  have := hgrid.low y hy
  have := hgrid.high y hy
  obtain ⟨c, hc⟩ := Int.eq_ofNat_of_zero_le (a := x + dc) (by omega)
  obtain ⟨r, hr⟩ := Int.eq_ofNat_of_zero_le (a := y + dr) (by omega)
  have hcell : alignmentSquare v c r = true :=
    (alignmentSquare_iff ..).2 ⟨x, hx, y, hy, by rw [side_eq_symbolSize]; omega⟩
  refine draws_of hc hr ((patternCell_iff ..).2 (.inr hcell)) ?_
  have hcdist : absDiff c (nearest (coordinates v) c) = dc.natAbs := by
    rw [hgrid.nearest_eq hx (by omega) (by omega), absDiff]
    omega
  have hrdist : absDiff r (nearest (coordinates v) r) = dr.natAbs := by
    rw [hgrid.nearest_eq hy (by omega) (by omega), absDiff]
    omega
  have hxeven := hgrid.even x hx
  have hyeven := hgrid.even y hy
  change (if max dr.natAbs dc.natAbs = 1 then Cell.light else .dark) = _
  rw [patternValue]
  conv_rhs => rw [if_neg (by omega), if_neg (by omega), if_neg (by omega), if_neg (by omega)]
  by_cases hrow : r = 6
  · rw [if_pos hrow, show max dr.natAbs dc.natAbs = dc.natAbs by omega]
    exact ring_eq_colour (by omega) (by omega)
  · rw [if_neg hrow]
    by_cases hcol : c = 6
    · rw [if_pos hcol, show max dr.natAbs dc.natAbs = dr.natAbs by omega]
      exact ring_eq_colour (by omega) (by omega)
    · rw [if_neg hcol]
      rw [hcdist, hrdist]
      symm
      repeat rw [if_neg (by omega)]

end

end Sys2Proof.Proofs

/-! Proofs for 46_matrix_patterns.md R198 to R209: what `MPAT` leaves in the cells of the patterns, and which cells these are. -/

namespace Sys2Proof.Proofs

open Sys2Proof Sys2Proof.Machine Sys2Proof.Laws Sys2Proof.Claims

/-! ### A cell holds what is written to it -/

theorem mem_patternWrites_iff {s : State} {p : Put} : p ∈ patternWrites s ↔
    p ∈ finderTopLeft ∨ p ∈ finderTopRight (symbolSize s.sym.ver.toNat) ∨ p ∈ finderBottomLeft (symbolSize s.sym.ver.toNat) ∨
      p ∈ darkModule (symbolSize s.sym.ver.toNat) ∨
      p ∈ alignmentPatterns (symbolSize s.sym.ver.toNat) (coordinates s.sym.ver.toNat) ∨
      p ∈ timingPatterns (symbolSize s.sym.ver.toNat) ∨
      p ∈ formatPatterns (symbolSize s.sym.ver.toNat) (formatString config s.sym.lvl s.sym.mask.toNat) ∨
      7 ≤ s.sym.ver.toNat ∧
        p ∈ versionPatterns (symbolSize s.sym.ver.toNat) (versionString config s.sym.ver.toNat) := by
  have hversion : p ∈ (if 7 ≤ s.sym.ver.toNat then
        versionPatterns (symbolSize s.sym.ver.toNat) (versionString config s.sym.ver.toNat) else []) ↔
      7 ≤ s.sym.ver.toNat ∧
        p ∈ versionPatterns (symbolSize s.sym.ver.toNat) (versionString config s.sym.ver.toNat) := by
    split <;> simp [*]
  rw [patternWrites_eq, patternPuts]
  simp only [List.mem_append, hversion, or_assoc]

/-- Some write of `MPAT` names the cell `(c, r)` and has the value `x`. -/
def Drawn (s : State) (c r : Nat) (x : Cell) : Prop := ∃ p ∈ patternWrites s, p.col = (c : Int) ∧ p.row = (r : Int) ∧ p.val = x

section

variable {s : State} (hv : s.sym.ver ≠ 0#6) (h40 : s.sym.ver.toNat ≤ 40)

/-- The value of a pattern cell for the symbol attributes of a state. -/
def stateValue (s : State) (c r : Nat) : Cell :=
  patternValue s.sym.ver.toNat (symbolSize s.sym.ver.toNat) (formatString config s.sym.lvl s.sym.mask.toNat)
    (versionString config s.sym.ver.toNat) (coordinates s.sym.ver.toNat) c r

include hv h40

theorem draws_of_mem_patternWrites {p : Put} (h : p ∈ patternWrites s) :
    Draws s.sym.ver.toNat (symbolSize s.sym.ver.toNat) (formatString config s.sym.lvl s.sym.mask.toNat)
      (versionString config s.sym.ver.toNat) (coordinates s.sym.ver.toNat) p := by
  rcases mem_patternWrites_iff.1 h with h | h | h | h | h | h | h | ⟨h7, h⟩
  · exact draws_finderTopLeft h
  · exact draws_finderTopRight h
  · exact draws_finderBottomLeft h
  · exact draws_darkModule h
  · exact draws_alignmentPatterns (alignmentGrid_coordinates (one_le_version hv) h40) h
  · exact draws_timingPatterns h
  · exact draws_formatPatterns h
  · exact draws_versionPatterns h7 h

/-- All writes of a cell have the value of the cell, so it holds the value of any of them. -/
theorem matRead_of_drawn {c r : Nat} {x : Cell} (h : Drawn s c r x) (m : Matrix) :
    matRead (putsApplied (patternWrites s) m) c r = x := by
  have hinside := patternWrites_inside hv h40
  have hvalue : ∀ p ∈ patternWrites s, p.col.toNat = c → p.row.toNat = r → p.val = stateValue s c r := by
    rintro p hp rfl rfl
    exact (draws_of_mem_patternWrites hv h40 hp).val
  obtain ⟨p, hp, hc, hr, hx⟩ := h
  have hpc := (toNat_eq_iff_of_inside (hinside p hp) c r).2 ⟨hc, hr⟩
  rw [matRead_putsApplied_of_forall_eq ⟨p, hp, hpc⟩ hvalue, ← hvalue p hp hpc.1 hpc.2, hx]

theorem matRead_of_not_patternCell {c r : Nat} (h : patternCell s.sym.ver.toNat c r ≠ true) (m : Matrix) :
    matRead (putsApplied (patternWrites s) m) c r = matRead m c r := by
  refine matRead_putsApplied_of_forall_ne (fun p hp hcr => h ?_) m
  obtain ⟨rfl, rfl⟩ := hcr
  exact (draws_of_mem_patternWrites hv h40 hp).cell

theorem matRead_of_not_inside {c r : Nat} (h : ¬(c < symbolSize s.sym.ver.toNat ∧ r < symbolSize s.sym.ver.toNat)) (m : Matrix) :
    matRead (putsApplied (patternWrites s) m) c r = matRead m c r := by
  refine matRead_putsApplied_of_forall_ne (fun p hp hcr => h ?_) m
  have := inside_iff.1 (patternWrites_inside hv h40 p hp)
  omega

theorem value_ne_unset_of_drawn {c r : Nat} {x : Cell} (h : Drawn s c r x) : x ≠ .unset := by
  obtain ⟨p, hp, -, -, rfl⟩ := h
  rw [(draws_of_mem_patternWrites hv h40 hp).val]
  exact patternValue_ne_unset _ _ _ _ _ _ _

end

/-! ### The writes of each pattern -/

section

variable {s : State} {c r : Nat}

theorem mem_blockCells (hc : c < 8) (hr : r < 8) : (c, r) ∈ blockCells :=
  List.mem_flatMap.2 ⟨r, List.mem_range.2 hr, List.mem_map.2 ⟨c, List.mem_range.2 hc, rfl⟩⟩

theorem drawn_topLeft (hc : c < 8) (hr : r < 8) : Drawn s c r (finderCell r c) :=
  ⟨_, mem_patternWrites_iff.2 (.inl (List.mem_map.2 ⟨_, mem_blockCells hc hr, rfl⟩)), rfl, rfl, rfl⟩

theorem drawn_topRight (hc : c < 8) (hr : r < 8) :
    Drawn s (symbolSize s.sym.ver.toNat - 8 + c) r (finderCell (7 - c) r) := by
  have hsize := twentyOne_le_symbolSize s.sym.ver.toNat
  exact ⟨_, mem_patternWrites_iff.2 (.inr (.inl (List.mem_map.2 ⟨_, mem_blockCells hc hr, rfl⟩))), by simp only; omega, rfl, rfl⟩

theorem drawn_bottomLeft (hc : c < 8) (hr : r < 8) :
    Drawn s c (symbolSize s.sym.ver.toNat - 8 + r) (finderCell c (7 - r)) := by
  have hsize := twentyOne_le_symbolSize s.sym.ver.toNat
  exact ⟨_, mem_patternWrites_iff.2 (.inr (.inr (.inl (List.mem_map.2 ⟨_, mem_blockCells hc hr, rfl⟩)))), rfl,
    by simp only; omega, rfl⟩

theorem drawn_darkModule : Drawn s 8 (symbolSize s.sym.ver.toNat - 8) .dark := by
  have hsize := twentyOne_le_symbolSize s.sym.ver.toNat
  exact ⟨_, mem_patternWrites_iff.2 (.inr (.inr (.inr (.inl (List.mem_singleton.2 rfl))))), rfl, by simp only; omega, rfl⟩

/-- A cell of the alignment square of centre `(x, y)`. -/
theorem drawn_alignment {x y : Nat} (hx : x ∈ coordinates s.sym.ver.toNat) (hy : y ∈ coordinates s.sym.ver.toNat)
    (hskip : overlapsFinder (symbolSize s.sym.ver.toNat) x y = false) (hc : x ≤ c + 2 ∧ c ≤ x + 2) (hr : y ≤ r + 2 ∧ r ≤ y + 2) :
    Drawn s c r (if max (absDiff r y) (absDiff c x) = 1 then .light else .dark) := by
  have hmem := mem_alignmentPatterns_iff.2 ⟨x, hx, y, hy, hskip, (c : Int) - x, mem_offsets_iff.2 (by omega), (r : Int) - y,
    mem_offsets_iff.2 (by omega), rfl⟩
  refine ⟨_, mem_patternWrites_iff.2 (.inr (.inr (.inr (.inr (.inl hmem))))), by simp only; omega, by simp only; omega, ?_⟩
  have hrdist : ((r : Int) - y).natAbs = absDiff r y := by unfold absDiff; omega
  have hcdist : ((c : Int) - x).natAbs = absDiff c x := by unfold absDiff; omega
  simp only [hrdist, hcdist]

theorem drawn_timing {i : Nat} (h8 : 8 ≤ i) (hi : i + 9 ≤ symbolSize s.sym.ver.toNat) :
    Drawn s i 6 (colour (i % 2 = 0)) ∧ Drawn s 6 i (colour (i % 2 = 0)) := by
  have hrange : i ∈ List.range' 8 (symbolSize s.sym.ver.toNat - 16) := List.mem_range'_1.2 (by omega)
  have hmem : ∀ p ∈ [_, _], p ∈ timingPatterns (symbolSize s.sym.ver.toNat) := fun p hp => List.mem_flatMap.2 ⟨i, hrange, hp⟩
  exact ⟨⟨_, mem_patternWrites_iff.2 (.inr (.inr (.inr (.inr (.inr (.inl (hmem _ List.mem_cons_self))))))), rfl, rfl, rfl⟩,
    ⟨_, mem_patternWrites_iff.2 (.inr (.inr (.inr (.inr (.inr (.inl (hmem _ (List.mem_cons_of_mem _ List.mem_cons_self)))))))),
      rfl, rfl, rfl⟩⟩

/-- The two cells of bit `i` of the format string. -/
theorem drawn_format {i : Nat} (hi : i < 15) {b : Bool}
    (hb : b = (formatString config s.sym.lvl s.sym.mask.toNat).testBit i) :
    (∀ c r : Nat, formatCell1 i = ((c : Int), (r : Int)) → Drawn s c r (colour b)) ∧
    (∀ c r : Nat, formatCell2 (symbolSize s.sym.ver.toNat) i = ((c : Int), (r : Int)) → Drawn s c r (colour b)) := by
  subst hb
  have hmem : ∀ p ∈ formatPatterns (symbolSize s.sym.ver.toNat) (formatString config s.sym.lvl s.sym.mask.toNat),
      p ∈ patternWrites s := fun p hp => mem_patternWrites_iff.2 (.inr (.inr (.inr (.inr (.inr (.inr (.inl hp)))))))
  have hrange : i ∈ List.range 15 := List.mem_range.2 hi
  exact ⟨fun c r h => ⟨_, hmem _ (List.mem_append_left _ (List.mem_map.2 ⟨i, hrange, rfl⟩)), congrArg Prod.fst h,
      congrArg Prod.snd h, rfl⟩,
    fun c r h => ⟨_, hmem _ (List.mem_append_right _ (List.mem_map.2 ⟨i, hrange, rfl⟩)), congrArg Prod.fst h,
      congrArg Prod.snd h, rfl⟩⟩

/-- The two cells of bit `i` of the version string. -/
theorem drawn_version (h7 : 7 ≤ s.sym.ver.toNat) {i : Nat} (hi : i < 18) :
    Drawn s (symbolSize s.sym.ver.toNat - 11 + i % 3) (i / 3) (colour ((versionString config s.sym.ver.toNat).testBit i)) ∧
    Drawn s (i / 3) (symbolSize s.sym.ver.toNat - 11 + i % 3) (colour ((versionString config s.sym.ver.toNat).testBit i)) := by
  have hsize := twentyOne_le_symbolSize s.sym.ver.toNat
  have hmem : ∀ p ∈ [_, _], p ∈ patternWrites s := fun p hp => mem_patternWrites_iff.2
    (.inr (.inr (.inr (.inr (.inr (.inr (.inr ⟨h7, List.mem_flatMap.2 ⟨i, List.mem_range.2 hi, hp⟩⟩)))))))
  exact ⟨⟨_, hmem _ List.mem_cons_self, by simp only; omega, rfl, rfl⟩,
    ⟨_, hmem _ (List.mem_cons_of_mem _ List.mem_cons_self), rfl, by simp only; omega, rfl⟩⟩

/-! ### Every pattern cell is drawn -/

theorem exists_drawn_of_column_six (hr : r < symbolSize s.sym.ver.toNat) : ∃ x, Drawn s 6 r x := by
  by_cases h8 : r < 8
  · exact ⟨_, drawn_topLeft (by decide) h8⟩
  · by_cases hbottom : symbolSize s.sym.ver.toNat ≤ r + 8
    · have h := drawn_bottomLeft (s := s) (c := 6) (r := r + 8 - symbolSize s.sym.ver.toNat) (by decide) (by omega)
      rw [show symbolSize s.sym.ver.toNat - 8 + (r + 8 - symbolSize s.sym.ver.toNat) = r by omega] at h
      exact ⟨_, h⟩
    · exact ⟨_, (drawn_timing (by omega) (by omega)).2⟩

theorem exists_drawn_of_row_six (hc : c < symbolSize s.sym.ver.toNat) : ∃ x, Drawn s c 6 x := by
  by_cases h8 : c < 8
  · exact ⟨_, drawn_topLeft h8 (by decide)⟩
  · by_cases hright : symbolSize s.sym.ver.toNat ≤ c + 8
    · have h := drawn_topRight (s := s) (c := c + 8 - symbolSize s.sym.ver.toNat) (r := 6) (by omega) (by decide)
      rw [show symbolSize s.sym.ver.toNat - 8 + (c + 8 - symbolSize s.sym.ver.toNat) = c by omega] at h
      exact ⟨_, h⟩
    · exact ⟨_, (drawn_timing (by omega) (by omega)).1⟩

theorem exists_formatCell1_row : ∀ c : Nat, c < 9 → c ≠ 6 → ∃ i < 15, formatCell1 i = ((c : Int), ((8 : Nat) : Int)) := by decide

theorem exists_formatCell1_column : ∀ r : Nat, r < 9 → r ≠ 6 → ∃ i < 15, formatCell1 i = (((8 : Nat) : Int), (r : Int)) := by decide

theorem exists_drawn_of_row_eight (hc : c < symbolSize s.sym.ver.toNat) (h : c ≤ 8 ∨ symbolSize s.sym.ver.toNat ≤ c + 8) :
    ∃ x, Drawn s c 8 x := by
  have hsize := twentyOne_le_symbolSize s.sym.ver.toNat
  by_cases h6 : c = 6
  · rw [h6]
    exact exists_drawn_of_column_six (by omega)
  · by_cases h8 : c ≤ 8
    · obtain ⟨i, hi, hcell⟩ := exists_formatCell1_row c (by omega) h6
      exact ⟨_, (drawn_format hi rfl).1 _ _ hcell⟩
    · refine ⟨_, (drawn_format (i := symbolSize s.sym.ver.toNat - 1 - c) (by omega) rfl).2 _ _ ?_⟩
      rw [formatCell2, if_pos (by omega)]
      exact Prod.ext (by simp only; omega) rfl

theorem exists_drawn_of_column_eight (hr : r < symbolSize s.sym.ver.toNat) (h : r ≤ 8 ∨ symbolSize s.sym.ver.toNat ≤ r + 8) :
    ∃ x, Drawn s 8 r x := by
  have hsize := twentyOne_le_symbolSize s.sym.ver.toNat
  by_cases h6 : r = 6
  · rw [h6]
    exact exists_drawn_of_row_six (by omega)
  · by_cases h8 : r ≤ 8
    · obtain ⟨i, hi, hcell⟩ := exists_formatCell1_column r (by omega) h6
      exact ⟨_, (drawn_format hi rfl).1 _ _ hcell⟩
    · by_cases hdark : r = symbolSize s.sym.ver.toNat - 8
      · rw [hdark]
        exact ⟨_, drawn_darkModule⟩
      · refine ⟨_, (drawn_format (i := r + 15 - symbolSize s.sym.ver.toNat) (by omega) rfl).2 _ _ ?_⟩
        rw [formatCell2, if_neg (by omega)]
        exact Prod.ext rfl (by simp only; omega)

theorem exists_drawn_of_patternCell (hc : c < symbolSize s.sym.ver.toNat) (hr : r < symbolSize s.sym.ver.toNat)
    (h : patternCell s.sym.ver.toNat c r = true) : ∃ x, Drawn s c r x := by
  have hsize := twentyOne_le_symbolSize s.sym.ver.toNat
  rw [patternCell_iff, side_eq_symbolSize] at h
  rcases h with (⟨h8, h8'⟩ | ⟨h8, h8'⟩ | ⟨h8, h8'⟩ | rfl | rfl | ⟨rfl, h8⟩ | ⟨rfl, h8⟩ | ⟨h7, hblock | hblock⟩) | h
  · exact ⟨_, drawn_topLeft h8 h8'⟩
  · have h := drawn_topRight (s := s) (c := c + 8 - symbolSize s.sym.ver.toNat) (by omega) h8'
    rw [show symbolSize s.sym.ver.toNat - 8 + (c + 8 - symbolSize s.sym.ver.toNat) = c by omega] at h
    exact ⟨_, h⟩
  · have h := drawn_bottomLeft (s := s) (r := r + 8 - symbolSize s.sym.ver.toNat) h8 (by omega)
    rw [show symbolSize s.sym.ver.toNat - 8 + (r + 8 - symbolSize s.sym.ver.toNat) = r by omega] at h
    exact ⟨_, h⟩
  · exact exists_drawn_of_column_six hr
  · exact exists_drawn_of_row_six hc
  · exact exists_drawn_of_row_eight hc h8
  · exact exists_drawn_of_column_eight hr h8
  · have h := (drawn_version h7 (i := 3 * r + (c + 11 - symbolSize s.sym.ver.toNat)) (by omega)).1
    rw [show symbolSize s.sym.ver.toNat - 11 + (3 * r + (c + 11 - symbolSize s.sym.ver.toNat)) % 3 = c by omega,
      show (3 * r + (c + 11 - symbolSize s.sym.ver.toNat)) / 3 = r by omega] at h
    exact ⟨_, h⟩
  · have h := (drawn_version h7 (i := 3 * c + (r + 11 - symbolSize s.sym.ver.toNat)) (by omega)).2
    rw [show symbolSize s.sym.ver.toNat - 11 + (3 * c + (r + 11 - symbolSize s.sym.ver.toNat)) % 3 = r by omega,
      show (3 * c + (r + 11 - symbolSize s.sym.ver.toNat)) / 3 = c by omega] at h
    exact ⟨_, h⟩
  · obtain ⟨x, hx, y, hy, hcx, hry, hskip⟩ := (alignmentSquare_iff ..).1 h
    exact ⟨_, drawn_alignment hx hy (overlapsFinder_eq_false_iff.2 hskip) hcx hry⟩

end

/-! ### `MPAT` (46_matrix_patterns.md R197) -/

theorem exec_mpat_eq {s t : State} (hf : s.fatal = false) (hp : s.phase = .idle) (h1 : 1 ≤ s.sym.ver.toNat)
    (h40 : s.sym.ver.toNat ≤ 40) (h : exec .mpat s = .next t) :
    s.sym.ver ≠ 0#6 ∧ t.mat = putsApplied (patternWrites s) s.mat := by
  have hv : s.sym.ver ≠ 0#6 := fun h0 => absurd h1 (by rw [h0]; decide)
  have hnext := (exec_eq_command .mpat s).trans (command_of_ok hf (mpatBody_config hv h40 hp))
  obtain rfl := Host.Outcome.next.inj (hnext.symm.trans h)
  exact ⟨hv, by rw [State.complete_mat, State.setMatrix_mat]⟩

theorem finderCell_eq_finderDrawing : ∀ r < 8, ∀ c < 8, finderCell r c = finderDrawing r c := by decide

theorem formatCell1_eq_formatCopy1 : ∀ i < 15,
    formatCell1 i = (((formatCopy1.getD i (0, 0)).1 : Int), ((formatCopy1.getD i (0, 0)).2 : Int)) := by decide

theorem formatCell2_eq_formatCopy2 {size : Nat} (hsize : 21 ≤ size) {i : Nat} (hi : i < 15) : formatCell2 size i =
    ((((formatCopy2 size).getD i (0, 0)).1 : Int), (((formatCopy2 size).getD i (0, 0)).2 : Int)) := by
  interval_cases i <;> simp [formatCell2, formatCopy2] <;> omega

/-- Settles O40: each pattern's writes name the cells of its drawing; the cells of all writes are the pattern cells. -/
theorem mpatLeavesTheCanonicalCells : Obligations.MpatLeavesTheCanonicalCells := by
  rintro s t v size hf hp rfl h1 h40 rfl h
  obtain ⟨hv, hmat⟩ := exec_mpat_eq hf hp h1 h40 h
  have hread : ∀ {c r : Nat} {x : Cell}, Drawn s c r x → matRead t.mat c r = x := fun hd => by
    rw [hmat]
    exact matRead_of_drawn hv h40 hd s.mat
  have hsize : 21 ≤ symbolSize s.sym.ver.toNat := twentyOne_le_symbolSize _
  simp only [side_eq_symbolSize]
  refine ⟨fun c hc r hr => ⟨?_, ?_, ?_⟩, hread drawn_darkModule, fun i h8 hi => ?timing, fun i hi => ⟨?copy1, ?copy2⟩,
    fun h7 i hi => ?version, fun c hc r hr hcell => ?set, fun c r hcell => ?kept⟩
  · rw [hread (drawn_topLeft hc hr), finderCell_eq_finderDrawing r hr c hc]
  · rw [hread (drawn_topRight hc hr), finderCell_eq_finderDrawing _ (by omega) r hr]
  · rw [hread (drawn_bottomLeft hc hr), finderCell_eq_finderDrawing c hc _ (by omega)]
  case timing =>
    obtain ⟨hrow, hcolumn⟩ := drawn_timing (s := s) h8 (by omega)
    exact ⟨hread hrow, hread hcolumn⟩
  case copy1 => exact hread ((drawn_format hi rfl).1 _ _ (formatCell1_eq_formatCopy1 i hi))
  case copy2 => exact hread ((drawn_format hi rfl).2 _ _ (formatCell2_eq_formatCopy2 hsize hi))
  case version => exact ⟨hread (drawn_version h7 hi).1, hread (drawn_version h7 hi).2⟩
  case set =>
    obtain ⟨x, hx⟩ := exists_drawn_of_patternCell hc hr hcell
    rw [hread hx]
    exact value_ne_unset_of_drawn hv h40 hx
  case kept =>
    rw [hmat]
    by_cases hin : c < symbolSize s.sym.ver.toNat ∧ r < symbolSize s.sym.ver.toNat
    · exact matRead_of_not_patternCell hv h40 (fun hpat => hcell ⟨hin.1, hin.2, hpat⟩) s.mat
    · exact matRead_of_not_inside hv h40 hin s.mat

/-- Settles O41: a centre the obligation names is not skipped, and the ring of the write is the ring drawn. -/
theorem mpatLeavesTheAlignmentPatterns : Obligations.MpatLeavesTheAlignmentPatterns := by
  rintro s t v size x y ls hf hp rfl h2 h40 rfl hls hx hy htl htr hbl h dc hdc dr hdr
  obtain ⟨hv, hmat⟩ := exec_mpat_eq hf hp (by omega) h40 h
  have hcoordinates : coordinates s.sym.ver.toNat = ls := by rw [coordinates, if_pos h2, hls, Option.getD_some]
  rw [← hcoordinates] at hx hy
  have hgrid := alignmentGrid_coordinates (one_le_version hv) h40
  have := hgrid.low x hx
  have := hgrid.low y hy
  have hskip : overlapsFinder (symbolSize s.sym.ver.toNat) x y = false := overlapsFinder_eq_false_iff.2 ⟨htl, htr, hbl⟩
  have hdrawn := drawn_alignment (s := s) (c := x - 2 + dc) (r := y - 2 + dr) hx hy hskip (by omega) (by omega)
  rw [hmat, matRead_of_drawn hv h40 hdrawn]
  have hcdist : absDiff (x - 2 + dc) x = absDiff dc 2 := by unfold absDiff; omega
  have hrdist : absDiff (y - 2 + dr) y = absDiff dr 2 := by unfold absDiff; omega
  rw [hcdist, hrdist]
  exact if_congr (by unfold absDiff; omega) rfl rfl

end Sys2Proof.Proofs

/-! Proofs for 46_matrix_patterns.md R209: `MPAT` leaves as many cells free as the version has bits. -/

namespace Sys2Proof.Proofs

open Sys2Proof Sys2Proof.Machine Sys2Proof.Laws Sys2Proof.Claims

/-! ### Sums over runs of equal elements -/

/-- The runs of a list: how many equal elements follow one another, and which. -/
def runs {α : Type} [DecidableEq α] : List α → List (Nat × α)
  | [] => []
  | a :: l =>
    match runs l with
    | [] => [(1, a)]
    | (n, b) :: rest => if a = b then (n + 1, b) :: rest else (1, a) :: (n, b) :: rest

def weightedSum {α : Type} (rs : List (Nat × α)) (f : α → Nat) : Nat := (rs.map fun q => q.1 * f q.2).sum

theorem weightedSum_runs {α : Type} [DecidableEq α] (l : List α) (f : α → Nat) : weightedSum (runs l) f = (l.map f).sum := by
  induction l with
  | nil => rfl
  | cons a l ih =>
    rw [List.map_cons, List.sum_cons, ← ih, runs]
    cases runs l with
    | nil => simp [weightedSum]
    | cons q rest =>
      simp only [weightedSum]
      split
      · next h =>
        subst h
        simp only [List.map_cons, List.sum_cons]
        ring
      · simp

/-! ### A pattern cell by the classes of its column and its row -/

/-- A coordinate by what `patternCell` asks of it: below 6, at 6, below 8, at 8; in the last eight, in a version block's three;
within two of the first, of the last or of another alignment coordinate. -/
abbrev LineClass := (Bool × Bool × Bool × Bool) × (Bool × Bool) × (Bool × Bool × Bool)

/-- Within two of an alignment coordinate with a property. -/
def near (v x : Nat) (P : Nat → Bool) : Bool := (coordinates v).any fun a => a ≤ x + 2 && x ≤ a + 2 && P a

def lineClass (v x : Nat) : LineClass :=
  ((x < 6, x = 6, x < 8, x = 8), (side v ≤ x + 8, side v ≤ x + 11 && x + 9 ≤ side v),
    near v x fun a => a ≤ 9, near v x fun a => side v ≤ a + 10, near v x fun a => !(a ≤ 9) && !(side v ≤ a + 10))

/-- Whether a column and a row of the given classes meet in one of the fixed patterns or in the metadata. -/
def fixedCell (v : Nat) : (c r : LineClass) → Bool
  | ((cBelow6, c6, cBelow8, c8), (cEnd, cVersion), _), ((rBelow6, r6, rBelow8, r8), (rEnd, rVersion), _) =>
    cBelow8 && rBelow8 || cEnd && rBelow8 || cBelow8 && rEnd || c6 || r6 ||
      r8 && (cBelow8 || c8 || cEnd) || c8 && (rBelow8 || r8 || rEnd) ||
      7 ≤ v && (cVersion && rBelow6 || cBelow6 && rVersion)

/-- Whether they meet in an alignment square: not by the first or last coordinate of each, but for the last of both. -/
def gridCell : (c r : LineClass) → Bool
  | (_, _, cFirst, cLast, cOther), (_, _, rFirst, rLast, rOther) =>
    cFirst && rOther || cLast && (rLast || rOther) || cOther && (rFirst || rLast || rOther)

theorem near_iff {v x : Nat} {P : Nat → Bool} :
    near v x P = true ↔ ∃ a ∈ coordinates v, (a ≤ x + 2 ∧ x ≤ a + 2) ∧ P a = true := by
  simp only [near, List.any_eq_true, Bool.and_eq_true, decide_eq_true_eq]

theorem alignmentSquare_eq_gridCell (v c r : Nat) : alignmentSquare v c r = gridCell (lineClass v c) (lineClass v r) := by
  have hsize : 21 ≤ side v := twentyOne_le_symbolSize v
  rw [Bool.eq_iff_iff, alignmentSquare_iff]
  simp only [gridCell, lineClass, Bool.or_eq_true, Bool.and_eq_true, near_iff, decide_eq_true_eq, Bool.not_eq_true',
    decide_eq_false_iff_not]
  constructor
  · rintro ⟨x, hx, y, hy, hc, hr, htl, htr, hbl⟩
    by_cases hx9 : x ≤ 9
    · exact .inl (.inl ⟨⟨x, hx, hc, hx9⟩, y, hy, hr, by omega⟩)
    · by_cases hxlast : side v ≤ x + 10
      · refine .inl (.inr ⟨⟨x, hx, hc, hxlast⟩, ?_⟩)
        by_cases hylast : side v ≤ y + 10
        · exact .inl ⟨y, hy, hr, hylast⟩
        · exact .inr ⟨y, hy, hr, by omega⟩
      · refine .inr ⟨⟨x, hx, hc, hx9, hxlast⟩, ?_⟩
        by_cases hy9 : y ≤ 9
        · exact .inl (.inl ⟨y, hy, hr, hy9⟩)
        · by_cases hylast : side v ≤ y + 10
          · exact .inl (.inr ⟨y, hy, hr, hylast⟩)
          · exact .inr ⟨y, hy, hr, hy9, hylast⟩
  · rintro ((⟨⟨x, hx, hc, hx'⟩, y, hy, hr, hy'⟩ | ⟨⟨x, hx, hc, hx'⟩, ⟨y, hy, hr, hy'⟩ | ⟨y, hy, hr, hy'⟩⟩) |
      ⟨⟨x, hx, hc, hx'⟩, (⟨y, hy, hr, hy'⟩ | ⟨y, hy, hr, hy'⟩) | ⟨y, hy, hr, hy'⟩⟩) <;>
    exact ⟨x, hx, y, hy, hc, hr, by omega⟩

theorem patternCell_eq (v c r : Nat) : patternCell v c r =
    (fixedCell v (lineClass v c) (lineClass v r) || gridCell (lineClass v c) (lineClass v r)) := by
  rw [Bool.eq_iff_iff, patternCell_iff, Bool.or_eq_true, alignmentSquare_eq_gridCell]
  refine or_congr_left ?_
  simp only [fixedCell, lineClass, Bool.or_eq_true, Bool.and_eq_true, decide_eq_true_eq]
  omega

/-- The cells of the symbol that are in no pattern, counted class by class. -/
def freeCount (v : Nat) : Nat :=
  let rs := runs ((List.range (side v)).map (lineClass v))
  weightedSum rs fun r => weightedSum rs fun c => if fixedCell v c r || gridCell c r then 0 else 1

theorem freeCount_eq_all : ∀ v : Fin 40,
    freeCount (v.val + 1) = 8 * totalCodewordRows.getD v.val 0 + rembitsRows.getD v.val 0 := by
  decide +kernel

theorem sum_range_eq_sum_map (n : Nat) (f : Nat → Nat) : ∑ i ∈ Finset.range n, f i = ((List.range n).map f).sum := by
  change (Multiset.map f (↑(List.range n))).sum = _
  rw [Multiset.map_coe, Multiset.sum_coe]

theorem freeCount_eq_sum (v : Nat) : freeCount v =
    ∑ r ∈ Finset.range (side v), ∑ c ∈ Finset.range (side v), if patternCell v c r then 0 else 1 := by
  simp only [freeCount, weightedSum_runs, List.map_map, sum_range_eq_sum_map, patternCell_eq, Function.comp_def]

/-- R209: the cells the patterns leave free are as many as the bits of the version. -/
theorem bitCount_eq_freeCount {v : Nat} (h1 : 1 ≤ v) (h2 : v ≤ 40) (l : Level) : bitCount v l = some (freeCount v) := by
  obtain ⟨t, ht, -, -⟩ := exists_queryEc (not_ecUndefined_config h1 h2 l)
  obtain ⟨q, hq, -, hquery⟩ := exists_queryRembits (not_rembitsUndefined_config h1 h2)
  obtain rfl := Except.ok.inj (hquery.symm.trans (queryRembits_config h1 h2))
  obtain ⟨-, -, -, htotal⟩ := entry_config ht
  have hcount := freeCount_eq_all ⟨v - 1, by omega⟩
  rw [show v - 1 + 1 = v by omega, ← htotal] at hcount
  rw [bitCount, ht, hq, hcount, totalCodewords]
  exact congrArg some (by ring)

/-! ### The free cells after `MPAT` -/

section

variable {s : State} (hv : s.sym.ver ≠ 0#6) (h40 : s.sym.ver.toNat ≤ 40) (hunset : ∀ c r, matRead s.mat c r = .unset)
include hv h40 hunset

theorem matRead_eq_unset_iff {c r : Nat} (hc : c < symbolSize s.sym.ver.toNat) (hr : r < symbolSize s.sym.ver.toNat) :
    matRead (putsApplied (patternWrites s) s.mat) c r = .unset ↔ patternCell s.sym.ver.toNat c r = false := by
  rw [← Bool.not_eq_true]
  constructor
  · intro hfree hcell
    obtain ⟨x, hx⟩ := exists_drawn_of_patternCell hc hr hcell
    rw [matRead_of_drawn hv h40 hx] at hfree
    exact value_ne_unset_of_drawn hv h40 hx hfree
  · intro hcell
    rw [matRead_of_not_patternCell hv h40 hcell, hunset]

theorem length_freeCells_after_mpat :
    (freeCells (putsApplied (patternWrites s) s.mat) (symbolSize s.sym.ver.toNat)).length = freeCount s.sym.ver.toNat := by
  have hsize := twentyOne_le_symbolSize s.sym.ver.toNat
  have hodd : symbolSize s.sym.ver.toNat % 2 = 1 := by unfold symbolSize; omega
  have hcells : (freeCells (putsApplied (patternWrites s) s.mat) (symbolSize s.sym.ver.toNat)).toFinset =
      (Finset.range (symbolSize s.sym.ver.toNat) ×ˢ Finset.range (symbolSize s.sym.ver.toNat)).filter
        fun p => patternCell s.sym.ver.toNat p.1 p.2 = false := by
    ext ⟨c, r⟩
    simp only [freeCells, List.mem_toFinset, List.mem_filter, mem_zigzag_iff (by omega) hodd, decide_eq_true_eq,
      Finset.mem_filter, Finset.mem_product, Finset.mem_range]
    constructor
    · rintro ⟨⟨hc, hr, -⟩, hfree⟩
      exact ⟨⟨hc, hr⟩, (matRead_eq_unset_iff hv h40 hunset hc hr).1 hfree⟩
    · rintro ⟨⟨hc, hr⟩, hcell⟩
      refine ⟨⟨hc, hr, ?_⟩, (matRead_eq_unset_iff hv h40 hunset hc hr).2 hcell⟩
      rintro rfl
      rw [← Bool.not_eq_true, patternCell_iff] at hcell
      exact hcell (.inl (by omega))
  have hnodup : (freeCells (putsApplied (patternWrites s) s.mat) (symbolSize s.sym.ver.toNat)).Nodup :=
    (nodup_zigzag_of_any_size _).filter _
  rw [← List.toFinset_card_of_nodup hnodup, hcells, Finset.card_filter, Finset.sum_product_right, freeCount_eq_sum]
  refine Finset.sum_congr rfl fun r _ => Finset.sum_congr rfl fun c _ => ?_
  cases patternCell s.sym.ver.toNat c r <;> rfl

end

end Sys2Proof.Proofs

/-! Proofs for 46_matrix_patterns.md R209 and 48_composite_commands.md R231, R232: on an unset matrix the bits of the version fill
the symbol, so rendering completes. -/

namespace Sys2Proof.Proofs

open Sys2Proof Sys2Proof.Machine Sys2Proof.Laws Sys2Proof.Claims

/-- Settles O42: the free cells are counted class by class, and the bit counts read from the tables. -/
theorem freeCellsEqualBitsUpToVersionSeven : Obligations.FreeCellsEqualBitsUpToVersionSeven := by
  intro v h1 h7
  have hcounts : ∀ v : Fin 7, bitCount (v.val + 1) .L = [208, 359, 567, 807, 1079, 1383, 1568][v.val]? := by decide +kernel
  have hcount := hcounts ⟨v - 1, by omega⟩
  rw [show v - 1 + 1 = v by omega] at hcount
  refine ⟨?_, hcount⟩
  have hkey : (beforePatterns v).sym.ver.toNat = v := toNat_ofNat_version (by omega)
  have hv : (beforePatterns v).sym.ver ≠ 0#6 := ofNat_version_ne_zero h1 (by omega)
  have h40 : (beforePatterns v).sym.ver.toNat ≤ 40 := by omega
  have hexec := (exec_eq_command .mpat (beforePatterns v)).trans (command_of_ok rfl (mpatBody_config hv h40 rfl))
  rw [LayoutCloses, hexec]
  simp only [State.complete_mat, State.complete_matsize, State.setMatrix_mat, State.setMatrix_matsize]
  rw [length_freeCells_after_mpat hv h40 fun _ _ => rfl, hkey]
  exact bitCount_eq_freeCount h1 (by omega) .L

/-! ### Rendering on an unset matrix -/

theorem mem_freeCells {m : Matrix} {size c r : Nat} (hsize : 7 ≤ size) (hodd : size % 2 = 1) (hc : c < size) (hr : r < size)
    (h6 : c ≠ 6) (hfree : matRead m c r = .unset) : (c, r) ∈ freeCells m size :=
  List.mem_filter.2 ⟨(mem_zigzag_iff hsize hodd c r).2 ⟨hc, hr, h6⟩, by simpa using hfree⟩

/-- As many bits as free cells leave none of them free. -/
theorem matRead_placeBits_ne_unset_of_mem {cfg : Config} {mask : BitVec 3} {size c r : Nat} {bs : List Bool} {m : Matrix}
    (hlen : (freeCells m size).length ≤ bs.length) (h : (c, r) ∈ freeCells m size) :
    matRead (placeBits cfg mask (zigzag size) bs m).1 c r ≠ .unset := by
  obtain ⟨j, hj, hq⟩ := List.getElem_of_mem h
  rw [matRead_placeBits_freeAmong cfg mask (nodup_zigzag_of_any_size size) bs m
    (by rw [← freeCells_eq_freeAmong, List.getElem?_eq_getElem hj, hq]) (List.getElem?_eq_getElem (hj.trans_le hlen))]
  exact colour_ne_unset _

theorem framed_matFill {size : Nat} {core : Matrix} (hset : ∀ c < size, ∀ r < size, matRead core c r ≠ .unset)
    (hout : ∀ c r, ¬(c < size ∧ r < size) → matRead core c r = .unset) :
    Framed size core (matFill (size + 8) (framedCell 4 size core) core) := by
  refine ⟨fun c hc r hr => ⟨hset c hc r hr, ?_⟩, fun c hc r hr hframe => ?_, fun c r hcr => ?_⟩
  · rw [matRead_matFill, if_pos (by omega), framedCell_of_core 4 size core hc hr]
  · rw [matRead_matFill, if_pos ⟨hc, hr⟩, framedCell_of_not_core (margin := 4) _ (by omega)]
  · rw [matRead_matFill, if_neg hcr, hout c r (by omega)]

/-- The three parts of `MRENDER` complete, one after the other. -/
theorem render_parts_complete {s : State} (hp : s.phase = .idle) (hunset : ∀ c r, matRead s.mat c r = .unset)
    (hv : s.sym.ver ≠ 0#6) (h40 : s.sym.ver.toNat ≤ 40) {l : Level} (hbits : bitCount s.sym.ver.toNat l = some s.bitlen) :
    ∃ m1 m2 m, mpatBody config s = .ok (s.setMatrix m1 (symbolSize s.sym.ver.toNat) .patternsPlaced) ∧
      (freeCells m1 (symbolSize s.sym.ver.toNat)).length = s.bitlen ∧
      mdataBody config (s.setMatrix m1 (symbolSize s.sym.ver.toNat) .patternsPlaced) =
        .ok (s.setMatrix m2 (symbolSize s.sym.ver.toNat) .dataInserted) ∧
      mmarginBody config (s.setMatrix m2 (symbolSize s.sym.ver.toNat) .dataInserted) =
        .ok (s.setMatrix m (symbolSize s.sym.ver.toNat + 8) .marginApplied) ∧
      Framed (symbolSize s.sym.ver.toNat) m2 m := by
  have hsize := twentyOne_le_symbolSize s.sym.ver.toNat
  have hodd : symbolSize s.sym.ver.toNat % 2 = 1 := by unfold symbolSize; omega
  have hfree : (freeCells (putsApplied (patternWrites s) s.mat) (symbolSize s.sym.ver.toNat)).length = s.bitlen := by
    rw [length_freeCells_after_mpat hv h40 hunset]
    exact Option.some.inj ((bitCount_eq_freeCount (one_le_version hv) h40 l).symm.trans hbits)
  have hmpat := mpatBody_config hv h40 hp
  have hcolumn : ∀ r < symbolSize s.sym.ver.toNat, matRead (putsApplied (patternWrites s) s.mat) 6 r ≠ .unset := fun r hr h =>
    absurd ((matRead_eq_unset_iff hv h40 hunset (by omega) hr).1 h) (by simp [patternCell])
  have hout : ∀ c r, ¬(c < symbolSize s.sym.ver.toNat ∧ r < symbolSize s.sym.ver.toNat) →
      matRead (putsApplied (patternWrites s) s.mat) c r = .unset := fun c r hcr => by
    rw [matRead_of_not_inside hv h40 hcr, hunset]
  generalize putsApplied (patternWrites s) s.mat = m1 at hfree hmpat hcolumn hout
  have hmdata := (mdataBody_of_patternsPlaced (c := config)
    (s := s.setMatrix m1 (symbolSize s.sym.ver.toNat) .patternsPlaced) rfl).trans (if_pos hfree.ge)
  have hset : ∀ c < symbolSize s.sym.ver.toNat, ∀ r < symbolSize s.sym.ver.toNat,
      matRead (placeBits config s.sym.mask (zigzag (symbolSize s.sym.ver.toNat)) s.bitData m1).1 c r ≠ .unset := by
    intro c hc r hr
    by_cases hcell : matRead m1 c r = .unset
    · have h6 : c ≠ 6 := fun h => hcolumn r hr (h ▸ hcell)
      exact matRead_placeBits_ne_unset_of_mem (by rw [hfree, length_bitData]) (mem_freeCells (by omega) hodd hc hr h6 hcell)
    · rwa [matRead_placeBits_of_set _ _ _ _ _ hcell]
  have hout' : ∀ c r, ¬(c < symbolSize s.sym.ver.toNat ∧ r < symbolSize s.sym.ver.toNat) →
      matRead (placeBits config s.sym.mask (zigzag (symbolSize s.sym.ver.toNat)) s.bitData m1).1 c r = .unset := by
    intro c r hcr
    rw [matRead_placeBits_of_not_mem, hout c r hcr]
    exact fun hmem => hcr ⟨((mem_zigzag_iff (by omega) hodd c r).1 hmem).1, ((mem_zigzag_iff (by omega) hodd c r).1 hmem).2.1⟩
  exact ⟨m1, _, _, hmpat, hfree, hmdata, mmarginBody_of_complete
    (s := s.setMatrix _ (symbolSize s.sym.ver.toNat) .dataInserted) rfl hset, framed_matFill hset hout'⟩

/-- The parts run as commands from a state of any earlier report. -/
theorem exec_render_parts {s : State} {m1 m2 : Matrix} {n : Nat} (hf : s.fatal = false)
    (hmpat : mpatBody config s = .ok (s.setMatrix m1 n .patternsPlaced))
    (hmdata : mdataBody config (s.setMatrix m1 n .patternsPlaced) = .ok (s.setMatrix m2 n .dataInserted)) :
    exec .mpat s = .next (s.setMatrix m1 n .patternsPlaced).complete ∧
      exec .mdata (s.setMatrix m1 n .patternsPlaced).complete = .next (s.setMatrix m2 n .dataInserted).complete := by
  refine ⟨(exec_eq_command .mpat s).trans (command_of_ok hf hmpat), (exec_eq_command .mdata _).trans ?_⟩
  refine command_of_ok (t := (s.setMatrix m2 n .dataInserted).complete) hf ?_
  exact (ignoresReport_mdataBody config _).trans (congrArg _ hmdata)

theorem mrenderBody_of_parts {c : Config} {s s1 s2 s3 : State} (h1 : mpatBody c s = .ok s1) (h2 : mdataBody c s1 = .ok s2)
    (h3 : mmarginBody c s2 = .ok s3) : mrenderBody c s = .ok s3 := by
  rw [mrenderBody, h1, ok_bind, h2, ok_bind, h3]

/-- Settles O47: as many cells are free as there are bits, so none is left `Unset` for `MMARGIN` to find. -/
theorem mrenderCompletesWhenTheBitsFillTheSymbol : Obligations.MrenderCompletesWhenTheBitsFillTheSymbol := by
  rintro s v l hf hp hunset rfl h1 h40 hbits
  have hv : s.sym.ver ≠ 0#6 := fun h0 => absurd h1 (by rw [h0]; decide)
  obtain ⟨m1, m2, m, hmpat, hfree, hmdata, hmmargin, hframed⟩ := render_parts_complete hp hunset hv h40 hbits
  obtain ⟨hexec1, hexec2⟩ := exec_render_parts hf hmpat hmdata
  exact ⟨_, _, m, hexec1, rfl, hfree, hexec2, rfl, (exec_eq_command .mrender s).trans
    (command_of_ok hf (mrenderBody_of_parts hmpat hmdata hmmargin)), hframed⟩

/-- Settles O48: `MENC` writes the bits of the version it chooses, which fill the symbol. -/
theorem qrencCompletesWhenTheDataFits : Obligations.QrencCompletesWhenTheDataFits := by
  intro s rs1 rs2 l v hf hp hunset h1 h40 h3 hfit
  obtain ⟨cw, bits, hmenc, -, hbits⟩ := mencBody_of_firstFit hp h1 h40 h3 hfit
  obtain ⟨hv1, hv40⟩ := FirstFit.bounds hfit
  have hkey : (BitVec.ofNat 6 v).toNat = v := toNat_ofNat_version hv40
  have hver : (BitVec.ofNat 6 v) ≠ 0#6 := ofNat_version_ne_zero (h1.trans hv1) hv40
  obtain ⟨m1, m2, m, hmpat, -, hmdata, hmmargin, hframed⟩ := render_parts_complete
    (s := ((s.setVersionLevel v l).setCw cw).setBits bits) (l := l) hp hunset hver (hkey.trans_le hv40)
    ((congrArg (bitCount · l) hkey).trans hbits)
  simp only [State.setBits_sym, State.setCw_sym, State.setVersionLevel_sym, hkey] at hmpat hmdata hmmargin hframed
  have hmpat' : mpatBody config (((s.setVersionLevel v l).setCw cw).setBits bits).complete =
      .ok ((((s.setVersionLevel v l).setCw cw).setBits bits).complete.setMatrix m1 (symbolSize v) .patternsPlaced) :=
    (ignoresReport_mpatBody config _).trans (congrArg _ hmpat)
  have hmdata' : mdataBody config
        ((((s.setVersionLevel v l).setCw cw).setBits bits).complete.setMatrix m1 (symbolSize v) .patternsPlaced) =
      .ok ((((s.setVersionLevel v l).setCw cw).setBits bits).complete.setMatrix m2 (symbolSize v) .dataInserted) :=
    (ignoresReport_mdataBody config _).trans (congrArg _ hmdata)
  obtain ⟨hexec1, hexec2⟩ := exec_render_parts (s := (((s.setVersionLevel v l).setCw cw).setBits bits).complete) hf hmpat' hmdata'
  have hqrenc : qrencBody config rs1 rs2 s =
      .ok ((((s.setVersionLevel v l).setCw cw).setBits bits).setMatrix m (symbolSize v + 8) .marginApplied) := by
    rw [qrencBody, hmenc, ok_bind, mrenderBody_of_parts hmpat hmdata hmmargin]
  refine ⟨(((s.setVersionLevel v l).setCw cw).setBits bits).complete, _, _, m,
    (exec_eq_command (.menc rs1 rs2) s).trans (command_of_ok hf hmenc), rfl, hexec1, rfl, hexec2, rfl, ?_, hframed⟩
  have hcw : (((s.setVersionLevel v l).setCw cw).setBits bits).complete.cwData = cw := cwData_setCw _ cw
  have hbitData : (((s.setVersionLevel v l).setCw cw).setBits bits).complete.bitData = bits := bitData_setBits _ bits
  rw [hcw, hbitData]
  exact (exec_eq_command (.qrenc rs1 rs2) s).trans (command_of_ok hf hqrenc)

end Sys2Proof.Proofs
